-- ==== Sys2Proof/Word.lean ====
section
/-! DEFINITION. The widths of FBCONV's data: a register word, a byte of SRC or FB, a 16-bit field. -/

namespace Sys2Proof

/-- A register or a command word: 32 bits (00_scope.md R5, 10_state.md R22). -/
abbrev Word := BitVec 32

/-- A byte of SRC, FB, the image RAM or the result buffer (20_memory.md R60). -/
abbrev Byte := BitVec 8

/-- A 16-bit register field: a frame dimension, a virtual width, a counter (00_scope.md R5). -/
abbrev Half := BitVec 16

end Sys2Proof
end

