-- ==== Sys2Proof/Syntax.lean ====
section
/-! DEFINITION. The commands of FBCONV: one constructor per row of spec/opcode_table.json. -/

namespace Sys2Proof

/-- The commands a word written to CMD can select (30_encoding.md R91). A command word carries no operand (R96), so no
constructor has an argument. -/
inductive Instr where
  | nop
  | convert
  | scan
  | frame
  deriving DecidableEq, Repr

/-- The commands that run a phase: the values of `S.op` (10_state.md R40). -/
inductive RunOp where
  | convert
  | scan
  | frame
  deriving DecidableEq, Repr, Inhabited

end Sys2Proof
end

