-- ==== Sys2Proof/Config.lean ====
section
/-! DEFINITION. What one implementation of FBCONV fixes (the parameters of 00_scope.md R5) and the free values: the
values the spec leaves open while the machine goes on. -/

namespace Sys2Proof

/-- The parameters of 00_scope.md R5 that an implementation chooses. A state carries them (log 4), so a statement about
every state is a statement about every choice. Their legal ranges are `Config.legal` of WellFormed. -/
structure Config where
  /-- `P_STEP`: the threshold increment of the search. -/
  step : Nat
  /-- `P_SRC_SIZE`: the bytes of the source memory. -/
  srcSize : Nat
  /-- `P_FB_SIZE`: the bytes of the framebuffer. -/
  fbSize : Nat
  /-- `P_SCAN_MAX_PIXELS`: the pixels the image RAM holds. -/
  scanMaxPixels : Nat
  /-- `P_RES_CAP`: the bytes the result buffer holds. -/
  resCap : Nat
  /-- `P_REG_BASE`: the host address of the register window. -/
  regBase : Nat
  deriving DecidableEq, Repr

/-- `P_TCEIL`: fixed, "not a tunable" (00_scope.md R5). -/
def Config.tceil : Nat := 255

/-- DESIGN CHOICE (log 4): the parameters of `State.reset`. 95_test_vectors.md computes its vectors with these sizes; the
spec leaves them OPEN. -/
def Config.vectors : Config :=
  { step := 20, srcSize := 2 ^ 20, fbSize := 2 ^ 20, scanMaxPixels := 76800, resCap := 256, regBase := 0 }

/-- FREE VALUE (log 7). The byte a racing SRC read returns (20_memory.md R75: "Each racing SRC read returns any byte
value"), by the index of the step's draw, the row and the byte of that row being read. -/
opaque Config.raceByte : Nat → Nat → Nat → Byte

/-- FREE VALUE (log 8). Whether the host's byte is the one that stays, where the host and the running convert phase both
wrote an FB byte (20_memory.md R75: "a draw between the two"), by the index of the step's draw and the position of the
byte in that step's write. -/
opaque Config.hostWins : Nat → Nat → Bool

/-- FREE VALUE (log 9). Whether a byte of the row being written has landed when another agent reads it (20_memory.md R67:
"an observer may see any subset of its bytes written before the transaction ends"), by the index of the step's draw and
the position of the byte in that read. -/
opaque Config.byteLanded : Nat → Nat → Bool

/-- FREE VALUE (log 6). `S.op` after the reset event: "unspecified, never read while idle" (70_reset_and_hazards.md R260),
by the index of the step's draw. -/
opaque Config.resetOp : Nat → RunOp

end Sys2Proof
end

