-- ==== Sys2Proof/WellFormed.lean ====
section
/-! DEFINITION. The checks on what is written down: the parameters, a command, a command word. -/

namespace Sys2Proof

/-- The legal ranges of the parameters (00_scope.md R5). That the register window lies at a multiple of 4 is DEDUCED
(log 12): every register is at a word-aligned offset (10_state.md R22) and only addresses that are a multiple of 4 are
answered (20_memory.md R66). -/
def Config.legal (c : Config) : Bool :=
  decide (1 ≤ c.step ∧ c.step ≤ 255) && decide (1 ≤ c.srcSize ∧ c.srcSize ≤ 2 ^ 32)
    && decide (1 ≤ c.fbSize ∧ c.fbSize ≤ 2 ^ 32) && decide (1 ≤ c.scanMaxPixels ∧ c.scanMaxPixels ≤ 2 ^ 32 - 1)
    && decide (1 ≤ c.resCap ∧ c.resCap ≤ 3840) && decide (c.regBase % 4 = 0)

/-- A command is well formed: it has no operand that could be ill formed (30_encoding.md R96). -/
def Instr.wellFormed : Instr → Bool
  | .nop => true
  | .convert => true
  | .scan => true
  | .frame => true

/-- A command word that selects a command: bits 31:4 are 0 and OPCODE is below 4 (30_encoding.md R90, R91, R93). -/
def commandWordWellFormed (v : Word) : Bool :=
  decide (v.extractLsb' 4 28 = 0#28) && decide (v.extractLsb' 0 4 < 4#4)

end Sys2Proof
end

