-- ==== Sys2Proof/Decode.lean ====
section
/-! DEFINITION. The command decoder (30_encoding.md R90 to R93, R97), total and rejecting by name, and the encoder. -/

namespace Sys2Proof

/-- Why a command word is illegal (30_encoding.md R93). Either way 42_control.md R202 applies; the name only says which
check failed. -/
inductive Reject where
  /-- bits 31:4 are not all 0 -/
  | reservedBits
  /-- OPCODE is 4 or more -/
  | reservedOpcode
  /-- not the four bytes of one word (no command is shorter or longer, 30_encoding.md R90) -/
  | notOneWord
  deriving DecidableEq, Repr

/-- OPCODE, bits 3:0 of a command word (30_encoding.md R90). -/
def opcodeField (v : Word) : BitVec 4 := v.extractLsb' 0 4

/-- RSVD, bits 31:4 of a command word (30_encoding.md R90). -/
def reservedField (v : Word) : BitVec 28 := v.extractLsb' 4 28

/-- The opcode map (30_encoding.md R91). -/
def decodeOpcode (op : BitVec 4) : Except Reject Instr :=
  if op = 0x0#4 then .ok .nop
  else if op = 0x1#4 then .ok .convert
  else if op = 0x2#4 then .ok .scan
  else if op = 0x3#4 then .ok .frame
  else .error .reservedOpcode

/-- The command a word selects, or why it is illegal (30_encoding.md R91, R93). -/
def decodeWord (v : Word) : Except Reject Instr :=
  if reservedField v ≠ 0#28 then .error .reservedBits else decodeOpcode (opcodeField v)

/-- The word whose byte lane `j` is the `j`-th byte (20_memory.md R64). -/
def wordOfBytes (b0 b1 b2 b3 : Byte) : Word := b3 ++ b2 ++ b1 ++ b0

/-- The decoder on bytes, lowest lane first: a command is exactly one word (30_encoding.md R90). -/
def decodeBytes : List Byte → Except Reject Instr
  | [b0, b1, b2, b3] => decodeWord (wordOfBytes b0 b1 b2 b3)
  | _ => .error .notOneWord

/-- The OPCODE of a command (30_encoding.md R91). -/
def opcodeOf : Instr → BitVec 4
  | .nop => 0x0#4
  | .convert => 0x1#4
  | .scan => 0x2#4
  | .frame => 0x3#4

/-- The command word of a command: OPCODE in bits 3:0, RSVD zero (30_encoding.md R90). -/
def encode (i : Instr) : Word := 0#28 ++ opcodeOf i

/-- The byte lanes of a word, lowest first (20_memory.md R64). -/
def bytesOfWord (v : Word) : List Byte :=
  [v.extractLsb' 0 8, v.extractLsb' 8 8, v.extractLsb' 16 8, v.extractLsb' 24 8]

/-- The word of a row of spec/opcode_table.json with `nbits` given bits `w`, the bits above them 0. -/
def tableWord (nbits w : Nat) : Word := BitVec.ofNat 32 (w % 2 ^ nbits)

/-- The command the decoder reads from a row's word. -/
def decodeTableWord (nbits w : Nat) : Option Instr :=
  match decodeBytes (bytesOfWord (tableWord nbits w)) with
  | .ok i => some i
  | .error _ => none

end Sys2Proof
end

