-- ==== Sys2Proof/Machine/State.lean ====
section
/-! DEFINITION. The state of FBCONV: the registers of the window, the internal state, SRC, FB and the decoder port, with
the parameters and the model's own fields; the reasons a step can stop; the state after reset. -/

namespace Sys2Proof.Machine

/-! ## Names and records of the registers (10_state.md) -/

/-- STATUS.PHASE (10_state.md R26): 0 idle, 1 scan phase, 2 convert phase; "3 is never produced". -/
inductive Phase where
  | idle
  | scan
  | convert
  deriving DecidableEq, Repr

/-- The error codes of CONV_RES.CERR and SCAN_RES.SERR (60_exceptions.md R220). Codes 7 to 15 are never produced. -/
inductive ErrCode where
  | none
  | unsupportedPixelFormat
  | unsupportedFbDepth
  | frameWiderThanDevice
  | fbRange
  | srcRange
  | scanTooLarge
  deriving DecidableEq, Repr

/-- The positions of the engine (10_state.md R40). -/
inductive Fsm where
  | idle
  | scanEntry
  | scanBin
  | scanWaitPlain
  | scanWaitOpen
  | convEntry
  | convRow
  deriving DecidableEq, Repr

/-- `S.kind` (10_state.md R40): the initial Otsu attempt, or a loop attempt. -/
inductive Kind where
  | initial
  | loop
  deriving DecidableEq, Repr

/-- CTRL (10_state.md R25). -/
structure Ctrl where
  ie : Bool
  wchk : Bool
  deriving DecidableEq, Repr

/-- STATUS (10_state.md R26). -/
structure Status where
  busy : Bool
  done : Bool
  err : Bool
  ill : Bool
  ovr : Bool
  phase : Phase
  lastop : BitVec 4
  deriving DecidableEq, Repr

/-- FRAME_SIZE (10_state.md R30). -/
structure FrameSize where
  w : Half
  h : Half
  deriving DecidableEq, Repr

/-- SRC_FMT (10_state.md R31): the raw numbers. -/
structure SrcFmt where
  channels : Byte
  depth : Byte
  deriving DecidableEq, Repr

/-- FB_GEOM (10_state.md R32). -/
structure FbGeom where
  vwidth : Half
  bpp : Byte
  deriving DecidableEq, Repr

/-- CONV_RES (10_state.md R33). -/
structure ConvRes where
  cerr : ErrCode
  rows : Half
  deriving DecidableEq, Repr

/-- SCAN_RES (10_state.md R34). -/
structure ScanRes where
  found : Bool
  opened : Bool
  serr : ErrCode
  t0 : Byte
  thit : Byte
  deriving DecidableEq, Repr

/-- SCAN_CNT (10_state.md R35). -/
structure ScanCnt where
  attempts : Half
  calls : Half
  deriving DecidableEq, Repr

/-- RES_LEN (10_state.md R36). -/
structure ResLen where
  len : Half
  trunc : Bool
  deriving DecidableEq, Repr

/-! ## Images, the decoder port, the memories -/

/-- An image of `w` by `h` bytes, row-major (00_scope.md R8, 40_scan.md R126). -/
structure Image where
  w : Nat
  h : Nat
  px : List Byte
  deriving DecidableEq, Repr

/-- The status of a decoder response (40_scan.md R126). -/
inductive DecStatus where
  | ok
  | fail
  deriving DecidableEq, Repr

/-- A decoder response (40_scan.md R126). -/
structure Response where
  status : DecStatus
  bytes : List Byte
  deriving DecidableEq, Repr

/-- A byte memory: its listed cells by strictly rising address, none of them equal to what an unlisted address reads as
(`Memory.wf` of Ops). -/
abbrev Memory := List Host.Cell

/-- An FB byte the host wrote while a convert phase runs (20_memory.md R75): the host's byte, and the block's where the
phase has written that byte too. -/
structure Contest where
  host : Byte
  block : Option Byte
  deriving DecidableEq, Repr

/-! ## The agents' steps (60_exceptions.md R240) and what they see -/

/-- One step of one agent (60_exceptions.md R240). `addr` is a host address, `a` an SRC address, `o` an FB offset. -/
inductive Event where
  /-- host: a load of `size` bytes from the bus address `addr` -/
  | regRead (addr size : Nat)
  /-- host: a store of `size` bytes of `v` to the bus address `addr` -/
  | regWrite (addr size : Nat) (v : Word)
  /-- host: a read of `n` SRC bytes -/
  | srcRead (a n : Nat)
  /-- host: a write of SRC bytes -/
  | srcWrite (a : Nat) (bytes : List Byte)
  /-- host: the barrier or cache clean that makes its SRC writes visible to the block (20_memory.md R73) -/
  | srcSync
  /-- host: a read of `n` FB bytes -/
  | fbRead (o n : Nat)
  /-- host: a write of FB bytes -/
  | fbWrite (o : Nat) (bytes : List Byte)
  /-- display controller: a read of `n` FB bytes -/
  | display (o n : Nat)
  /-- decoder: an answer -/
  | decoder (r : Response)
  /-- reset, with which bytes of a row write it falls inside have landed (70_reset_and_hazards.md R261) -/
  | reset (landed : List Bool)
  /-- block engine: its next step, if it has one -/
  | engine
  deriving DecidableEq, Repr

/-- What the host's last access returned. -/
inductive Reply where
  | none
  /-- a register word -/
  | word (w : Word)
  /-- bytes of SRC or FB -/
  | bytes (l : List Byte)
  /-- a write was taken -/
  | written
  /-- a bus-error response (20_memory.md R66) -/
  | busError
  /-- the address lies outside the register window: another slave's access -/
  | notSelected
  deriving DecidableEq, Repr

/-! ## Stops -/

/-- Why the machine stops. Both reasons are addresses the spec says do not exist (20_memory.md R60), and both are safe: the
model stops where hardware may go on (log 13, log 14). -/
inductive Fault where
  /-- Raised by a host event on SRC and by an engine step that would read SRC, when a byte lies at or beyond
  `P_SRC_SIZE`. The prechecks keep the engine from it in every state of a run. Safe. -/
  | srcOutside
  /-- Raised by a host or display event on FB and by an engine step that would write FB, when a byte lies at or beyond
  `P_FB_SIZE`. The prechecks keep the engine from it in every state of a run. Safe. -/
  | fbOutside
  deriving DecidableEq, Repr

/-- Why an instruction is refused. -/
inductive Refusal where
  /-- Raised by an arm of `exec` whose instruction has no meaning yet; no arm of this model does. Safe. -/
  | notModelled (mnemonic : String)
  deriving DecidableEq, Repr

/-! ## The state -/

/-- Everything the spec gives the machine, and the model's own fields (INVENTORY.md, State). -/
structure State where
  /-- the parameters (00_scope.md R5), constant -/
  cfg : Config
  /-- CTRL (10_state.md R25) -/
  ctrl : Ctrl
  /-- STATUS (10_state.md R26) -/
  status : Status
  /-- SRC_BASE (10_state.md R28) -/
  srcBase : Word
  /-- SRC_STRIDE (10_state.md R29) -/
  srcStride : Word
  /-- FRAME_SIZE (10_state.md R30) -/
  frameSize : FrameSize
  /-- SRC_FMT (10_state.md R31) -/
  srcFmt : SrcFmt
  /-- FB_GEOM (10_state.md R32) -/
  fbGeom : FbGeom
  /-- CONV_RES (10_state.md R33) -/
  convRes : ConvRes
  /-- SCAN_RES (10_state.md R34) -/
  scanRes : ScanRes
  /-- SCAN_CNT (10_state.md R35) -/
  scanCnt : ScanCnt
  /-- RES_LEN (10_state.md R36) -/
  resLen : ResLen
  /-- S.fsm (10_state.md R40) -/
  fsm : Fsm
  /-- S.op (10_state.md R40) -/
  op : RunOp
  /-- S.row (10_state.md R40) -/
  row : Nat
  /-- S.t (10_state.md R40) -/
  t : Nat
  /-- S.kind (10_state.md R40) -/
  kind : Kind
  /-- S.img, the image RAM (10_state.md R40, R43) -/
  img : Image
  /-- S.res, the result buffer (10_state.md R40, R43) -/
  res : List Byte
  /-- S.err (10_state.md R40) -/
  err : Bool
  /-- S.dec_req (10_state.md R40, 40_scan.md R126) -/
  decReq : Option Image
  /-- S.dec_rsp (10_state.md R40, 40_scan.md R126) -/
  decRsp : Option Response
  /-- the source memory (20_memory.md R60, R62) -/
  src : Memory
  /-- the framebuffer (20_memory.md R60, R63) -/
  fb : Memory
  /-- the model's own (log 1): the agents' coming steps, the next one first -/
  agenda : List Event
  /-- the model's own (log 7): the SRC addresses the host wrote whose value the block does not reliably read, by rising
  address, each with whether the host has since made it visible -/
  srcUnsettled : List (Nat × Bool)
  /-- the model's own (log 8): the FB bytes the host wrote while the convert phase runs, by rising offset -/
  fbRace : List (Nat × Contest)
  /-- the model's own (log 10): the index of the next free value -/
  draws : Nat
  /-- the model's own (log 17): what the host's last access returned -/
  reply : Reply
  /-- the model's own (log 17): what the display controller last read -/
  displaySeen : List Byte
  deriving DecidableEq, Repr

/-- The state right after reset (70_reset_and_hazards.md R260), with the parameters of 95_test_vectors.md (log 4), both
memories unlisted (log 5), `S.op` at the value log 6 names and no agent's step on the agenda (log 1). -/
def State.reset : State :=
  { cfg := Config.vectors
    ctrl := { ie := false, wchk := true }
    status := { busy := false, done := false, err := false, ill := false, ovr := false, phase := .idle, lastop := 0#4 }
    srcBase := 0#32
    srcStride := 0#32
    frameSize := { w := 0#16, h := 0#16 }
    srcFmt := { channels := 0#8, depth := 0#8 }
    fbGeom := { vwidth := 0#16, bpp := 0#8 }
    convRes := { cerr := .none, rows := 0#16 }
    scanRes := { found := false, opened := false, serr := .none, t0 := 0#8, thit := 0#8 }
    scanCnt := { attempts := 0#16, calls := 0#16 }
    resLen := { len := 0#16, trunc := false }
    fsm := .idle
    op := .convert
    row := 0
    t := 0
    kind := .initial
    img := { w := 0, h := 0, px := [] }
    res := []
    err := false
    decReq := none
    decRsp := none
    src := []
    fb := []
    agenda := []
    srcUnsettled := []
    fbRace := []
    draws := 0
    reply := .none
    displaySeen := [] }

end Sys2Proof.Machine
end

