-- ==== Sys2Proof/Machine/Flags.lean ====
section
/-! DEFINITION. The status flags (10_state.md R42): what sets and clears each, the interrupt line, and the codes of the
phases and of the errors. -/

namespace Sys2Proof.Machine

/-- STATUS.PHASE as a field (10_state.md R26). -/
def Phase.code : Phase → BitVec 2
  | .idle => 0#2
  | .scan => 1#2
  | .convert => 2#2

/-- The error codes (60_exceptions.md R220). -/
def ErrCode.code : ErrCode → BitVec 4
  | .none => 0#4
  | .unsupportedPixelFormat => 1#4
  | .unsupportedFbDepth => 2#4
  | .frameWiderThanDevice => 3#4
  | .fbRange => 4#4
  | .srcRange => 5#4
  | .scanTooLarge => 6#4

/-- The flags at the acceptance of a command whose first phase is `p` (30_encoding.md R95). OVR and LASTOP stay. -/
def Status.accept (p : Phase) (st : Status) : Status :=
  { st with done := false, err := false, ill := false, busy := true, phase := p }

/-- The flags at the completion of a command (60_exceptions.md R222); `e` is `S.err`. ILL, OVR and LASTOP stay. -/
def Status.complete (e : Bool) (st : Status) : Status :=
  { st with busy := false, phase := .idle, err := e, done := true }

/-- The flags of a NOP (42_control.md R200). -/
def Status.nop (st : Status) : Status :=
  { st with err := false, ill := false, done := true }

/-- The flags of an illegal command word (42_control.md R202). -/
def Status.illegal (st : Status) : Status :=
  { st with ill := true, err := true, done := true }

/-- The flag of a write the block drops because it is busy (30_encoding.md R94, 10_state.md R41). -/
def Status.overrun (st : Status) : Status :=
  { st with ovr := true }

/-- A host write of `v` to STATUS: bits 1 to 4 are write-one-to-clear, no other bit is written (10_state.md R23, R26). This
is the return from a completion (60_exceptions.md R226). -/
def Status.acknowledge (v : Word) (st : Status) : Status :=
  { st with
    done := st.done && !v.getLsbD 1
    err := st.err && !v.getLsbD 2
    ill := st.ill && !v.getLsbD 3
    ovr := st.ovr && !v.getLsbD 4 }

/-- The interrupt line, `CTRL.IE & STATUS.DONE` (60_exceptions.md R230). -/
def State.irq (s : State) : Bool := s.ctrl.ie && s.status.done

end Sys2Proof.Machine
end

