-- ==== Sys2Proof/Machine/Operands.lean ====
section
/-! DEFINITION. The operands of the phases (30_encoding.md R96): the configuration fields, zero-extended into exact
naturals, and the addresses computed from them. -/

namespace Sys2Proof.Machine

/-- `W`, FRAME_SIZE.W. -/
def State.frameW (s : State) : Nat := s.frameSize.w.toNat

/-- `H`, FRAME_SIZE.H. -/
def State.frameH (s : State) : Nat := s.frameSize.h.toNat

/-- `CH`, SRC_FMT.CHANNELS. -/
def State.channels (s : State) : Nat := s.srcFmt.channels.toNat

/-- `D`, SRC_FMT.DEPTH. -/
def State.depth (s : State) : Nat := s.srcFmt.depth.toNat

/-- `VW`, FB_GEOM.VWIDTH. -/
def State.vwidth (s : State) : Nat := s.fbGeom.vwidth.toNat

/-- `BPP`, FB_GEOM.BPP. -/
def State.bpp (s : State) : Nat := s.fbGeom.bpp.toNat

/-- `Bpp = BPP / 8`, "used only when BPP is 16 or 32" (30_encoding.md R96). -/
def State.bytesPerPixel (s : State) : Nat := s.bpp / 8

/-- The SRC address of byte 0 of pixel `(x, y)` of a frame with `ch` channels (10_state.md R24). -/
def State.pixelAddr (s : State) (ch x y : Nat) : Nat := s.srcBase.toNat + y * s.srcStride.toNat + ch * x

/-- The FB offset row `r` is written at, `r * VW * Bpp` (41_convert.md R166). -/
def State.rowOffset (s : State) (r : Nat) : Nat := r * s.vwidth * s.bytesPerPixel

/-- The bytes of one row in FB, `W * Bpp` (41_convert.md R166). -/
def State.rowLength (s : State) : Nat := s.frameW * s.bytesPerPixel

/-- The frame has a pixel: `W > 0` and `H > 0`. -/
def State.hasPixels (s : State) : Bool := decide (0 < s.frameW) && decide (0 < s.frameH)

/-- The end of the last source row, `SRC_BASE + (H-1)*SRC_STRIDE + W*CH` (40_scan.md R110, 41_convert.md R160). -/
def State.srcEnd (s : State) (ch : Nat) : Nat :=
  s.srcBase.toNat + (s.frameH - 1) * s.srcStride.toNat + s.frameW * ch

/-- The end of the last framebuffer row, `(H-1)*VW*Bpp + W*Bpp` (41_convert.md R160). -/
def State.fbEnd (s : State) : Nat :=
  (s.frameH - 1) * s.vwidth * s.bytesPerPixel + s.frameW * s.bytesPerPixel

/-- The last source byte of a non-empty frame lies in SRC (41_convert.md R162). -/
def State.srcInside (s : State) (ch : Nat) : Bool := !s.hasPixels || decide (s.srcEnd ch ≤ s.cfg.srcSize)

/-- The last framebuffer byte of a non-empty frame lies in FB (41_convert.md R162). -/
def State.fbInside (s : State) : Bool := !s.hasPixels || decide (s.fbEnd ≤ s.cfg.fbSize)

end Sys2Proof.Machine
end

