-- ==== Sys2Proof/Machine/Ops.lean ====
section
/-! DEFINITION. The named operations: byte memories, the block's reads of SRC and writes of FB with the races of
20_memory.md R75, the acceptance and completion of commands, and the raising of a phase error. -/

namespace Sys2Proof.Machine

/-! ## Lists of cells by rising key -/

/-- What is listed at a key. -/
def lookupKey {β : Type} : List (Nat × β) → Nat → Option β
  | [], _ => none
  | (k, b) :: t, a => if k = a then some b else lookupKey t a

/-- The list with `b` listed at `a`, kept in rising order. -/
def putKey {β : Type} : List (Nat × β) → Nat → β → List (Nat × β)
  | [], a, b => [(a, b)]
  | (k, c) :: t, a, b =>
    if a < k then (a, b) :: (k, c) :: t else if k = a then (a, b) :: t else (k, c) :: putKey t a b

/-- The list with nothing listed at `a`. -/
def eraseKey {β : Type} : List (Nat × β) → Nat → List (Nat × β)
  | [], _ => []
  | (k, c) :: t, a => if k = a then t else (k, c) :: eraseKey t a

/-- The keys rise strictly. -/
def keysRising {β : Type} (l : List (Nat × β)) : Bool := decide (l.Pairwise fun p q => p.1 < q.1)

/-! ## Byte memories (SRC and FB, 20_memory.md R60) -/

/-- What a byte of SRC or FB that nothing has written reads as. DESIGN CHOICE (log 5): the spec gives no power-on content. -/
def blankByte : Byte := 0#8

/-- The byte at an address. -/
def Memory.read (m : Memory) (a : Nat) : Byte := (lookupKey m a).getD blankByte

/-- The memory with byte `b` at address `a`; a blank byte is not listed. -/
def Memory.write (m : Memory) (a : Nat) (b : Byte) : Memory :=
  if b = blankByte then eraseKey m a else putKey m a b

/-- The canonical form: addresses rise strictly and no listed byte is blank. -/
def Memory.wf (m : Memory) : Bool := keysRising m && m.all fun c => decide (c.2 ≠ blankByte)

/-- The `n` bytes from address `a` (20_memory.md R62). -/
def Memory.readBytes (m : Memory) (a n : Nat) : List Byte := (List.range n).map fun i => m.read (a + i)

/-- The memory with the bytes written from address `a` on (20_memory.md R63). -/
def Memory.writeBytes (m : Memory) (a : Nat) : List Byte → Memory
  | [] => m
  | b :: bs => (m.write a b).writeBytes (a + 1) bs

/-- The `n` bytes from `a` lie in a space of `size` bytes (20_memory.md R60). -/
def insideSpace (size a n : Nat) : Bool := decide (n = 0) || decide (a + n ≤ size)

/-! ## The block's reads of SRC -/

/-- The byte the block reads at SRC address `a`, the `k`-th byte of row `y` (20_memory.md R62). An address whose host write
races with the read, or is not yet visible, reads as any byte (R75): a free value (log 7). DESIGN CHOICE (log 23): a read made
before the host's write, in the same window from CMD to DONE, is not among the racing ones; it returns the byte of then. -/
def State.blockRead (s : State) (y k a : Nat) : Byte :=
  match lookupKey s.srcUnsettled a with
  | some _ => Config.raceByte s.draws y k
  | none => s.src.read a

/-- The next free values are others. -/
def State.drawn (s : State) : State := { s with draws := s.draws + 1 }

/-- A host write of `bytes` to SRC from address `a`: until the host makes them visible, and while the command in progress
runs, the block's reads of these bytes race with it (20_memory.md R73, R75; log 7): the reads from then on (log 23). -/
def State.writeSrc (s : State) (a : Nat) : List Byte → State
  | [] => s
  | b :: bs =>
    { s with src := s.src.write a b, srcUnsettled := putKey s.srcUnsettled a false }.writeSrc (a + 1) bs

/-- The host has made its SRC writes visible to the block (20_memory.md R73). Those made while a command runs still race
with it until its end (70_reset_and_hazards.md R272). -/
def State.syncSrc (s : State) : State :=
  { s with srcUnsettled := if s.status.busy then s.srcUnsettled.map fun p => (p.1, true) else [] }

/-- The end of a command closes the windows of its races: SRC bytes made visible meanwhile are settled
(70_reset_and_hazards.md R272), and no convert phase runs (20_memory.md R75). -/
def State.closeRaces (s : State) : State :=
  { s with srcUnsettled := s.srcUnsettled.filter fun p => !p.2, fbRace := [] }

/-! ## Writes of FB by the block and by the host -/

/-- Of the host's and the block's byte, the one that stays (20_memory.md R75; log 8). -/
def State.settleByte (s : State) (k : Nat) (host block : Byte) : Byte :=
  if Config.hostWins s.draws k then host else block

/-- The byte that stays at offset `o` when the block writes `b` there, as the `k`-th byte of its write. -/
def State.blockByte (s : State) (o k : Nat) (b : Byte) : Byte :=
  match lookupKey s.fbRace o with
  | some c => s.settleByte k c.host b
  | none => b

/-- The bytes that stay when the block writes `v` from offset `o`: `v`, but where the host wrote in the same phase. -/
def State.blockBytes (s : State) (o : Nat) (v : List Byte) : List Byte :=
  v.mapIdx fun k b => s.blockByte (o + k) k b

/-- The contests with the block's bytes `v` from offset `o` entered. -/
def noteBlockBytes (race : List (Nat × Contest)) (o : Nat) (v : List Byte) : List (Nat × Contest) :=
  race.map fun p => (p.1, { p.2 with block := if o ≤ p.1 ∧ p.1 < o + v.length then v[p.1 - o]? else p.2.block })

/-- `MemWrite(FB, o, len v, v)` by the block (20_memory.md R63), with the races of R75. -/
def State.blockWrite (s : State) (o : Nat) (v : List Byte) : State :=
  { s with fb := s.fb.writeBytes o (s.blockBytes o v), fbRace := noteBlockBytes s.fbRace o v }

/-- A convert phase runs (20_memory.md R75). -/
def State.converting (s : State) : Bool := decide (s.fsm = .convEntry) || decide (s.fsm = .convRow)

/-- The running convert phase has written the FB byte at `o`: it lies in one of the rows before `S.row` (41_convert.md
R166). -/
def State.blockWrote (s : State) (o : Nat) : Bool :=
  decide (s.fsm = .convRow)
    && (List.range s.row).any fun r => decide (s.rowOffset r ≤ o) && decide (o < s.rowOffset r + s.rowLength)

/-- The block's byte at `o` in the running convert phase, where it has written one. -/
def State.blockByteAt (s : State) (o : Nat) : Option Byte :=
  match lookupKey s.fbRace o with
  | some c => c.block
  | none => if s.blockWrote o then some (s.fb.read o) else none

/-- A host write of `b` at FB offset `o`, the `k`-th byte of its write: outside a convert phase it is `b`; in one, it races
with the block's byte there (20_memory.md R75; log 8). -/
def State.hostWriteByte (s : State) (o k : Nat) (b : Byte) : State :=
  if s.converting then
    let block := s.blockByteAt o
    let stays := match block with
      | some v => s.settleByte k b v
      | none => b
    { s with fb := s.fb.write o stays, fbRace := putKey s.fbRace o { host := b, block := block } }
  else { s with fb := s.fb.write o b }

/-- A host write of bytes from FB offset `o` on; the next one is the `k`-th byte of the write. -/
def State.hostWrite (s : State) (o k : Nat) : List Byte → State
  | [] => s
  | b :: bs => (s.hostWriteByte o k b).hostWrite (o + 1) (k + 1) bs

/-! ## Acceptance, completion and errors of commands (counts fit their fields, log 16) -/

/-- CONV_RES at 0 (30_encoding.md R95). -/
def ConvRes.zero : ConvRes := { cerr := .none, rows := 0#16 }

/-- SCAN_RES at 0 (30_encoding.md R95). -/
def ScanRes.zero : ScanRes := { found := false, opened := false, serr := .none, t0 := 0#8, thit := 0#8 }

/-- SCAN_CNT at 0 (30_encoding.md R95). -/
def ScanCnt.zero : ScanCnt := { attempts := 0#16, calls := 0#16 }

/-- RES_LEN at 0 (30_encoding.md R95). -/
def ResLen.zero : ResLen := { len := 0#16, trunc := false }

/-- The command runs a scan phase (30_encoding.md R91). -/
def opScans : RunOp → Bool
  | .convert => false
  | .scan => true
  | .frame => true

/-- The command runs a convert phase (30_encoding.md R91). -/
def opConverts : RunOp → Bool
  | .convert => true
  | .scan => false
  | .frame => true

/-- `accept(op)` (30_encoding.md R95). -/
def accept (op : RunOp) (s : State) : State :=
  { s with
    status := s.status.accept (if opScans op then .scan else .convert)
    op := op
    err := false
    convRes := if opConverts op then ConvRes.zero else s.convRes
    scanRes := if opScans op then ScanRes.zero else s.scanRes
    scanCnt := if opScans op then ScanCnt.zero else s.scanCnt
    resLen := if opScans op then ResLen.zero else s.resLen
    res := if opScans op then [] else s.res
    fsm := if opScans op then .scanEntry else .convEntry }

/-- `accept_nop()` (42_control.md R200). -/
def acceptNop (s : State) : State := { s with status := s.status.nop }

/-- `accept_illegal()` (42_control.md R202). -/
def acceptIllegal (s : State) : State := { s with status := s.status.illegal }

/-- A write the block drops because it is busy: OVR and nothing else (30_encoding.md R94, 10_state.md R41). -/
def overrun (s : State) : State := { s with status := s.status.overrun }

/-- A command word with OPCODE field `op` reaches the sequencer (30_encoding.md R92): dropped while busy; otherwise LASTOP
takes the field and `accepted` is what the word does. -/
def issue (op : BitVec 4) (accepted : State → State) (s : State) : State :=
  if s.status.busy then overrun s else accepted { s with status := { s.status with lastop := op } }

/-- `complete()` (60_exceptions.md R222). -/
def complete (s : State) : State :=
  { s with status := s.status.complete s.err, fsm := .idle }.closeRaces

/-- `end_scan_phase()` (40_scan.md R130). -/
def endScanPhase (s : State) : State :=
  match s.op with
  | .frame => { s with status := { s.status with phase := .convert }, fsm := .convEntry }
  | .scan => complete s
  | .convert => complete s

/-- `end_convert_phase()` (41_convert.md R167). -/
def endConvertPhase (s : State) : State := complete s

/-- The two engines: where a phase error is recorded. -/
inductive Engine where
  | scanner
  | converter
  deriving DecidableEq, Repr

/-- `raise E` inside a phase (60_exceptions.md R221): the one way an error is taken. It records the code, marks the command
as failed and ends the phase. -/
def raise (engine : Engine) (e : ErrCode) (s : State) : State :=
  match engine with
  | .scanner => endScanPhase { s with scanRes := { s.scanRes with serr := e }, err := true }
  | .converter => endConvertPhase { s with convRes := { s.convRes with cerr := e }, err := true }

/-- The return from a completion (60_exceptions.md R226): the host's write of `v` to STATUS. -/
def acknowledge (v : Word) (s : State) : State := { s with status := s.status.acknowledge v }

/-- The reset event on the block (70_reset_and_hazards.md R260): every register and every piece of internal state but
`S.op`, which it leaves unspecified (log 6). SRC and FB are not touched (R261); the parameters are constant. -/
def resetBlock (s : State) : State :=
  { s with
    ctrl := State.reset.ctrl
    status := State.reset.status
    srcBase := State.reset.srcBase
    srcStride := State.reset.srcStride
    frameSize := State.reset.frameSize
    srcFmt := State.reset.srcFmt
    fbGeom := State.reset.fbGeom
    convRes := ConvRes.zero
    scanRes := ScanRes.zero
    scanCnt := ScanCnt.zero
    resLen := ResLen.zero
    fsm := .idle
    op := Config.resetOp s.draws
    row := 0
    t := 0
    kind := .initial
    img := State.reset.img
    res := []
    err := false
    decReq := none
    decRsp := none }.closeRaces

end Sys2Proof.Machine
end

