-- ==== Sys2Proof/Machine/Control.lean ====
section
/-! DEFINITION. The sequencing commands NOP and FRAME, and illegal command words (42_control.md). -/

namespace Sys2Proof.Machine

/-- NOP (42_control.md R200). -/
def execNop (s : State) : Host.Outcome State Fault Refusal :=
  .next (issue (opcodeOf .nop) acceptNop s)

/-- FRAME (42_control.md R201): its acceptance (30_encoding.md R92, R95). The scan phase and then the convert phase run in
the engine's steps. -/
def execFrame (s : State) : Host.Outcome State Fault Refusal :=
  .next (issue (opcodeOf .frame) (accept .frame) s)

/-- An illegal command word (42_control.md R202, 30_encoding.md R92, R93). The overrun check comes first (60_exceptions.md
R224). -/
def illegalWord (v : Word) (s : State) : State := issue (opcodeField v) acceptIllegal s

end Sys2Proof.Machine
end

