-- ==== Sys2Proof/Machine/Convert.lean ====
section
/-! DEFINITION. The CONVERT command and the convert phase (41_convert.md R160 to R171). -/

namespace Sys2Proof.Machine

/-- `pack565([B, G, R])` (41_convert.md R164): `((R >> 3) << 11) | ((G >> 2) << 5) | (B >> 3)`. -/
def pack565 (b g r : Byte) : Half :=
  ((r.setWidth 16 >>> 3) <<< 11) ||| ((g.setWidth 16 >>> 2) <<< 5) ||| (b.setWidth 16 >>> 3)

/-- `bytes565(p)`: low byte first (41_convert.md R164, 20_memory.md R64). -/
def bytes565 (p : Half) : List Byte := [p.extractLsb' 0 8, p.extractLsb' 8 8]

/-- `bytes32([B, G, R])` (41_convert.md R165). -/
def bytes32 (b g r : Byte) : List Byte := [b, g, r, 0xFF#8]

/-- The bytes of one pixel in FB: the 16-bit path for `BPP = 16`, else the 32-bit path (41_convert.md R166). -/
def pixelBytes (bpp : Nat) (b g r : Byte) : List Byte :=
  if bpp = 16 then bytes565 (pack565 b g r) else bytes32 b g r

/-- The FB bytes of source pixel `(x, r)`, with the block's reads of SRC (41_convert.md R163). -/
def State.pixelOut (s : State) (r x : Nat) : List Byte :=
  pixelBytes s.bpp (s.blockRead r (3 * x) (s.pixelAddr 3 x r)) (s.blockRead r (3 * x + 1) (s.pixelAddr 3 x r + 1))
    (s.blockRead r (3 * x + 2) (s.pixelAddr 3 x r + 2))

/-- `rowbytes16(r)` or `rowbytes32(r)` (41_convert.md R164, R165). -/
def State.rowBytes (s : State) (r : Nat) : List Byte := (List.range s.frameW).flatMap (s.pixelOut r)

/-- The source bytes of row `r` lie in SRC (20_memory.md R62). -/
def State.rowReadable (s : State) (r : Nat) : Bool := insideSpace s.cfg.srcSize (s.pixelAddr 3 0 r) (3 * s.frameW)

/-- The bytes written for row `r` lie in FB (20_memory.md R63). -/
def State.rowWritable (s : State) (r : Nat) : Bool := insideSpace s.cfg.fbSize (s.rowOffset r) (s.rowBytes r).length

/-- The first check of a convert phase that fails, in the order written (41_convert.md R160, 60_exceptions.md R224). -/
def State.convertCheck (s : State) : Option ErrCode :=
  if s.channels ≠ 3 ∨ s.depth ≠ 8 then some .unsupportedPixelFormat
  else if s.bpp ≠ 16 ∧ s.bpp ≠ 32 then some .unsupportedFbDepth
  else if s.ctrl.wchk = true ∧ s.frameW > s.vwidth then some .frameWiderThanDevice
  else if !s.fbInside then some .fbRange
  else if !s.srcInside 3 then some .srcRange
  else none

/-- Step CONV_ENTRY (41_convert.md R160). -/
def convEntry (s : State) : Host.Outcome State Fault Refusal :=
  match s.convertCheck with
  | some e => .next (raise .converter e s)
  | none =>
    if s.frameH = 0 then .next (endConvertPhase { s with row := 0 })
    else .next { s with row := 0, fsm := .convRow }

/-- The row write of step CONV_ROW (41_convert.md R166). An empty row writes nothing. -/
def State.writeRow (s : State) (r : Nat) : State := s.blockWrite (s.rowOffset r) (s.rowBytes r)

/-- ROWS counts row `r` as written (41_convert.md R166). -/
def countRow (r : Nat) (s : State) : State := { s with convRes := { s.convRes with rows := BitVec.ofNat 16 (r + 1) } }

/-- The end of step CONV_ROW: the next row follows, or the end of the phase (41_convert.md R166). -/
def finishRow (r : Nat) (s : State) : State :=
  if r + 1 < s.frameH then { s with row := r + 1 } else endConvertPhase s

/-- Step CONV_ROW (41_convert.md R166). The accesses are inside their spaces by the prechecks (20_memory.md R62, R63; log
14). -/
def convRow (s : State) : Host.Outcome State Fault Refusal :=
  if !s.rowReadable s.row then .fault .srcOutside
  else if !s.rowWritable s.row then .fault .fbOutside
  else .next (finishRow s.row (countRow s.row (s.writeRow s.row).drawn))

/-- CONVERT (41_convert.md R170): its acceptance (30_encoding.md R92, R95). The convert phase runs in the engine's steps
above. -/
def execConvert (s : State) : Host.Outcome State Fault Refusal :=
  .next (issue (opcodeOf .convert) (accept .convert) s)

/-- A reset inside a row write (70_reset_and_hazards.md R261): the bytes of the row that have landed hold their new value,
the others their old one. `landed` lists, for each byte of the row, whether it has; a byte it does not list has not. -/
def State.cutRow (s : State) (landed : List Bool) : State :=
  if s.fsm = .convRow ∧ s.rowReadable s.row ∧ s.rowWritable s.row then
    let o := s.rowOffset s.row
    let new := s.blockBytes o (s.rowBytes s.row)
    { s with fb := s.fb.writeBytes o (new.mapIdx fun k b => if landed.getD k false then b else s.fb.read (o + k)) }
  else s

/-- A reset step (70_reset_and_hazards.md R260, R261). -/
def resetStep (landed : List Bool) (s : State) : State := (resetBlock (s.cutRow landed)).drawn

/-- What another agent sees at FB offset `o`, as the `k`-th byte of its read: while a row write is under way, a byte of that
row is seen old or new (20_memory.md R67, R74; log 9); every other byte is seen as it is. -/
def State.observeFb (s : State) (o k : Nat) : Byte :=
  let start := s.rowOffset s.row
  if s.fsm = .convRow ∧ s.rowReadable s.row ∧ s.rowWritable s.row ∧ start ≤ o ∧ Config.byteLanded s.draws k = true then
    (s.blockBytes start (s.rowBytes s.row)).getD (o - start) (s.fb.read o)
  else s.fb.read o

end Sys2Proof.Machine
end

