-- ==== Sys2Proof/Machine/Image.lean ====
section
/-! DEFINITION. The image functions of the scanner: luminance, histogram, Otsu threshold, binarization, erosion, dilation
and opening (40_scan.md R111 to R117). -/

namespace Sys2Proof.Machine

/-- The `w` by `h` image of a function from pixel coordinates to bytes (00_scope.md R8). -/
def Image.ofFn (w h : Nat) (f : Nat → Nat → Byte) : Image :=
  { w := w, h := h, px := (List.range h).flatMap fun y => (List.range w).map fun x => f x y }

/-- Pixel `(x, y)`, for `x < w` and `y < h` (00_scope.md R8). -/
def Image.pixel (i : Image) (x y : Nat) : Byte := i.px.getD (y * i.w + x) 0#8

/-- The image holds `w * h` pixels. -/
def Image.wf (i : Image) : Bool := decide (i.px.length = i.w * i.h)

/-- Its values are in {0, 255} (40_scan.md R115). -/
def Image.binary (i : Image) : Bool := i.px.all fun b => decide (b = 0#8) || decide (b = 255#8)

/-- The luminance of a blue, green, red pixel, `(4899*R + 9617*G + 1868*B + 8192) >> 14` (40_scan.md R111; log 18). -/
def lumaOfBgr (b g r : Byte) : Byte :=
  BitVec.ofNat 8 ((4899 * r.toNat + 9617 * g.toNat + 1868 * b.toNat + 8192) / 2 ^ 14)

/-- `Y(x, y)` (40_scan.md R111), with the block's reads of SRC. A frame past SCAN_ENTRY has 3 channels or 1 (log 22). -/
def State.lumaAt (s : State) (x y : Nat) : Byte :=
  if s.channels = 3 then
    lumaOfBgr (s.blockRead y (3 * x) (s.pixelAddr 3 x y)) (s.blockRead y (3 * x + 1) (s.pixelAddr 3 x y + 1))
      (s.blockRead y (3 * x + 2) (s.pixelAddr 3 x y + 2))
  else s.blockRead y x (s.pixelAddr 1 x y)

/-- `luma()` (40_scan.md R111). -/
def State.luma (s : State) : Image := Image.ofFn s.frameW s.frameH s.lumaAt

/-- `hist(Y)` (40_scan.md R112): the numbers of pixels of value 0, 1, …, 255. -/
def hist (y : Image) : List Nat := (List.range 256).map fun v => y.px.countP fun b => decide (b.toNat = v)

/-- The sum of the entries up to and including entry `t`. -/
def sumUpTo : List Nat → Nat → Nat
  | [], _ => 0
  | x :: _, 0 => x
  | x :: xs, t + 1 => x + sumUpTo xs t

/-- `v * h[v]` for every `v`, counted from `v`. -/
def weighted : List Nat → Nat → List Nat
  | [], _ => []
  | x :: xs, v => v * x :: weighted xs (v + 1)

/-- `n0(t)`: the pixels of value at most `t` (40_scan.md R113). -/
def otsuN0 (h : List Nat) (t : Nat) : Nat := sumUpTo h t

/-- `s0(t)`: the sum of their values (40_scan.md R113). -/
def otsuS0 (h : List Nat) (t : Nat) : Nat := sumUpTo (weighted h 0) t

/-- `n1(t) = N - n0(t)` (40_scan.md R113). -/
def otsuN1 (h : List Nat) (t : Nat) : Nat := h.sum - otsuN0 h t

/-- `s1(t) = S - s0(t)` (40_scan.md R113). -/
def otsuS1 (h : List Nat) (t : Nat) : Nat := (weighted h 0).sum - otsuS0 h t

/-- `cand(t)`: both classes have a pixel (40_scan.md R113). -/
def otsuCand (h : List Nat) (t : Nat) : Bool := decide (0 < otsuN0 h t) && decide (0 < otsuN1 h t)

/-- The numerator of `F(t)`, `(s0(t)*n1(t) - s1(t)*n0(t))^2` (40_scan.md R113). -/
def otsuNum (h : List Nat) (t : Nat) : Nat :=
  ((otsuS0 h t * otsuN1 h t : Int) - (otsuS1 h t * otsuN0 h t : Int)).natAbs ^ 2

/-- The denominator of `F(t)`, `n0(t)*n1(t)` (40_scan.md R113). -/
def otsuDen (h : List Nat) (t : Nat) : Nat := otsuN0 h t * otsuN1 h t

/-- One more candidate of the search for the maximum: it replaces the best so far when its `F` is greater, so a tie stays
with the lesser `t` (40_scan.md R113). The exact rationals are compared by their cross products. -/
def otsuBetter (h : List Nat) (best : Option (Nat × Nat × Nat)) (t : Nat) : Option (Nat × Nat × Nat) :=
  if otsuCand h t then
    match best with
    | none => some (t, otsuNum h t, otsuDen h t)
    | some (u, num, den) =>
      if num * otsuDen h t < otsuNum h t * den then some (t, otsuNum h t, otsuDen h t) else some (u, num, den)
  else best

/-- `otsu(h)` (40_scan.md R113): the least candidate whose `F` is the maximum; 0 if there is no candidate. -/
def otsu (h : List Nat) : Nat :=
  match (List.range 256).foldl (otsuBetter h) none with
  | none => 0
  | some (t, _, _) => t

/-- `bin(Y, t)` (40_scan.md R115): 255 above the threshold, 0 at or below it. -/
def binarize (y : Image) (t : Nat) : Image :=
  { y with px := y.px.map fun b => if b.toNat > t then 255#8 else 0#8 }

/-- The coordinates within 1 of `v` on an axis of `n` positions (40_scan.md R116). -/
def near (n v : Nat) : List Nat :=
  (((List.range 3).map fun d => v + d).filter fun k => decide (1 ≤ k ∧ k ≤ n)).map fun k => k - 1

/-- The values of the pixels of `Nb(x, y)`: the 3×3 square with positions outside the image left out (40_scan.md R116). -/
def Image.around (i : Image) (x y : Nat) : List Byte :=
  (near i.h y).flatMap fun y' => (near i.w x).map fun x' => i.pixel x' y'

/-- The lesser of two bytes. -/
def byteMin (a b : Byte) : Byte := if a ≤ b then a else b

/-- The greater of two bytes. -/
def byteMax (a b : Byte) : Byte := if a ≤ b then b else a

/-- `erode(I)` (40_scan.md R116). -/
def erode (i : Image) : Image := Image.ofFn i.w i.h fun x y => (i.around x y).foldl byteMin 255#8

/-- `dilate(I)` (40_scan.md R116). -/
def dilate (i : Image) : Image := Image.ofFn i.w i.h fun x y => (i.around x y).foldl byteMax 0#8

/-- `open(I)`: dilation of the erosion (40_scan.md R117). -/
def opening (i : Image) : Image := dilate (erode i)

end Sys2Proof.Machine
end

