-- ==== Sys2Proof/Machine/Scan.lean ====
section
/-! DEFINITION. The SCAN command and the scan phase (40_scan.md R110 to R131). -/

namespace Sys2Proof.Machine

/-- The first check of a scan phase that fails, in the order written (40_scan.md R110, 60_exceptions.md R224). -/
def State.scanCheck (s : State) : Option ErrCode :=
  if s.depth ≠ 8 ∨ (s.channels ≠ 1 ∧ s.channels ≠ 3) then some .unsupportedPixelFormat
  else if s.frameW * s.frameH > s.cfg.scanMaxPixels then some .scanTooLarge
  else if !s.srcInside s.channels then some .srcRange
  else none

/-- SCAN_ENTRY past its checks: the threshold is recorded and the search starts with the initial attempt (40_scan.md
R110). -/
def startSearch (t0 : Nat) (s : State) : State :=
  { s with scanRes := { s.scanRes with t0 := BitVec.ofNat 8 t0 }, t := t0, kind := .initial, fsm := .scanBin }

/-- Step SCAN_ENTRY (40_scan.md R110). -/
def scanEntry (s : State) : Host.Outcome State Fault Refusal :=
  match s.scanCheck with
  | some e => .next (raise .scanner e s)
  | none =>
    .next (startSearch (otsu (hist s.luma)) s.drawn)

/-- `DecRequest(img)` (40_scan.md R126), with the image in the image RAM. -/
def decRequest (img : Image) (s : State) : State := { s with img := img, decReq := some img }

/-- SCAN_BIN counts the attempt and records its threshold (40_scan.md R120). -/
def countAttempt (s : State) : State :=
  { s with
    scanCnt := { s.scanCnt with attempts := s.scanCnt.attempts + 1#16 }
    scanRes := { s.scanRes with thit := BitVec.ofNat 8 s.t } }

/-- Step SCAN_BIN (40_scan.md R120). The read of SRC is inside it by the precheck (20_memory.md R62; log 14). -/
def scanBin (s : State) : Host.Outcome State Fault Refusal :=
  if s.srcInside s.channels then
    .next { decRequest (binarize s.luma s.t) (countAttempt s.drawn) with fsm := .scanWaitPlain }
  else .fault .srcOutside

/-- `found(r)` (40_scan.md R128). -/
def found (r : Response) : Bool := decide (r.status = .ok) && decide (r.bytes.length > 0)

/-- `store(r)` (40_scan.md R127). -/
def store (r : Response) (s : State) : State :=
  { s with
    res := r.bytes.take s.cfg.resCap
    resLen := { len := BitVec.ofNat 16 (min r.bytes.length s.cfg.resCap), trunc := decide (r.bytes.length > s.cfg.resCap) } }

/-- The next attempt is a loop attempt at threshold `t` (40_scan.md R123). -/
def nextAttempt (t : Nat) (s : State) : State := { s with t := t, kind := .loop, fsm := .scanBin }

/-- `next_level()` (40_scan.md R123). -/
def nextLevel (s : State) : State :=
  match s.kind with
  | .initial => if s.scanRes.t0.toNat ≥ Config.tceil then endScanPhase s else nextAttempt s.scanRes.t0.toNat s
  | .loop =>
    if s.t + s.cfg.step < Config.tceil then nextAttempt (s.t + s.cfg.step) s
    else endScanPhase { s with t := s.t + s.cfg.step }

/-- A response is consumed and counted (40_scan.md R121, R122). -/
def consume (s : State) : State :=
  { s with decRsp := none, scanCnt := { s.scanCnt with calls := s.scanCnt.calls + 1#16 } }

/-- FOUND and OPENED of a found response (40_scan.md R121, R122); `opened` says which image gave it. -/
def noteFound (opened : Bool) (s : State) : State :=
  { s with scanRes := { s.scanRes with found := true, opened := opened } }

/-- A found response is consumed and stored, and ends the scan phase (40_scan.md R121, R122). -/
def finishFound (r : Response) (opened : Bool) (s : State) : State :=
  endScanPhase (noteFound opened (store r (consume s)))

/-- Step SCAN_WAIT_PLAIN (40_scan.md R121). Without a response the block has no step: it waits (log 2). -/
def scanWaitPlain (s : State) : Host.Outcome State Fault Refusal :=
  match s.decRsp with
  | none => .next s
  | some r =>
    if found r then .next (finishFound r false s)
    else .next { decRequest (opening s.img) (consume s) with fsm := .scanWaitOpen }

/-- Step SCAN_WAIT_OPEN (40_scan.md R122). Without a response the block has no step: it waits (log 2). -/
def scanWaitOpen (s : State) : Host.Outcome State Fault Refusal :=
  match s.decRsp with
  | none => .next s
  | some r =>
    if found r then .next (finishFound r true s)
    else .next (nextLevel (consume s))

/-- SCAN (40_scan.md R131): its acceptance (30_encoding.md R92, R95). The scan phase runs in the engine's steps above. -/
def execScan (s : State) : Host.Outcome State Fault Refusal :=
  .next (issue (opcodeOf .scan) (accept .scan) s)

/-- The decoder's step (40_scan.md R126): it answers a pending request when no response is waiting. An answer to a request
that is no longer there is discarded by the port (70_reset_and_hazards.md R262). -/
def decoderAnswer (r : Response) (s : State) : State :=
  match s.decReq, s.decRsp with
  | some _, none => { s with decReq := none, decRsp := some r }
  | some _, some _ => s
  | none, _ => s

end Sys2Proof.Machine
end

