-- ==== Sys2Proof/Machine/Registers.lean ====
section
/-! DEFINITION. The register window (10_state.md R22 to R39): which register an offset names, what a read returns and what a
write does. CMD's write is in Agents, which runs the command. -/

namespace Sys2Proof.Machine

/-- What an offset of the window names (10_state.md R22). -/
inductive Reg where
  | ctrl
  | status
  | cmd
  | srcBase
  | srcStride
  | frameSize
  | srcFmt
  | fbGeom
  | convRes
  | scanRes
  | scanCnt
  | resLen
  | caps
  | scanCap
  /-- RES_DATA[k] -/
  | resData (k : Nat)
  | unassigned
  deriving DecidableEq, Repr

/-- The map of the window (10_state.md R22). -/
def regAt (off : Nat) : Reg :=
  if off = 0x000 then .ctrl
  else if off = 0x004 then .status
  else if off = 0x008 then .cmd
  else if off = 0x00C then .srcBase
  else if off = 0x010 then .srcStride
  else if off = 0x014 then .frameSize
  else if off = 0x018 then .srcFmt
  else if off = 0x01C then .fbGeom
  else if off = 0x020 then .convRes
  else if off = 0x024 then .scanRes
  else if off = 0x028 then .scanCnt
  else if off = 0x02C then .resLen
  else if off = 0x030 then .caps
  else if off = 0x034 then .scanCap
  else if 0x100 ≤ off ∧ off ≤ 0xFFC then .resData ((off - 0x100) / 4)
  else .unassigned

/-- CTRL as a word (10_state.md R25). -/
def Ctrl.word (c : Ctrl) : Word := 0#30 ++ BitVec.ofBool c.wchk ++ BitVec.ofBool c.ie

/-- STATUS as a word (10_state.md R26). -/
def Status.word (st : Status) : Word :=
  0#16 ++ st.lastop ++ 0#2 ++ st.phase.code ++ 0#3 ++ BitVec.ofBool st.ovr ++ BitVec.ofBool st.ill ++ BitVec.ofBool st.err
    ++ BitVec.ofBool st.done ++ BitVec.ofBool st.busy

/-- FRAME_SIZE as a word (10_state.md R30). -/
def FrameSize.word (f : FrameSize) : Word := f.h ++ f.w

/-- SRC_FMT as a word (10_state.md R31). -/
def SrcFmt.word (f : SrcFmt) : Word := 0#16 ++ f.depth ++ f.channels

/-- FB_GEOM as a word (10_state.md R32). -/
def FbGeom.word (g : FbGeom) : Word := 0#8 ++ g.bpp ++ g.vwidth

/-- CONV_RES as a word (10_state.md R33). -/
def ConvRes.word (r : ConvRes) : Word := r.rows ++ 0#12 ++ r.cerr.code

/-- SCAN_RES as a word (10_state.md R34). -/
def ScanRes.word (r : ScanRes) : Word :=
  0#8 ++ r.thit ++ r.t0 ++ r.serr.code ++ 0#2 ++ BitVec.ofBool r.opened ++ BitVec.ofBool r.found

/-- SCAN_CNT as a word (10_state.md R35). -/
def ScanCnt.word (c : ScanCnt) : Word := c.calls ++ c.attempts

/-- RES_LEN as a word (10_state.md R36). -/
def ResLen.word (l : ResLen) : Word := BitVec.ofBool l.trunc ++ 0#15 ++ l.len

/-- CAPS (10_state.md R37). -/
def capsWord (c : Config) : Word := BitVec.ofNat 16 c.resCap ++ BitVec.ofNat 8 Config.tceil ++ BitVec.ofNat 8 c.step

/-- SCAN_CAP (10_state.md R38). -/
def scanCapWord (c : Config) : Word := BitVec.ofNat 32 c.scanMaxPixels

/-- Result byte `i`: `S.res[i]`, and 0 from its length on (10_state.md R39). -/
def State.resByte (s : State) (i : Nat) : Byte := s.res.getD i 0#8

/-- RES_DATA[k] (10_state.md R39): byte `4k+j` in byte lane `j`; 0 from `P_RES_CAP` on. -/
def State.resWord (s : State) (k : Nat) : Word :=
  if s.cfg.resCap ≤ 4 * k then 0#32
  else wordOfBytes (s.resByte (4 * k)) (s.resByte (4 * k + 1)) (s.resByte (4 * k + 2)) (s.resByte (4 * k + 3))

/-- What a read of a register returns (10_state.md R23, R25 to R39). -/
def State.readReg (s : State) : Reg → Word
  | .ctrl => s.ctrl.word
  | .status => s.status.word
  | .cmd => 0#32
  | .srcBase => s.srcBase
  | .srcStride => s.srcStride
  | .frameSize => s.frameSize.word
  | .srcFmt => s.srcFmt.word
  | .fbGeom => s.fbGeom.word
  | .convRes => s.convRes.word
  | .scanRes => s.scanRes.word
  | .scanCnt => s.scanCnt.word
  | .resLen => s.resLen.word
  | .caps => capsWord s.cfg
  | .scanCap => scanCapWord s.cfg
  | .resData k => s.resWord k
  | .unassigned => 0#32

/-- A write to CTRL: IE always, WCHK only while not busy (10_state.md R25, R41). -/
def writeCtrl (v : Word) (s : State) : State :=
  { s with ctrl := { ie := v.getLsbD 0, wchk := if s.status.busy then s.ctrl.wchk else v.getLsbD 1 } }

/-- A write to a configuration register: ignored, with OVR set, while busy (10_state.md R41). -/
def writeConfig (written : State) (s : State) : State := if s.status.busy then overrun s else written

/-- What a write of `v` to a register other than CMD does (10_state.md R23, R25 to R39). -/
def State.writeReg (s : State) (v : Word) : Reg → State
  | .ctrl => writeCtrl v s
  | .status => acknowledge v s
  | .cmd => s
  | .srcBase => writeConfig { s with srcBase := v } s
  | .srcStride => writeConfig { s with srcStride := v } s
  | .frameSize => writeConfig { s with frameSize := { w := v.extractLsb' 0 16, h := v.extractLsb' 16 16 } } s
  | .srcFmt => writeConfig { s with srcFmt := { channels := v.extractLsb' 0 8, depth := v.extractLsb' 8 8 } } s
  | .fbGeom => writeConfig { s with fbGeom := { vwidth := v.extractLsb' 0 16, bpp := v.extractLsb' 16 8 } } s
  | .convRes => s
  | .scanRes => s
  | .scanCnt => s
  | .resLen => s
  | .caps => s
  | .scanCap => s
  | .resData _ => s
  | .unassigned => s

/-- A bus address lies in the register window (10_state.md R22). -/
def inWindow (c : Config) (addr : Nat) : Bool := decide (c.regBase ≤ addr) && decide (addr < c.regBase + 4096)

/-- An access the window answers: an aligned 32-bit word (20_memory.md R66). -/
def wordAccess (addr size : Nat) : Bool := decide (size = 4) && decide (addr % 4 = 0)

end Sys2Proof.Machine
end

