-- ==== Sys2Proof/Machine/Agents.lean ====
section
/-! DEFINITION. The steps of the agents (60_exceptions.md R240): the block engine, and each event of the agenda. -/

namespace Sys2Proof.Machine

/-- The block engine's step (60_exceptions.md R240; log 20): by `S.fsm`; while idle it has none. -/
def engineStep (s : State) : Host.Outcome State Fault Refusal :=
  match s.fsm with
  | .idle => .next s
  | .scanEntry => scanEntry s
  | .scanBin => scanBin s
  | .scanWaitPlain => scanWaitPlain s
  | .scanWaitOpen => scanWaitOpen s
  | .convEntry => convEntry s
  | .convRow => convRow s

/-- A host write of `v` to CMD (30_encoding.md R92): the command it selects, or an illegal word. -/
def commandWrite (v : Word) (s : State) : Host.Outcome State Fault Refusal :=
  match decodeWord v with
  | .ok i => exec i s
  | .error _ => .next (illegalWord v s)

/-- A host load from the bus (10_state.md R22, R23, 20_memory.md R66, R67): it changes no state of the block. -/
def hostLoad (addr size : Nat) (s : State) : State :=
  if inWindow s.cfg addr then
    if wordAccess addr size then { s with reply := .word (s.readReg (regAt (addr - s.cfg.regBase))) }
    else { s with reply := .busError }
  else { s with reply := .notSelected }

/-- A host store to the bus (10_state.md R22, R23, 20_memory.md R66). -/
def hostStore (addr size : Nat) (v : Word) (s : State) : Host.Outcome State Fault Refusal :=
  if inWindow s.cfg addr then
    if wordAccess addr size then
      match regAt (addr - s.cfg.regBase) with
      | .cmd => commandWrite v { s with reply := .written }
      | r => .next ({ s with reply := .written }.writeReg v r)
    else .next { s with reply := .busError }
  else .next { s with reply := .notSelected }

/-- What another agent sees of the `n` FB bytes from offset `o` (20_memory.md R67, R74). -/
def State.observeBytes (s : State) (o n : Nat) : List Byte := (List.range n).map fun k => s.observeFb (o + k) k

/-- One event of the agenda (60_exceptions.md R240). An access outside SRC or FB stops the machine (log 13).
The host reads its own writes of SRC (log 21). -/
def perform (e : Event) (s : State) : Host.Outcome State Fault Refusal :=
  match e with
  | .regRead addr size => .next (hostLoad addr size s)
  | .regWrite addr size v => hostStore addr size v s
  | .srcRead a n =>
    if insideSpace s.cfg.srcSize a n then .next { s with reply := .bytes (s.src.readBytes a n) } else .fault .srcOutside
  | .srcWrite a bytes =>
    if insideSpace s.cfg.srcSize a bytes.length then .next { s.writeSrc a bytes with reply := .written }
    else .fault .srcOutside
  | .srcSync => .next s.syncSrc
  | .fbRead o n =>
    if insideSpace s.cfg.fbSize o n then .next { s with reply := .bytes (s.observeBytes o n) }.drawn else .fault .fbOutside
  | .fbWrite o bytes =>
    if insideSpace s.cfg.fbSize o bytes.length then .next { s.hostWrite o 0 bytes with reply := .written }.drawn
    else .fault .fbOutside
  | .display o n =>
    if insideSpace s.cfg.fbSize o n then .next { s with displaySeen := s.observeBytes o n }.drawn else .fault .fbOutside
  | .decoder r => .next (decoderAnswer r s)
  | .reset landed => .next (resetStep landed s)
  | .engine => engineStep s

/-- One step of the whole: the agenda's next event, or, with nothing on the agenda, the engine's step (log 1, log 2). -/
def agentStep (s : State) : Host.Outcome State Fault Refusal :=
  match s.agenda with
  | [] => engineStep s
  | e :: rest => perform e { s with agenda := rest }

/-- The bus address of CMD (10_state.md R27). -/
def cmdAddr (c : Config) : Nat := c.regBase + 0x008

/-- The state in which the host's write of `v` to CMD is the next step (30_encoding.md R92; log 3). -/
def withCommand (v : Word) (s : State) : State := { s with agenda := .regWrite (cmdAddr s.cfg) 4 v :: s.agenda }

end Sys2Proof.Machine
end

