-- ==== Sys2Proof/Machine/Step.lean ====
section
/-! DEFINITION. The step of FBCONV and the placing of a command where it takes its next one. -/

namespace Sys2Proof.Machine

/-- One step of one agent (60_exceptions.md R240). -/
def step (s : State) : Host.Outcome State Fault Refusal := agentStep s

/-- The state in which the host's next step writes the table row's word to CMD (log 3): the block fetches nothing, "a
command is taken from the CMD write itself" (20_memory.md R79). -/
def State.withFetchWord (s : State) (nbits w : Nat) : State := withCommand (tableWord nbits w) s

end Sys2Proof.Machine
end

