-- ==== Sys2Proof/Safety.lean ====
section
/-! DEFINITION. What a safe run is, in the terms the statements use: the invariant of the machine, the measure of what a
command has still to do, and the commands as one function of a fixed frame (40_scan.md R131, 41_convert.md R170). -/

namespace Sys2Proof.Machine

/-! ## Positions of the engine -/

/-- The position belongs to a scan phase. -/
def Fsm.scanning : Fsm → Bool
  | .scanEntry | .scanBin | .scanWaitPlain | .scanWaitOpen => true
  | .idle | .convEntry | .convRow => false

/-- The position belongs to the search, after the scan phase's prechecks. -/
def Fsm.searching : Fsm → Bool
  | .scanBin | .scanWaitPlain | .scanWaitOpen => true
  | .idle | .scanEntry | .convEntry | .convRow => false

/-- The position waits for the decoder. -/
def Fsm.waiting : Fsm → Bool
  | .scanWaitPlain | .scanWaitOpen => true
  | .idle | .scanEntry | .scanBin | .convEntry | .convRow => false

/-- The position belongs to a convert phase. -/
def Fsm.converting : Fsm → Bool
  | .convEntry | .convRow => true
  | .idle | .scanEntry | .scanBin | .scanWaitPlain | .scanWaitOpen => false

/-- The value STATUS.PHASE has at a position (10_state.md R26). -/
def Fsm.phase (f : Fsm) : Phase := if f.scanning then .scan else if f.converting then .convert else .idle

/-! ## The search -/

/-- `1 + ceil((P_TCEIL - T0) / P_STEP)`, the most attempts of a scan phase (40_scan.md R124). -/
def attemptBound (step t0 : Nat) : Nat := 1 + (Config.tceil - t0 + step - 1) / step

/-- The thresholds of a search that finds nothing, in order (40_scan.md R131). -/
def levels (step t0 : Nat) : List Nat :=
  if t0 ≥ Config.tceil then [t0] else t0 :: (List.range (attemptBound step t0 - 1)).map fun k => t0 + k * step

/-- The attempts begun, the one SCAN_BIN is about to make included. -/
def State.attemptsBegun (s : State) : Nat := s.scanCnt.attempts.toNat + if s.fsm = .scanBin then 1 else 0

/-- Where a search stands: its threshold is that of the attempt it is making (40_scan.md R123), and each finished attempt
has taken two calls (R121, R122). -/
structure State.SearchPosition (s : State) : Prop where
  belowCeiling : s.t < Config.tceil
  threshold : (s.kind = .initial ∧ s.attemptsBegun = 1 ∧ s.t = s.scanRes.t0.toNat)
    ∨ (s.kind = .loop ∧ 2 ≤ s.attemptsBegun ∧ s.t = s.scanRes.t0.toNat + (s.attemptsBegun - 2) * s.cfg.step)
  calls : s.scanCnt.calls.toNat + (match s.fsm with | .scanWaitPlain => 2 | .scanWaitOpen => 1 | _ => 0)
    = 2 * s.scanCnt.attempts.toNat
  hit : s.fsm.waiting = true → s.scanRes.thit.toNat = s.t

/-! ## The invariant -/

/-- What holds of every state of a run. -/
structure Inv (s : State) : Prop where
  /-- the parameters are in their ranges (00_scope.md R5) -/
  legal : s.cfg.legal = true
  /-- SRC is in its canonical form and inside its space -/
  srcCanonical : s.src.wf = true
  srcInSpace : ∀ c ∈ s.src, c.1 < s.cfg.srcSize
  /-- FB is in its canonical form and inside its space -/
  fbCanonical : s.fb.wf = true
  fbInSpace : ∀ c ∈ s.fb, c.1 < s.cfg.fbSize
  /-- BUSY and PHASE say where the engine is (10_state.md R26) -/
  busy : s.status.busy = decide (s.fsm ≠ .idle)
  phase : s.status.phase = s.fsm.phase
  /-- a running command has the flags of its acceptance (30_encoding.md R95) -/
  runningFlags : s.fsm ≠ .idle → s.status.done = false ∧ s.status.err = false ∧ s.status.ill = false
  /-- the engine is in a phase of the command in progress (30_encoding.md R91) -/
  phaseOfCommand : (s.fsm.scanning = true → opScans s.op = true) ∧ (s.fsm.converting = true → opConverts s.op = true)
  /-- `S.err` says whether a phase of the command in progress raised (10_state.md R40) -/
  errors : s.fsm ≠ .idle → s.err = (opScans s.op && decide (s.scanRes.serr ≠ .none))
  noErrorYet : (s.fsm.scanning = true → s.scanRes.serr = .none) ∧ (s.fsm ≠ .idle → opConverts s.op = true → s.convRes.cerr = .none)
  /-- the decoder port is used only in the waits, where one of its slots is taken (40_scan.md R126) -/
  portQuiet : s.fsm.waiting = false → s.decReq = none ∧ s.decRsp = none
  portOpen : s.fsm.waiting = true → (s.decReq = some s.img ∧ s.decRsp = none) ∨ (s.decReq = none ∧ s.decRsp.isSome = true)
  /-- the image RAM holds a binary image that fits it (40_scan.md R115, 10_state.md R43) -/
  image : s.img.wf = true ∧ s.img.binary = true ∧ s.img.px.length ≤ s.cfg.scanMaxPixels
  imageOfFrame : s.fsm.waiting = true → s.img.w = s.frameW ∧ s.img.h = s.frameH
  /-- the result buffer fits, RES_LEN tells its length, and there is one exactly when FOUND (10_state.md R34, R36, R40) -/
  result : s.res.length ≤ s.cfg.resCap ∧ s.resLen.len.toNat = s.res.length ∧ s.scanRes.found = decide (s.res ≠ [])
    ∧ (s.resLen.trunc = true → s.res.length = s.cfg.resCap) ∧ (s.scanRes.opened = true → s.scanRes.found = true)
  /-- a running scan phase has found nothing yet -/
  nothingFound : s.fsm.scanning = true → s.scanRes.found = false ∧ s.resLen = ResLen.zero
  /-- the counts of the current or last scan phase keep their bounds (10_state.md R35, 40_scan.md R124) -/
  counts : s.scanCnt.attempts.toNat ≤ attemptBound s.cfg.step s.scanRes.t0.toNat
    ∧ s.scanCnt.calls.toNat ≤ 2 * s.scanCnt.attempts.toNat ∧ s.scanRes.t0.toNat < Config.tceil
    ∧ s.scanRes.thit.toNat < Config.tceil
  /-- `S.t` stays in its range (10_state.md R40) -/
  thresholdRange : s.t < Config.tceil + s.cfg.step
  /-- a scan phase at its entry has cleared counters (30_encoding.md R95) -/
  scanStart : s.fsm = .scanEntry → s.scanCnt = ScanCnt.zero ∧ s.scanRes = ScanRes.zero
  /-- a search runs only past its prechecks (40_scan.md R110) and stands where R123 puts it -/
  searchChecked : s.fsm.searching = true → s.scanCheck = none
  searchPosition : s.fsm.searching = true → s.SearchPosition
  /-- rows are written only past the prechecks (41_convert.md R160), one at a time (R166) -/
  rowsChecked : s.fsm = .convRow → s.convertCheck = none
  rowsInOrder : s.fsm = .convRow → s.row < s.frameH ∧ s.convRes.rows.toNat = s.row
  rowsNone : s.fsm ≠ .idle → s.fsm ≠ .convRow → opConverts s.op = true → s.convRes = ConvRes.zero
  rowRange : s.row < 2 ^ 16
  /-- the host's FB writes contend with the block's only while a convert phase runs (20_memory.md R75) -/
  raceWindow : s.fsm.converting = false → s.fbRace = []
  /-- the records of the host's writes list each byte once -/
  raceKeys : keysRising s.srcUnsettled = true ∧ keysRising s.fbRace = true

/-! ## What a command has still to do -/

/-- The attempts left, the current one included (40_scan.md R123). -/
def State.attemptsLeft (s : State) : Nat :=
  match s.kind with
  | .initial => 1 + (Config.tceil - s.scanRes.t0.toNat + s.cfg.step - 1) / s.cfg.step
  | .loop => (Config.tceil - s.t + s.cfg.step - 1) / s.cfg.step

/-- The engine steps of the convert phase that follows a scan phase. -/
def State.convertSteps (s : State) : Nat := if opConverts s.op then 2 + s.frameH else 0

/-- A bound on the engine steps until the command in progress completes (60_exceptions.md R241). -/
def State.stepsLeft (s : State) : Nat :=
  match s.fsm with
  | .idle => 0
  | .scanEntry => 2 + 3 * attemptBound s.cfg.step 0 + s.convertSteps
  | .scanBin => 1 + 3 * s.attemptsLeft + s.convertSteps
  | .scanWaitPlain => 3 * s.attemptsLeft + s.convertSteps
  | .scanWaitOpen => 3 * s.attemptsLeft - 1 + s.convertSteps
  | .convEntry => 1 + s.frameH
  | .convRow => s.frameH - s.row

/-- The engine waits for the decoder: it has no step (40_scan.md R126). -/
def State.blocked (s : State) : Bool := s.fsm.waiting && decide (s.decRsp = none)

/-! ## The commands as functions of a fixed frame -/

/-- The FB bytes of row `r` of the frame in SRC (41_convert.md R163 to R165). -/
def State.frameRow (s : State) (r : Nat) : List Byte :=
  (List.range s.frameW).flatMap fun x =>
    pixelBytes s.bpp (s.src.read (s.pixelAddr 3 x r)) (s.src.read (s.pixelAddr 3 x r + 1)) (s.src.read (s.pixelAddr 3 x r + 2))

/-- FB after the first `n` rows of the frame are written (41_convert.md R170). -/
def State.fbAfterRows (s : State) : Nat → Memory
  | 0 => s.fb
  | n + 1 => (s.fbAfterRows n).writeBytes (s.rowOffset n) (s.frameRow n)

/-- The luminance of the frame in SRC (40_scan.md R111). -/
def State.frameLuma (s : State) : Image :=
  Image.ofFn s.frameW s.frameH fun x y =>
    if s.channels = 3 then
      lumaOfBgr (s.src.read (s.pixelAddr 3 x y)) (s.src.read (s.pixelAddr 3 x y + 1)) (s.src.read (s.pixelAddr 3 x y + 2))
    else s.src.read (s.pixelAddr 1 x y)

/-- No SRC byte the host wrote is still on its way to the block: the duty of 20_memory.md R73 and
70_reset_and_hazards.md R272 is kept. -/
def State.settled (s : State) : Prop := s.srcUnsettled = [] ∧ s.fbRace = []

/-- Nothing is in progress: the engine is idle, not busy, and the decoder port is empty. -/
def State.atRest (s : State) : Prop := s.fsm = .idle ∧ s.status.busy = false ∧ s.decReq = none ∧ s.decRsp = none

/-- The steps of one attempt whose two images get the answers `a` and `b`: SCAN_BIN, then for each image the decoder's
answer and the engine's wait step (40_scan.md R120 to R122, R126). -/
def attemptEvents (p : Response × Response) : List Event :=
  [.engine, .decoder p.1, .engine, .decoder p.2, .engine]

/-- `n` steps from a state. -/
def runSteps (n : Nat) (s : State) : Host.Outcome State Fault Refusal := Host.Core.run core n s

end Sys2Proof.Machine
end

