-- ==== Sys2Proof/Certificates/Slice0/Obligations.lean ====
section
/-! DEFINITION. The statements for the provers: what the numbered rules of spec/ say of commands, engine steps, registers,
memories, races, reset and the whole machine. -/

open Sys2Proof Sys2Proof.Machine

/-! ## Commands and their words -/

/-- Every command survives its encoding: as bytes in lane order, and as the opcode table numbers its bits. -/
def Obligations.DecodeOfEncodedCommand : Prop :=
  ∀ i : Instr, i.wellFormed = true ∧ decodeBytes (bytesOfWord (encode i)) = .ok i
    ∧ decodeTableWord 32 (encode i).toNat = some i

/-- The words of the opcode table, and six illegal words (30_encoding.md R91, R93). -/
def Obligations.TableWordsDecode : Prop :=
  decodeWord 0b00000000000000000000000000000000#32 = .ok .nop
    ∧ decodeWord 0b00000000000000000000000000000001#32 = .ok .convert
    ∧ decodeWord 0b00000000000000000000000000000010#32 = .ok .scan
    ∧ decodeWord 0b00000000000000000000000000000011#32 = .ok .frame
    ∧ decodeWord 0x00000004#32 = .error .reservedOpcode ∧ decodeWord 0x0000000F#32 = .error .reservedOpcode
    ∧ decodeWord 0x00000007#32 = .error .reservedOpcode ∧ decodeWord 0x00000010#32 = .error .reservedBits
    ∧ decodeWord 0x00000102#32 = .error .reservedBits ∧ decodeWord 0x80000001#32 = .error .reservedBits

/-- The opcode map: each command is selected by its full 32-bit word and by no other, so every other word is illegal
(30_encoding.md R91). -/
def Obligations.OnlyTheFullWordSelectsACommand : Prop :=
  ∀ v : Word, (decodeWord v = .ok .nop ↔ v = 0x00000000#32) ∧ (decodeWord v = .ok .convert ↔ v = 0x00000001#32)
    ∧ (decodeWord v = .ok .scan ↔ v = 0x00000002#32) ∧ (decodeWord v = .ok .frame ↔ v = 0x00000003#32)
    ∧ (v.extractLsb' 4 28 ≠ 0#28 ∨ 4#4 ≤ v.extractLsb' 0 4 ↔ ∃ e, decodeWord v = .error e)

/-- A step performs the next event of the agenda; with none, the engine's step. A host write of a command's word to CMD, next
on the agenda, runs that command: the step is `exec` of it, with the event taken off the agenda and the host's write
acknowledged on the bus. So is the step after `withFetchWord`. That the agents' coming steps stand in an agenda, that the
engine moves when it is empty, and that a program is the host's CMD writes, is the model's form (log 1, log 2, log 3). -/
def Obligations.StepRunsTheWrittenCommand : Prop :=
  ∀ s : State,
    (∀ e rest, s.agenda = e :: rest → step s = perform e { s with agenda := rest })
    ∧ (s.agenda = [] → step s = engineStep s)
    ∧ ∀ (v : Word) (i : Instr), s.cfg.regBase % 4 = 0 → decodeWord v = .ok i →
      (∀ rest, s.agenda = .regWrite (s.cfg.regBase + 0x008) 4 v :: rest →
        step s = exec i { s with agenda := rest, reply := .written })
      ∧ step (s.withFetchWord 32 v.toNat) = exec i { s with reply := .written }

/-- The host's write of an illegal word (30_encoding.md R93) to CMD completes at once: ILL, ERR and DONE are set, LASTOP takes
its low bits, and nothing else changes; while busy it is dropped for overrun (42_control.md R202). -/
def Obligations.IllegalWordCompletesAtOnce : Prop :=
  (∀ (s : State) (v : Word), s.cfg.regBase % 4 = 0 → (v.extractLsb' 4 28 ≠ 0#28 ∨ 4#4 ≤ v.extractLsb' 0 4) →
    let write := perform (.regWrite (s.cfg.regBase + 0x008) 4 v) s
    (s.status.busy = false →
      ∃ t, write = .next t
        ∧ t = { s with
          status := { s.status with ill := true, err := true, done := true, lastop := v.extractLsb' 0 4 }, reply := .written }
        ∧ t.irq = s.ctrl.ie)
    ∧ (s.status.busy = true → write = .next { s with status := { s.status with ovr := true }, reply := .written }))
  ∧ (∃ t, perform (.regWrite 0x008 4 0x00000010#32) State.reset = .next t ∧ t.status.word = 0x0000000E#32)
  ∧ (∃ t, perform (.regWrite 0x008 4 0x00000007#32) State.reset = .next t ∧ t.status.word = 0x0000700E#32)

/-- NOP completes at once, touching DONE, ERR, ILL and LASTOP only; while busy it is dropped (42_control.md R200). -/
def Obligations.NopCompletesAtOnce : Prop :=
  (∀ s : State,
    (s.status.busy = false →
      ∃ t, exec .nop s = .next t
        ∧ t = { s with status := { s.status with err := false, ill := false, done := true, lastop := 0#4 } }
        ∧ t.irq = s.ctrl.ie)
    ∧ (s.status.busy = true → exec .nop s = .next { s with status := { s.status with ovr := true } }))
  ∧ (∃ t, exec .nop State.reset = .next t ∧ t.status.word = 0x00000002#32)

/-- Any word the host writes to CMD while busy is dropped: OVR is set and nothing else changes (30_encoding.md R94). -/
def Obligations.BusyCommandIsDropped : Prop :=
  ∀ (s : State) (v : Word), s.status.busy = true → s.cfg.regBase % 4 = 0 →
    perform (.regWrite (s.cfg.regBase + 0x008) 4 v) s
      = .next { s with status := { s.status with ovr := true }, reply := .written }

/-- The acceptance of CONVERT, SCAN and FRAME by an idle block: the whole next state (30_encoding.md R95). -/
def Obligations.AcceptanceStartsTheFirstPhase : Prop :=
  ∀ s : State, s.status.busy = false →
    exec .convert s = .next { s with
      status := { s.status with done := false, err := false, ill := false, busy := true, phase := .convert, lastop := 1#4 }
      op := .convert, err := false, convRes := { cerr := .none, rows := 0#16 }, fsm := .convEntry }
    ∧ exec .scan s = .next { s with
      status := { s.status with done := false, err := false, ill := false, busy := true, phase := .scan, lastop := 2#4 }
      op := .scan, err := false
      scanRes := { found := false, opened := false, serr := .none, t0 := 0#8, thit := 0#8 }
      scanCnt := { attempts := 0#16, calls := 0#16 }, resLen := { len := 0#16, trunc := false }, res := []
      fsm := .scanEntry }
    ∧ exec .frame s = .next { s with
      status := { s.status with done := false, err := false, ill := false, busy := true, phase := .scan, lastop := 3#4 }
      op := .frame, err := false, convRes := { cerr := .none, rows := 0#16 }
      scanRes := { found := false, opened := false, serr := .none, t0 := 0#8, thit := 0#8 }
      scanCnt := { attempts := 0#16, calls := 0#16 }, resLen := { len := 0#16, trunc := false }, res := []
      fsm := .scanEntry }

/-! ## Ends of phases and errors -/

/-- A phase that raises records its code, marks the command as failed and ends: the convert phase and the scan phase of SCAN
complete the command with ERR; the scan phase of FRAME goes on to the convert phase (60_exceptions.md R221, R222, 40_scan.md
R130). -/
def Obligations.RaiseRecordsTheCodeAndEndsThePhase : Prop :=
  ∀ (s : State) (e : ErrCode), s.settled →
    raise .converter e s = { s with
      convRes := { s.convRes with cerr := e }, err := true, fsm := .idle
      status := { s.status with busy := false, phase := .idle, err := true, done := true } }
    ∧ (s.op = .scan → raise .scanner e s = { s with
      scanRes := { s.scanRes with serr := e }, err := true, fsm := .idle
      status := { s.status with busy := false, phase := .idle, err := true, done := true } })
    ∧ (s.op = .frame → raise .scanner e s = { s with
      scanRes := { s.scanRes with serr := e }, err := true, fsm := .convEntry
      status := { s.status with phase := .convert } })

/-! ## The convert phase -/

/-- Step CONV_ENTRY makes its five checks in the order written and raises the first that fails; past them it starts at row 0,
or ends the phase of a frame with no rows (41_convert.md R160).
The engine's turn on an empty agenda is the model's choice (log 2). -/
def Obligations.ConvEntryChecksInOrder : Prop :=
  ∀ s : State, s.fsm = .convEntry → s.agenda = [] →
    let w := s.frameSize.w.toNat
    let h := s.frameSize.h.toNat
    let vw := s.fbGeom.vwidth.toNat
    let bpp := s.fbGeom.bpp.toNat
    let format := s.srcFmt.channels.toNat = 3 ∧ s.srcFmt.depth.toNat = 8
    let depth := bpp = 16 ∨ bpp = 32
    let width := ¬ (s.ctrl.wchk = true ∧ w > vw)
    let fbFits := ¬ (w > 0 ∧ h > 0 ∧ (h - 1) * vw * (bpp / 8) + w * (bpp / 8) > s.cfg.fbSize)
    let srcFits := ¬ (w > 0 ∧ h > 0 ∧ s.srcBase.toNat + (h - 1) * s.srcStride.toNat + 3 * w > s.cfg.srcSize)
    (¬ format → step s = .next (raise .converter .unsupportedPixelFormat s))
    ∧ (format → ¬ depth → step s = .next (raise .converter .unsupportedFbDepth s))
    ∧ (format → depth → ¬ width → step s = .next (raise .converter .frameWiderThanDevice s))
    ∧ (format → depth → width → ¬ fbFits → step s = .next (raise .converter .fbRange s))
    ∧ (format → depth → width → fbFits → ¬ srcFits → step s = .next (raise .converter .srcRange s))
    ∧ (format → depth → width → fbFits → srcFits → h = 0 → step s = .next (complete { s with row := 0 }))
    ∧ (format → depth → width → fbFits → srcFits → h ≠ 0 → step s = .next { s with row := 0, fsm := .convRow })

/-- Step CONV_ROW writes the bytes of row `S.row` at `row * VW * Bpp` and no other byte of FB, counts the row, and goes to the
next row or completes the command; nothing else of the state changes (41_convert.md R166, R167).
The engine's turn on an empty agenda is the model's choice (log 2). -/
def Obligations.ConvRowWritesExactlyOneRow : Prop :=
  ∀ s : State, s.fsm = .convRow → s.agenda = [] → s.settled → s.fb.wf = true → s.convertCheck = none → s.row < s.frameH →
    ∃ t, step s = .next t
      ∧ (∀ a, t.fb.read a =
          if s.rowOffset s.row ≤ a ∧ a < s.rowOffset s.row + s.frameW * s.bytesPerPixel
          then (s.frameRow s.row).getD (a - s.rowOffset s.row) 0#8 else s.fb.read a)
      ∧ t.convRes = { s.convRes with rows := BitVec.ofNat 16 (s.row + 1) }
      ∧ (s.row + 1 < s.frameH → t.row = s.row + 1 ∧ t.fsm = .convRow ∧ t.status = s.status)
      ∧ (s.row + 1 = s.frameH → t.row = s.row ∧ t.fsm = .idle
          ∧ t.status = { s.status with busy := false, phase := .idle, err := s.err, done := true })
      ∧ t = { s with fb := t.fb, convRes := t.convRes, row := t.row, fsm := t.fsm, status := t.status, draws := s.draws + 1 }

/-- The 16-bit path: the packed word has red in 15:11, green in 10:5 and blue in 4:0, each channel's most significant bits; it
is stored low byte first; a row is its pixels in order, two bytes each (41_convert.md R164). -/
def Obligations.Packed565Layout : Prop :=
  (∀ b g r : Byte,
    (pack565 b g r).toNat = ((r.toNat >>> 3) <<< 11) ||| ((g.toNat >>> 2) <<< 5) ||| (b.toNat >>> 3)
    ∧ (pack565 b g r).extractLsb' 11 5 = r.extractLsb' 3 5 ∧ (pack565 b g r).extractLsb' 5 6 = g.extractLsb' 2 6
    ∧ (pack565 b g r).extractLsb' 0 5 = b.extractLsb' 3 5)
  ∧ ∀ (s : State) (r : Nat), s.fbGeom.bpp.toNat = 16 → (s.frameRow r).length = 2 * s.frameW
    ∧ ∀ x < s.frameW,
      let p := pack565 (s.src.read (s.pixelAddr 3 x r)) (s.src.read (s.pixelAddr 3 x r + 1)) (s.src.read (s.pixelAddr 3 x r + 2))
      (s.frameRow r)[2 * x]? = some (p.extractLsb' 0 8) ∧ (s.frameRow r)[2 * x + 1]? = some (p.extractLsb' 8 8)

/-- The 32-bit path: each pixel is its blue, green and red byte in source order and then 0xFF (41_convert.md R165). -/
def Obligations.Padded32Layout : Prop :=
  ∀ (s : State) (r : Nat), s.fbGeom.bpp.toNat = 32 → (s.frameRow r).length = 4 * s.frameW
    ∧ ∀ x < s.frameW, (s.frameRow r)[4 * x]? = some (s.src.read (s.pixelAddr 3 x r))
      ∧ (s.frameRow r)[4 * x + 1]? = some (s.src.read (s.pixelAddr 3 x r + 1))
      ∧ (s.frameRow r)[4 * x + 2]? = some (s.src.read (s.pixelAddr 3 x r + 2))
      ∧ (s.frameRow r)[4 * x + 3]? = some 0xFF#8

/-- Where rows overlap, a byte of FB ends with the value of the highest-numbered row that covers it; a byte no row covers
keeps its value (20_memory.md R71, R63). -/
def Obligations.HighestCoveringRowWins : Prop :=
  ∀ (s : State) (n a : Nat), s.fb.wf = true → (s.bpp = 16 ∨ s.bpp = 32) →
    let covers := fun r => s.rowOffset r ≤ a ∧ a < s.rowOffset r + s.frameW * s.bytesPerPixel
    (∀ r < n, covers r → (∀ q < n, r < q → ¬ covers q) →
      (s.fbAfterRows n).read a = (s.frameRow r).getD (a - s.rowOffset r) 0#8)
    ∧ ((∀ r < n, ¬ covers r) → (s.fbAfterRows n).read a = s.fb.read a)

/-- CONVERT, from its CMD write to its completion, on a frame that passes the prechecks: FB becomes the frame's rows written
in order, ROWS counts them all, the status is that of a completed command, and every other field is as before, but for
`S.op`, `S.row`, `S.err` and the model's own bookkeeping (41_convert.md R170).
The engine takes every turn on an empty agenda (log 2). -/
def Obligations.ConvertWritesTheWholeFrame : Prop :=
  ∀ s : State, s.atRest → s.settled → s.agenda = [] → s.cfg.regBase % 4 = 0 → s.fb.wf = true → s.convertCheck = none →
    ∃ t, runSteps (s.frameH + 2) (s.withFetchWord 32 1) = .next t
      ∧ t.fb = s.fbAfterRows s.frameH
      ∧ t.convRes = { cerr := .none, rows := s.frameSize.h }
      ∧ t.status = { s.status with busy := false, done := true, err := false, ill := false, phase := .idle, lastop := 1#4 }
      ∧ t.fsm = .idle
      ∧ t = { s with fb := t.fb, convRes := t.convRes, status := t.status, op := .convert, row := t.row, err := false
                     fsm := .idle, draws := t.draws, reply := .written }

/-- A convert phase that raises writes no byte: two steps from the CMD write the command is complete with ERR, the first
failing check's code in CERR, ROWS 0, and FB and SRC as they were (41_convert.md R160, 60_exceptions.md R223).
The engine's turn on an empty agenda is the model's choice (log 2). -/
def Obligations.ConvertErrorWritesNothing : Prop :=
  ∀ (s : State) (e : ErrCode), s.atRest → s.settled → s.agenda = [] → s.cfg.regBase % 4 = 0 → s.convertCheck = some e →
    runSteps 2 (s.withFetchWord 32 1) = .next { s with
      convRes := { cerr := e, rows := 0#16 }
      status := { s.status with busy := false, done := true, err := true, ill := false, phase := .idle, lastop := 1#4 }
      op := .convert, err := true, fsm := .idle, reply := .written }

/-- Zero-size frames of a valid format and depth: with no rows the phase ends at its entry with ROWS 0; with rows of no pixels
it takes one step a row and ends with ROWS the height; FB is unchanged either way. An unsupported format or depth raises all
the same (41_convert.md R168).
The engine's turn on an empty agenda is the model's choice (log 2). -/
def Obligations.ZeroSizeFramesConvertNothing : Prop :=
  ∀ s : State, s.atRest → s.settled → s.agenda = [] → s.cfg.regBase % 4 = 0 → s.fb.wf = true →
    (s.frameW = 0 ∨ s.frameH = 0) →
    (s.channels = 3 ∧ s.depth = 8 ∧ (s.bpp = 16 ∨ s.bpp = 32) → (s.ctrl.wchk = false ∨ s.frameW ≤ s.vwidth) →
      ∃ t, runSteps (s.frameH + 2) (s.withFetchWord 32 1) = .next t ∧ t.fsm = .idle ∧ t.status.err = false
        ∧ t.convRes = { cerr := .none, rows := s.frameSize.h } ∧ t.fb = s.fb ∧ t.src = s.src)
    ∧ (s.channels ≠ 3 ∨ s.depth ≠ 8 →
      ∃ t, runSteps 2 (s.withFetchWord 32 1) = .next t ∧ t.convRes.cerr = .unsupportedPixelFormat ∧ t.fb = s.fb)
    ∧ (s.channels = 3 ∧ s.depth = 8 → s.bpp ≠ 16 ∧ s.bpp ≠ 32 →
      ∃ t, runSteps 2 (s.withFetchWord 32 1) = .next t ∧ t.convRes.cerr = .unsupportedFbDepth ∧ t.fb = s.fb)

/-! ## The scan phase -/

/-- `Y(x, y)` of a settled frame: the weighted sum of the three channel bytes without a wrap, or the one channel's byte; and a
grey pixel's luminance is its value (40_scan.md R111). -/
def Obligations.LumaIsTheWeightedSum : Prop :=
  (∀ (s : State) (x y : Nat), s.srcUnsettled = [] → x < s.frameW → y < s.frameH →
    let a := s.srcBase.toNat + y * s.srcStride.toNat
    (s.luma.w = s.frameW ∧ s.luma.h = s.frameH)
    ∧ (s.channels = 3 → (s.luma.pixel x y).toNat = (4899 * (s.src.read (a + 3 * x + 2)).toNat
        + 9617 * (s.src.read (a + 3 * x + 1)).toNat + 1868 * (s.src.read (a + 3 * x)).toNat + 8192) / 2 ^ 14)
    ∧ (s.channels = 1 → s.luma.pixel x y = s.src.read (a + x)))
  ∧ ∀ v : Byte, lumaOfBgr v v v = v

/-- `hist(Y)`: 256 counts; entry `v` is the number of pixels of value `v`; they sum to the number of pixels, and weighted by
their values to the sum of the pixels (40_scan.md R112). -/
def Obligations.HistogramCountsThePixels : Prop :=
  ∀ y : Image, (hist y).length = 256
    ∧ (∀ v < 256, (hist y)[v]? = some (y.px.filter fun b => decide (b.toNat = v)).length)
    ∧ (hist y).sum = y.px.length ∧ (y.wf = true → (hist y).sum = y.w * y.h)
    ∧ ∑ v ∈ Finset.range 256, v * (hist y).getD v 0 = (y.px.map fun b => b.toNat).sum

/-- `otsu(h)` is the least candidate whose between-class measure `F`, an exact rational, is the greatest; 0 if no threshold
splits the pixels (40_scan.md R113). -/
def Obligations.OtsuIsTheLeastMaximiser : Prop :=
  ∀ h : List Nat, h.length = 256 →
    let n := ∑ v ∈ Finset.range 256, h.getD v 0
    let s := ∑ v ∈ Finset.range 256, v * h.getD v 0
    let n0 := fun t => ∑ v ∈ Finset.range (t + 1), h.getD v 0
    let s0 := fun t => ∑ v ∈ Finset.range (t + 1), v * h.getD v 0
    let cand := fun t => t < 256 ∧ n0 t > 0 ∧ n - n0 t > 0
    let f : Nat → ℚ := fun t =>
      ((s0 t : ℚ) * (n - n0 t) - ((s : ℚ) - s0 t) * n0 t) ^ 2 / ((n0 t : ℚ) * ((n : ℚ) - n0 t))
    ((∀ t, ¬ cand t) → otsu h = 0)
    ∧ ((∃ t, cand t) → cand (otsu h) ∧ (∀ u, cand u → f u ≤ f (otsu h)) ∧ ∀ u < otsu h, cand u → f u < f (otsu h))

/-- The threshold of a frame stays below the ceiling, and a frame with pixels of one value, or with none, gets 0 (40_scan.md
R114). -/
def Obligations.OtsuStaysBelowTheCeiling : Prop :=
  ∀ y : Image, otsu (hist y) ≤ 254 ∧ otsu (hist y) < Config.tceil
    ∧ ((∃ v, ∀ b ∈ y.px, b = v) → otsu (hist y) = 0)

/-- `bin(Y, t)`: same size, 255 exactly where the pixel is above `t` and 0 elsewhere, and all 0 at 255 (40_scan.md R115). -/
def Obligations.BinarizeSplitsAtTheThreshold : Prop :=
  ∀ (y : Image) (t : Nat), y.wf = true →
    (binarize y t).w = y.w ∧ (binarize y t).h = y.h ∧ (binarize y t).wf = true ∧ (binarize y t).binary = true
    ∧ (∀ a b, a < y.w → b < y.h → (binarize y t).pixel a b = if (y.pixel a b).toNat > t then 255#8 else 0#8)
    ∧ ∀ c ∈ (binarize y 255).px, c = 0#8

/-- Erosion is the least and dilation the greatest value of the 3×3 neighbourhood, positions outside the image left out
(40_scan.md R116). -/
def Obligations.ErosionAndDilationAreExtremes : Prop :=
  ∀ (i : Image) (x y : Nat), x < i.w → y < i.h →
    let nb := fun p : Nat × Nat => p.1 < i.w ∧ p.2 < i.h ∧ p.1 ≤ x + 1 ∧ x ≤ p.1 + 1 ∧ p.2 ≤ y + 1 ∧ y ≤ p.2 + 1
    nb (x, y) ∧ (∀ p, nb p → ((erode i).pixel x y).toNat ≤ (i.pixel p.1 p.2).toNat)
    ∧ (∃ p, nb p ∧ (erode i).pixel x y = i.pixel p.1 p.2)
    ∧ (∀ p, nb p → (i.pixel p.1 p.2).toNat ≤ ((dilate i).pixel x y).toNat)
    ∧ ∃ p, nb p ∧ (dilate i).pixel x y = i.pixel p.1 p.2

/-- The opening is the dilation of the erosion; of a binary image it is a binary image of the same size and nowhere brighter
(40_scan.md R117). -/
def Obligations.OpeningNeverBrightens : Prop :=
  ∀ i : Image, opening i = dilate (erode i)
    ∧ (i.wf = true → i.binary = true →
      (opening i).w = i.w ∧ (opening i).h = i.h ∧ (opening i).wf = true ∧ (opening i).binary = true
      ∧ ∀ x y, x < i.w → y < i.h → ((opening i).pixel x y).toNat ≤ (i.pixel x y).toNat)

/-- Step SCAN_ENTRY makes its three checks in the order written and raises the first that fails; past them it reads the frame,
records the Otsu threshold and starts the search with the initial attempt (40_scan.md R110).
The engine's turn on an empty agenda is the model's choice (log 2). -/
def Obligations.ScanEntryChecksInOrder : Prop :=
  ∀ s : State, s.fsm = .scanEntry → s.agenda = [] →
    let w := s.frameSize.w.toNat
    let h := s.frameSize.h.toNat
    let ch := s.srcFmt.channels.toNat
    let format := s.srcFmt.depth.toNat = 8 ∧ (ch = 1 ∨ ch = 3)
    let fits := w * h ≤ s.cfg.scanMaxPixels
    let srcFits := ¬ (w > 0 ∧ h > 0 ∧ s.srcBase.toNat + (h - 1) * s.srcStride.toNat + w * ch > s.cfg.srcSize)
    (¬ format → step s = .next (raise .scanner .unsupportedPixelFormat s))
    ∧ (format → ¬ fits → step s = .next (raise .scanner .scanTooLarge s))
    ∧ (format → fits → ¬ srcFits → step s = .next (raise .scanner .srcRange s))
    ∧ (format → fits → srcFits → ∃ t0, t0 = otsu (hist s.luma) ∧ t0 < 255
      ∧ step s = .next { s with scanRes := { s.scanRes with t0 := BitVec.ofNat 8 t0 }, t := t0, kind := .initial
                                fsm := .scanBin, draws := s.draws + 1 })

/-- Step SCAN_BIN binarizes the frame at `S.t`, counts the attempt, records its threshold and presents the image to the
decoder; nothing else changes (40_scan.md R120).
The engine's turn on an empty agenda is the model's choice (log 2). -/
def Obligations.ScanBinRequestsOneDecode : Prop :=
  ∀ s : State, s.fsm = .scanBin → s.agenda = [] → s.srcUnsettled = [] → s.scanCheck = none →
    step s = .next { s with
      img := binarize s.frameLuma s.t, decReq := some (binarize s.frameLuma s.t)
      scanCnt := { s.scanCnt with attempts := s.scanCnt.attempts + 1#16 }
      scanRes := { s.scanRes with thit := BitVec.ofNat 8 s.t }
      fsm := .scanWaitPlain, draws := s.draws + 1 }

/-- Step SCAN_WAIT_PLAIN: with no response the block waits; a found response is stored and ends the phase with OPENED 0; any
other response leads to a request with the opened image (40_scan.md R121, R127, R130).
That a block without a response stays as it is when it is given a turn is the model's choice (log 2). -/
def Obligations.PlainAnswerEndsOrOpens : Prop :=
  ∀ s : State, s.fsm = .scanWaitPlain → s.agenda = [] → s.settled →
    (s.decRsp = none → step s = .next s)
    ∧ ∀ r, s.decRsp = some r →
      let cnt : ScanCnt := { s.scanCnt with calls := s.scanCnt.calls + 1#16 }
      let len : ResLen := { len := BitVec.ofNat 16 (min r.bytes.length s.cfg.resCap)
                            trunc := decide (r.bytes.length > s.cfg.resCap) }
      let hit : State := { s with
        decRsp := none, scanCnt := cnt, res := r.bytes.take s.cfg.resCap, resLen := len
        scanRes := { s.scanRes with found := true, opened := false } }
      (r.status = .ok ∧ r.bytes ≠ [] →
        (s.op = .scan → step s = .next { hit with
          fsm := .idle, status := { s.status with busy := false, phase := .idle, err := s.err, done := true } })
        ∧ (s.op = .frame → step s = .next { hit with fsm := .convEntry, status := { s.status with phase := .convert } }))
      ∧ (¬ (r.status = .ok ∧ r.bytes ≠ []) → step s = .next { s with
        decRsp := none, scanCnt := cnt, img := opening s.img, decReq := some (opening s.img), fsm := .scanWaitOpen })

/-- Step SCAN_WAIT_OPEN: with no response the block waits; a found response is stored and ends the phase with OPENED 1; any
other response leads to the next threshold, or ends the search (40_scan.md R122, R123, R130).
That a block without a response stays as it is when it is given a turn is the model's choice (log 2). -/
def Obligations.OpenedAnswerEndsOrGoesOn : Prop :=
  ∀ s : State, s.fsm = .scanWaitOpen → s.agenda = [] → s.settled →
    (s.decRsp = none → step s = .next s)
    ∧ ∀ r, s.decRsp = some r →
      let cnt : ScanCnt := { s.scanCnt with calls := s.scanCnt.calls + 1#16 }
      let len : ResLen := { len := BitVec.ofNat 16 (min r.bytes.length s.cfg.resCap)
                            trunc := decide (r.bytes.length > s.cfg.resCap) }
      let hit : State := { s with
        decRsp := none, scanCnt := cnt, res := r.bytes.take s.cfg.resCap, resLen := len
        scanRes := { s.scanRes with found := true, opened := true } }
      let miss : State := { s with decRsp := none, scanCnt := cnt }
      let ended := fun u : State =>
        (s.op = .scan → step s = .next { u with
          fsm := .idle, status := { s.status with busy := false, phase := .idle, err := s.err, done := true } })
        ∧ (s.op = .frame → step s = .next { u with fsm := .convEntry, status := { s.status with phase := .convert } })
      (r.status = .ok ∧ r.bytes ≠ [] → ended hit)
      ∧ (¬ (r.status = .ok ∧ r.bytes ≠ []) →
        (s.kind = .initial → s.scanRes.t0.toNat < 255 →
          step s = .next { miss with t := s.scanRes.t0.toNat, kind := .loop, fsm := .scanBin })
        ∧ (s.kind = .initial → 255 ≤ s.scanRes.t0.toNat → ended miss)
        ∧ (s.kind = .loop → s.t + s.cfg.step < 255 →
          step s = .next { miss with t := s.t + s.cfg.step, kind := .loop, fsm := .scanBin })
        ∧ (s.kind = .loop → 255 ≤ s.t + s.cfg.step → ended { miss with t := s.t + s.cfg.step }))

/-- A response counts as found exactly when its status is OK and it has a byte; one that does not is never an error of the
block, in either wait (40_scan.md R128). -/
def Obligations.NotFoundIsNeverAnError : Prop :=
  (∀ r : Response, found r = true ↔ r.status = .ok ∧ r.bytes.length > 0)
  ∧ ∀ (s : State) (r : Response), s.fsm.waiting = true → s.decRsp = some r → ¬ (r.status = .ok ∧ r.bytes.length > 0) →
    ∃ t, engineStep s = .next t ∧ t.err = s.err ∧ t.scanRes.serr = s.scanRes.serr ∧ t.convRes = s.convRes
      ∧ t.scanRes.found = s.scanRes.found ∧ t.res = s.res ∧ t.resLen = s.resLen

/-- Storing a result keeps its first `P_RES_CAP` bytes, tells their number, and tells whether some were cut (40_scan.md
R127). -/
def Obligations.StoredResultIsTheCappedPrefix : Prop :=
  ∀ (s : State) (r : Response), s.cfg.legal = true →
    (∀ i, (store r s).res[i]? = if i < s.cfg.resCap then r.bytes[i]? else none)
    ∧ (store r s).resLen.len.toNat = min r.bytes.length s.cfg.resCap
    ∧ (store r s).res.length = min r.bytes.length s.cfg.resCap
    ∧ ((store r s).resLen.trunc = true ↔ r.bytes.length > s.cfg.resCap)

/-- The decoder's step answers a pending request and frees its slot, whatever the answer; with no request pending, or with a
response waiting, an answer is discarded. While the decoder does not answer, the block has no step; reset ends the wait, and
an answer after it is discarded (40_scan.md R126, 70_reset_and_hazards.md R262). That an answer with no request is an event that does nothing is the model's form of a step
the decoder does not have (log 11); that a waiting block given a turn stays as it is, is the model's choice (log 2). -/
def Obligations.DecoderAnswersOnlyAPendingRequest : Prop :=
  ∀ (s : State) (r : Response),
    (∀ img, s.decReq = some img → s.decRsp = none →
      perform (.decoder r) s = .next { s with decReq := none, decRsp := some r })
    ∧ (s.decReq = none ∨ s.decRsp ≠ none → perform (.decoder r) s = .next s)
    ∧ (s.fsm.waiting = true → s.decRsp = none → engineStep s = .next s)
    ∧ (∀ landed, ∃ t, perform (.reset landed) s = .next t ∧ t.fsm = .idle ∧ t.status.busy = false
        ∧ t.decReq = none ∧ t.decRsp = none ∧ perform (.decoder r) t = .next t)

/-- SCAN, from its CMD write, on a frame that passes the prechecks, with a decoder whose answers find nothing: as many
attempts as there are thresholds, `1 + ceil((255 - T0) / P_STEP)` of them with two calls each, then completion, not found,
with THIT the last threshold; FB, SRC and the configuration are as before (40_scan.md R124, R131). The agenda gives the
decoder's answers and the engine's turns (log 1). -/
def Obligations.SearchThatFindsNothing : Prop :=
  ∀ (s : State) (answers : List (Response × Response)),
    s.atRest → s.settled → s.agenda = [] → s.cfg.legal = true → s.scanCheck = none →
    (∀ p ∈ answers, found p.1 = false ∧ found p.2 = false) →
    let t0 := otsu (hist s.frameLuma)
    answers.length = attemptBound s.cfg.step t0 →
    let start := { s with agenda := .engine :: answers.flatMap attemptEvents }.withFetchWord 32 2
    ∃ t, runSteps start.agenda.length start = .next t ∧ t.agenda = []
      ∧ t.fsm = .idle
      ∧ t.status = { s.status with busy := false, done := true, err := false, ill := false, phase := .idle, lastop := 2#4 }
      ∧ t.scanRes = { found := false, opened := false, serr := .none, t0 := BitVec.ofNat 8 t0
                      thit := BitVec.ofNat 8 ((levels s.cfg.step t0).getLast?.getD 0) }
      ∧ t.scanCnt.attempts.toNat = 1 + (255 - t0 + s.cfg.step - 1) / s.cfg.step
      ∧ t.scanCnt.calls.toNat = 2 * t.scanCnt.attempts.toNat
      ∧ t.res = [] ∧ t.resLen = { len := 0#16, trunc := false }
      ∧ t.fb = s.fb ∧ t.src = s.src ∧ t.convRes = s.convRes ∧ t.cfg = s.cfg ∧ t.ctrl = s.ctrl ∧ t.srcBase = s.srcBase
      ∧ t.srcStride = s.srcStride ∧ t.frameSize = s.frameSize ∧ t.srcFmt = s.srcFmt ∧ t.fbGeom = s.fbGeom

/-- The first found answer ends the search: after `answers.length` attempts that found nothing, an answer found on the plain
or on the opened image of the next attempt completes SCAN, with that attempt's threshold in THIT, the calls and attempts made
until then, and the answer's bytes as the result; no further request is made (40_scan.md R125, R131).
The agenda gives the decoder's answers and the engine's turns (log 1). -/
def Obligations.FirstMatchEndsTheSearch : Prop :=
  ∀ (s : State) (answers : List (Response × Response)) (plain r : Response) (opened : Bool),
    s.atRest → s.settled → s.agenda = [] → s.cfg.legal = true → s.scanCheck = none →
    (∀ p ∈ answers, found p.1 = false ∧ found p.2 = false) → found plain = false → found r = true →
    let t0 := otsu (hist s.frameLuma)
    answers.length < attemptBound s.cfg.step t0 →
    let last := if opened then [.engine, .decoder plain, .engine, .decoder r, .engine] else [.engine, .decoder r, .engine]
    let start := { s with agenda := .engine :: (answers.flatMap attemptEvents ++ last) }.withFetchWord 32 2
    ∃ t, runSteps start.agenda.length start = .next t ∧ t.agenda = []
      ∧ t.fsm = .idle ∧ t.decReq = none ∧ t.decRsp = none
      ∧ t.status = { s.status with busy := false, done := true, err := false, ill := false, phase := .idle, lastop := 2#4 }
      ∧ t.scanRes = { found := true, opened := opened, serr := .none, t0 := BitVec.ofNat 8 t0
                      thit := BitVec.ofNat 8 ((levels s.cfg.step t0).getD answers.length 0) }
      ∧ t.scanCnt.attempts.toNat = answers.length + 1
      ∧ t.scanCnt.calls.toNat = 2 * answers.length + (if opened then 2 else 1)
      ∧ t.res = r.bytes.take s.cfg.resCap ∧ t.resLen.len.toNat = min r.bytes.length s.cfg.resCap
      ∧ t.fb = s.fb ∧ t.src = s.src ∧ t.convRes = s.convRes

/-- A scan phase that raises makes no decode call: two steps from the CMD write of SCAN the command is complete with ERR and
the first failing check's code in SERR, and every other field is that of the acceptance (40_scan.md R110, 60_exceptions.md
R223).
The engine's turn on an empty agenda is the model's choice (log 2). -/
def Obligations.ScanErrorMakesNoCall : Prop :=
  ∀ (s : State) (e : ErrCode), s.atRest → s.settled → s.agenda = [] → s.cfg.regBase % 4 = 0 → s.scanCheck = some e →
    runSteps 2 (s.withFetchWord 32 2) = .next { s with
      scanRes := { found := false, opened := false, serr := e, t0 := 0#8, thit := 0#8 }
      scanCnt := { attempts := 0#16, calls := 0#16 }, resLen := { len := 0#16, trunc := false }, res := []
      status := { s.status with busy := false, done := true, err := true, ill := false, phase := .idle, lastop := 2#4 }
      op := .scan, err := true, fsm := .idle, reply := .written }

/-! ## FRAME -/

/-- FRAME with a scan phase that finds at its first call: the scan's result is there, the convert phase has written the whole
frame, and the command is complete without an error (42_control.md R201).
The agenda gives the decoder's answer and the engine's turns until then (log 1), and the engine takes the later ones (log 2). -/
def Obligations.FrameScansThenConverts : Prop :=
  ∀ (s : State) (r : Response), s.atRest → s.settled → s.agenda = [] → s.cfg.legal = true → s.fb.wf = true →
    s.scanCheck = none → s.convertCheck = none → found r = true →
    let start := { s with agenda := [.engine, .engine, .decoder r, .engine] }.withFetchWord 32 3
    ∃ t, runSteps (5 + (s.frameH + 1)) start = .next t
      ∧ t.fsm = .idle
      ∧ t.status = { s.status with busy := false, done := true, err := false, ill := false, phase := .idle, lastop := 3#4 }
      ∧ t.fb = s.fbAfterRows s.frameH ∧ t.convRes = { cerr := .none, rows := s.frameSize.h }
      ∧ t.scanRes.found = true ∧ t.scanRes.opened = false ∧ t.scanRes.serr = .none
      ∧ t.scanCnt = { attempts := 1#16, calls := 1#16 } ∧ t.res = r.bytes.take s.cfg.resCap ∧ t.src = s.src

/-- FRAME converts whatever the scan phase's outcome: after a scan phase that raises, the convert phase runs all the same, each
phase records its own code, and ERR is set (42_control.md R201, 60_exceptions.md R224).
The engine's turn on an empty agenda is the model's choice (log 2). -/
def Obligations.FrameConvertsAfterAScanError : Prop :=
  ∀ (s : State) (e : ErrCode), s.atRest → s.settled → s.agenda = [] → s.cfg.legal = true → s.fb.wf = true →
    s.scanCheck = some e →
    (s.convertCheck = none →
      ∃ t, runSteps (s.frameH + 3) (s.withFetchWord 32 3) = .next t ∧ t.fsm = .idle ∧ t.scanRes.serr = e
        ∧ t.convRes = { cerr := .none, rows := s.frameSize.h } ∧ t.fb = s.fbAfterRows s.frameH ∧ t.status.err = true
        ∧ t.status.done = true ∧ t.scanCnt = { attempts := 0#16, calls := 0#16 } ∧ t.src = s.src)
    ∧ ∀ e', s.convertCheck = some e' →
      ∃ t, runSteps 3 (s.withFetchWord 32 3) = .next t ∧ t.fsm = .idle ∧ t.scanRes.serr = e ∧ t.convRes.cerr = e'
        ∧ t.fb = s.fb ∧ t.status.err = true ∧ t.status.done = true ∧ t.src = s.src

/-! ## The register window -/

/-- A bus read of each register that is not a result byte, at its offset in the map, returns a word with each field in its
bits and 0 in the reserved bits (10_state.md R22, R25 to R38), with the codes of the phases (R26) and of the errors
(60_exceptions.md R220). CMD reads 0. -/
def Obligations.RegisterWordsHoldTheirFields : Prop :=
  (Phase.idle.code = 0#2 ∧ Phase.scan.code = 1#2 ∧ Phase.convert.code = 2#2)
  ∧ (ErrCode.none.code = 0#4 ∧ ErrCode.unsupportedPixelFormat.code = 1#4 ∧ ErrCode.unsupportedFbDepth.code = 2#4
    ∧ ErrCode.frameWiderThanDevice.code = 3#4 ∧ ErrCode.fbRange.code = 4#4 ∧ ErrCode.srcRange.code = 5#4
    ∧ ErrCode.scanTooLarge.code = 6#4)
  ∧ ∀ s : State, s.cfg.regBase % 4 = 0 →
    let reads := fun (off : Nat) (w : Word) =>
      perform (.regRead (s.cfg.regBase + off) 4) s = .next { s with reply := .word w }
    (∃ w, reads 0x000 w
      ∧ w.getLsbD 0 = s.ctrl.ie ∧ w.getLsbD 1 = s.ctrl.wchk ∧ w.extractLsb' 2 30 = 0#30)
    ∧ (∃ w, reads 0x004 w
      ∧ w.getLsbD 0 = s.status.busy ∧ w.getLsbD 1 = s.status.done ∧ w.getLsbD 2 = s.status.err ∧ w.getLsbD 3 = s.status.ill
      ∧ w.getLsbD 4 = s.status.ovr ∧ w.extractLsb' 5 3 = 0#3 ∧ w.extractLsb' 8 2 = s.status.phase.code
      ∧ w.extractLsb' 10 2 = 0#2 ∧ w.extractLsb' 12 4 = s.status.lastop ∧ w.extractLsb' 16 16 = 0#16)
    ∧ reads 0x008 0#32 ∧ reads 0x00C s.srcBase ∧ reads 0x010 s.srcStride
    ∧ (∃ w, reads 0x014 w ∧ w.extractLsb' 0 16 = s.frameSize.w ∧ w.extractLsb' 16 16 = s.frameSize.h)
    ∧ (∃ w, reads 0x018 w
      ∧ w.extractLsb' 0 8 = s.srcFmt.channels ∧ w.extractLsb' 8 8 = s.srcFmt.depth ∧ w.extractLsb' 16 16 = 0#16)
    ∧ (∃ w, reads 0x01C w
      ∧ w.extractLsb' 0 16 = s.fbGeom.vwidth ∧ w.extractLsb' 16 8 = s.fbGeom.bpp ∧ w.extractLsb' 24 8 = 0#8)
    ∧ (∃ w, reads 0x020 w
      ∧ w.extractLsb' 0 4 = s.convRes.cerr.code ∧ w.extractLsb' 4 12 = 0#12 ∧ w.extractLsb' 16 16 = s.convRes.rows)
    ∧ (∃ w, reads 0x024 w
      ∧ w.getLsbD 0 = s.scanRes.found ∧ w.getLsbD 1 = s.scanRes.opened ∧ w.extractLsb' 2 2 = 0#2
      ∧ w.extractLsb' 4 4 = s.scanRes.serr.code ∧ w.extractLsb' 8 8 = s.scanRes.t0 ∧ w.extractLsb' 16 8 = s.scanRes.thit
      ∧ w.extractLsb' 24 8 = 0#8)
    ∧ (∃ w, reads 0x028 w ∧ w.extractLsb' 0 16 = s.scanCnt.attempts ∧ w.extractLsb' 16 16 = s.scanCnt.calls)
    ∧ (∃ w, reads 0x02C w
      ∧ w.extractLsb' 0 16 = s.resLen.len ∧ w.extractLsb' 16 15 = 0#15 ∧ w.getLsbD 31 = s.resLen.trunc)
    ∧ (∃ w, reads 0x030 w ∧ w.extractLsb' 0 8 = BitVec.ofNat 8 s.cfg.step ∧ w.extractLsb' 8 8 = 255#8
      ∧ w.extractLsb' 16 16 = BitVec.ofNat 16 s.cfg.resCap)
    ∧ reads 0x034 (BitVec.ofNat 32 s.cfg.scanMaxPixels)

/-- A write to CTRL or to a configuration register of an idle block sets the fields of that register from their bits and
changes nothing else; the word is then read back without its reserved bits (10_state.md R23, R25, R28 to R32). -/
def Obligations.IdleWriteIsReadBack : Prop :=
  ∀ (s : State) (v : Word), s.status.busy = false → s.cfg.regBase % 4 = 0 →
    let writes := fun (off : Nat) (t : State) => perform (.regWrite (s.cfg.regBase + off) 4 v) s = .next t
    writes 0x000 { s with ctrl := { ie := v.getLsbD 0, wchk := v.getLsbD 1 }, reply := .written }
    ∧ writes 0x00C { s with srcBase := v, reply := .written }
    ∧ writes 0x010 { s with srcStride := v, reply := .written }
    ∧ writes 0x014 { s with frameSize := { w := v.extractLsb' 0 16, h := v.extractLsb' 16 16 }, reply := .written }
    ∧ writes 0x018 { s with srcFmt := { channels := v.extractLsb' 0 8, depth := v.extractLsb' 8 8 }, reply := .written }
    ∧ writes 0x01C { s with fbGeom := { vwidth := v.extractLsb' 0 16, bpp := v.extractLsb' 16 8 }, reply := .written }
    ∧ ∀ (off : Nat) (mask : Word),
      (off, mask) ∈ [(0x000, 0x00000003#32), (0x00C, 0xFFFFFFFF#32), (0x010, 0xFFFFFFFF#32), (0x014, 0xFFFFFFFF#32),
        (0x018, 0x0000FFFF#32), (0x01C, 0x00FFFFFF#32)] →
      ∃ t, writes off t ∧ perform (.regRead (t.cfg.regBase + off) 4) t = .next { t with reply := .word (v &&& mask) }

/-- While busy, a write to one of the five configuration registers changes nothing but OVR, and a write to CTRL updates IE
only; so no step of any agent but reset changes a configuration value a phase reads while a command runs (10_state.md R41). -/
def Obligations.BusyConfigurationWritesAreIgnored : Prop :=
  ∀ s : State, s.status.busy = true →
    (∀ v : Word, s.cfg.regBase % 4 = 0 →
      (∀ off ∈ [0x00C, 0x010, 0x014, 0x018, 0x01C], perform (.regWrite (s.cfg.regBase + off) 4 v) s =
        .next { s with status := { s.status with ovr := true }, reply := .written })
      ∧ perform (.regWrite s.cfg.regBase 4 v) s =
        .next { s with ctrl := { ie := v.getLsbD 0, wchk := s.ctrl.wchk }, reply := .written })
    ∧ ∀ t, step s = .next t → (∀ landed rest, s.agenda ≠ .reset landed :: rest) →
      t.srcBase = s.srcBase ∧ t.srcStride = s.srcStride ∧ t.frameSize = s.frameSize ∧ t.srcFmt = s.srcFmt
      ∧ t.fbGeom = s.fbGeom ∧ t.ctrl.wchk = s.ctrl.wchk ∧ t.cfg = s.cfg

/-- A write to STATUS clears, of DONE, ERR, ILL and OVR, exactly those whose bit is 1 in it, and changes nothing else
(10_state.md R26). -/
def Obligations.StatusWriteClearsTheOnes : Prop :=
  ∀ (s : State) (v : Word), s.cfg.regBase % 4 = 0 →
    ∃ t, perform (.regWrite (s.cfg.regBase + 0x004) 4 v) s = .next t
      ∧ t.status.done = (if v.getLsbD 1 then false else s.status.done)
      ∧ t.status.err = (if v.getLsbD 2 then false else s.status.err)
      ∧ t.status.ill = (if v.getLsbD 3 then false else s.status.ill)
      ∧ t.status.ovr = (if v.getLsbD 4 then false else s.status.ovr)
      ∧ t.status.busy = s.status.busy ∧ t.status.phase = s.status.phase ∧ t.status.lastop = s.status.lastop
      ∧ t = { s with status := t.status, reply := .written }

/-- An access to the window of another width than 32 bits, or at an address that is not a multiple of 4, gets a bus error and
changes no state of the block (20_memory.md R66). -/
def Obligations.NarrowOrMisalignedAccessIsABusError : Prop :=
  ∀ (s : State) (addr size : Nat) (v : Word),
    s.cfg.regBase ≤ addr → addr < s.cfg.regBase + 4096 → (size ≠ 4 ∨ addr % 4 ≠ 0) →
    perform (.regRead addr size) s = .next { s with reply := .busError }
    ∧ perform (.regWrite addr size v) s = .next { s with reply := .busError }

/-- A register read changes nothing but what the host has read, and a write to a read-only register or to an unassigned
offset changes nothing; a read of an unassigned offset returns 0 (10_state.md R23, 20_memory.md R67). -/
def Obligations.ReadsAndReadOnlyWritesHaveNoEffect : Prop :=
  ∀ (s : State) (off : Nat) (v : Word), off < 4096 → off % 4 = 0 → s.cfg.regBase % 4 = 0 →
    (∃ w, perform (.regRead (s.cfg.regBase + off) 4) s = .next { s with reply := .word w }
      ∧ (0x038 ≤ off → off ≤ 0x0FC → w = 0#32))
    ∧ (0x020 ≤ off → perform (.regWrite (s.cfg.regBase + off) 4 v) s = .next { s with reply := .written })

/-- Byte lane `j` of RES_DATA[k] is result byte `4k+j`, or 0 from the result's length on; a word at or beyond `P_RES_CAP` is 0
(10_state.md R39). -/
def Obligations.ResultBytesInTheirLanes : Prop :=
  ∀ (s : State) (k j : Nat), k < 960 → j < 4 → s.res.length ≤ s.cfg.resCap → s.cfg.regBase % 4 = 0 →
    ∃ w, perform (.regRead (s.cfg.regBase + 0x100 + 4 * k) 4) s = .next { s with reply := .word w }
      ∧ w.extractLsb' (8 * j) 8 = (if 4 * k + j < s.res.length then s.res.getD (4 * k + j) 0#8 else 0#8)
      ∧ (s.cfg.resCap ≤ 4 * k → w = 0#32)

/-- CAPS holds the step, the ceiling and the result capacity, and SCAN_CAP the image capacity (10_state.md R37, R38). -/
def Obligations.CapsTellTheParameters : Prop :=
  ∀ s : State, s.cfg.legal = true →
    ((s.readReg .caps).extractLsb' 0 8).toNat = s.cfg.step ∧ ((s.readReg .caps).extractLsb' 8 8).toNat = 255
    ∧ ((s.readReg .caps).extractLsb' 16 16).toNat = s.cfg.resCap ∧ (s.readReg .scanCap).toNat = s.cfg.scanMaxPixels

/-- The interrupt line is IE and DONE. With IE set it rises at the completion of every command, NOP and illegal words included;
it is low from an acceptance on, rises at once when IE is set with DONE set, and falls when DONE is acknowledged; OVR does not
move it (60_exceptions.md R230). -/
def Obligations.InterruptFollowsEnableAndDone : Prop :=
  ∀ s : State, (s.irq = true ↔ s.ctrl.ie = true ∧ s.status.done = true)
    ∧ (complete s).irq = s.ctrl.ie ∧ (acceptNop s).irq = s.ctrl.ie ∧ (acceptIllegal s).irq = s.ctrl.ie
    ∧ (∀ op, (accept op s).irq = false)
    ∧ (∀ v : Word, v.getLsbD 1 = true → (acknowledge v s).irq = false)
    ∧ (∀ v : Word, v.getLsbD 0 = true → (writeCtrl v s).irq = s.status.done)
    ∧ (overrun s).irq = s.irq

/-! ## Reset -/

/-- The reset event, from any state: every register and every piece of internal state is at its reset value, `S.op` alone
being free (70_reset_and_hazards.md R260). -/
def Obligations.ResetSetsEveryRegister : Prop :=
  ∀ (s : State) (landed : List Bool), ∃ t, perform (.reset landed) s = .next t
    ∧ t.readReg .ctrl = 0x00000002#32 ∧ t.readReg .status = 0#32 ∧ t.readReg .srcBase = 0#32 ∧ t.readReg .srcStride = 0#32
    ∧ t.readReg .frameSize = 0#32 ∧ t.readReg .srcFmt = 0#32 ∧ t.readReg .fbGeom = 0#32 ∧ t.readReg .convRes = 0#32
    ∧ t.readReg .scanRes = 0#32 ∧ t.readReg .scanCnt = 0#32 ∧ t.readReg .resLen = 0#32 ∧ (∀ k, t.readReg (.resData k) = 0#32)
    ∧ t.readReg .caps = s.readReg .caps ∧ t.readReg .scanCap = s.readReg .scanCap
    ∧ t.fsm = .idle ∧ t.row = 0 ∧ t.t = 0 ∧ t.kind = .initial ∧ t.img.px = [] ∧ t.res = [] ∧ t.err = false
    ∧ t.decReq = none ∧ t.decRsp = none ∧ t.irq = false ∧ t.cfg = s.cfg

/-- Reset touches neither SRC nor FB, but that a reset inside a row write leaves each byte of that row with its old or its new
value, in any mix: `landed` says which bytes have their new one (70_reset_and_hazards.md R261).
That a reset at CONV_ROW falls inside the row write, and that the event's list picks the bytes, is the model's form of it (log 9). -/
def Obligations.ResetLeavesTheMemories : Prop :=
  ∀ (s : State) (landed : List Bool), ∃ t, perform (.reset landed) s = .next t ∧ t.src = s.src
    ∧ (s.fsm ≠ .convRow → t.fb = s.fb)
    ∧ (s.fsm = .convRow → s.fb.wf = true → s.settled → s.convertCheck = none → s.row < s.frameH →
      ∀ a, t.fb.read a =
        if s.rowOffset s.row ≤ a ∧ a < s.rowOffset s.row + s.frameW * s.bytesPerPixel
            ∧ landed.getD (a - s.rowOffset s.row) false = true
        then (s.frameRow s.row).getD (a - s.rowOffset s.row) 0#8 else s.fb.read a)

/-- After a reset the block is idle with its interrupt masked, and a command issued before the configuration is written raises
UNSUPPORTED_PIXEL_FORMAT in each of its phases (70_reset_and_hazards.md R263). The engine's turns on an empty agenda are the
model's choice (log 2). -/
def Obligations.UnconfiguredCommandsRaiseFormatError : Prop :=
  ∀ (s : State) (landed : List Bool), s.agenda = [] → s.cfg.regBase % 4 = 0 →
    ∃ t, perform (.reset landed) s = .next t ∧ t.fsm = .idle ∧ t.status.busy = false ∧ t.ctrl.ie = false
      ∧ t.irq = false
      ∧ (∃ u, runSteps 2 (t.withFetchWord 32 1) = .next u ∧ u.readReg .convRes = 0x00000001#32
        ∧ u.readReg .status = 0x00001006#32)
      ∧ (∃ u, runSteps 2 (t.withFetchWord 32 2) = .next u ∧ u.readReg .scanRes = 0x00000010#32
        ∧ u.readReg .scanCnt = 0#32 ∧ u.readReg .status = 0x00002006#32)
      ∧ ∃ u, runSteps 3 (t.withFetchWord 32 3) = .next u ∧ u.readReg .scanRes = 0x00000010#32
        ∧ u.readReg .convRes = 0x00000001#32 ∧ u.readReg .status = 0x00003006#32

/-! ## The whole machine -/

/-- No engine step writes SRC, and what it does depends on no SRC byte outside the frame's pixels: padding and everything else
in SRC is never read (20_memory.md R61). -/
def Obligations.BlockReadsOnlyTheFrame : Prop :=
  (∀ s t : State, engineStep s = .next t → t.src = s.src)
  ∧ ∀ (s : State) (m : Memory), (s.fsm.searching = true → s.channels = 1 ∨ s.channels = 3) →
    (∀ x < s.frameW, ∀ y < s.frameH, ∀ c < s.channels,
      m.read (s.srcBase.toNat + y * s.srcStride.toNat + s.channels * x + c)
        = s.src.read (s.srcBase.toNat + y * s.srcStride.toNat + s.channels * x + c)) →
    (s.fsm = .convRow → s.channels = 3 ∧ s.row < s.frameH) →
    ∀ t, engineStep s = .next t → engineStep { s with src := m } = .next { t with src := m }

/-- The block never reads FB: in a state that differs in FB only, the engine takes the same step, and writes the same bytes
at the same place, the row's at the row's offset, if it writes a row, and none otherwise (20_memory.md R63). Where the host
writes FB during the phase, `blockBytes` is what stays of the two (log 8). -/
def Obligations.BlockNeverReadsTheFramebuffer : Prop :=
  ∀ (s : State) (m : Memory) (t : State), engineStep s = .next t →
    (s.fsm = .convRow → engineStep { s with fb := m } = .next { t with
      fb := m.writeBytes (s.rowOffset s.row) (s.blockBytes (s.rowOffset s.row) (s.rowBytes s.row)) })
    ∧ (s.fsm ≠ .convRow → t.fb = s.fb ∧ engineStep { s with fb := m } = .next { t with fb := m })

/-- A status flag changes only by what the spec lists for it: each flag's rises, and each flag's falls (10_state.md R42; an
accepted NOP clears ERR and ILL too, 42_control.md R200). The falls of ERR, OPENED and TRUNC are stated in the states of a
run, where the engine finds these flags clear. -/
def Obligations.FlagsChangeOnlyAsListed : Prop :=
  ∀ (s t : State) (e : Event), perform e s = .next t →
    let writes := fun (off : Nat) (v : Word) => e = .regWrite (s.cfg.regBase + off) 4 v
    let accepts := fun (v : Word) => s.status.busy = false ∧ writes 0x008 v
    let scans := accepts 0x00000002#32 ∨ accepts 0x00000003#32
    let runs := accepts 0x00000001#32 ∨ scans
    let nop := accepts 0x00000000#32
    let illegal := ∃ v, accepts v ∧ (v.extractLsb' 4 28 ≠ 0#28 ∨ 4#4 ≤ v.extractLsb' 0 4)
    let clears := fun (i : Nat) => ∃ v, writes 0x004 v ∧ v.getLsbD i = true
    let configures := ∃ off ∈ [0x00C, 0x010, 0x014, 0x018, 0x01C], ∃ v, writes off v
    let resets := ∃ landed, e = .reset landed
    let completes := e = .engine ∧ t.fsm = .idle ∧ t.status.busy = false ∧ t.status.done = true
    let ends := e = .engine ∧ s.fsm.waiting = true ∧ t.fsm.scanning = false
    (s.status.busy = false → t.status.busy = true → runs)
    ∧ (s.status.busy = true → t.status.busy = false → completes ∨ resets)
    ∧ (s.status.done = false → t.status.done = true → completes ∨ nop ∨ illegal)
    ∧ (s.status.done = true → t.status.done = false → runs ∨ clears 1 ∨ resets)
    ∧ (s.status.err = false → t.status.err = true → (completes ∧ t.err = true) ∨ illegal)
    ∧ (s.status.ill = false → t.status.ill = true → illegal)
    ∧ (s.status.ill = true → t.status.ill = false → runs ∨ nop ∨ clears 3 ∨ resets)
    ∧ (s.status.ovr = false → t.status.ovr = true → s.status.busy = true ∧ ((∃ v, writes 0x008 v) ∨ configures))
    ∧ (s.status.ovr = true → t.status.ovr = false → clears 4 ∨ resets)
    ∧ (s.scanRes.found = false → t.scanRes.found = true → ends)
    ∧ (s.scanRes.found = true → t.scanRes.found = false → scans ∨ resets)
    ∧ (s.scanRes.opened = false → t.scanRes.opened = true → ends ∧ t.scanRes.found = true)
    ∧ (s.resLen.trunc = false → t.resLen.trunc = true → ends ∧ ∃ r, s.decRsp = some r ∧ s.cfg.resCap < r.bytes.length)
    ∧ (Inv s →
      (s.status.err = true → t.status.err = false → runs ∨ nop ∨ clears 2 ∨ resets)
      ∧ (s.scanRes.opened = true → t.scanRes.opened = false → scans ∨ resets)
      ∧ (s.resLen.trunc = true → t.resLen.trunc = false → scans ∨ resets))

/-- The parameters never change; only a host write to SRC changes SRC; and only a host write to FB, or, at a row write, the
engine's step or a reset inside it, changes FB. -/
def Obligations.OnlyTheNamedStepsChangeTheMemories : Prop :=
  ∀ (s t : State) (e : Event), perform e s = .next t → t.cfg = s.cfg
    ∧ ((∀ a bytes, e ≠ .srcWrite a bytes) → t.src = s.src)
    ∧ ((∀ o bytes, e ≠ .fbWrite o bytes) → ¬ (s.fsm = .convRow ∧ (e = .engine ∨ ∃ landed, e = .reset landed)) →
      t.fb = s.fb)

/-- The invariant holds of the state after reset. The parameters, the content of SRC and FB and `S.op` in that state are the
model's choices (log 4, log 5, log 6); the invariant holds of them, and says nothing of their values beyond their ranges. -/
def Obligations.ResetStateIsSafe : Prop := Inv State.reset

/-- Every step of every agent keeps the invariant, from every state that has it and with any agenda. -/
def Obligations.EveryStepKeepsTheInvariant : Prop :=
  ∀ s t : State, Inv s → step s = .next t → Inv t

/-- In a state of a run the engine never stops with a fault: its accesses stay inside SRC and FB, because the prechecks
guarantee it (20_memory.md R62, R63). -/
def Obligations.PrechecksKeepTheEngineInside : Prop :=
  ∀ s : State, Inv s → ∃ t, engineStep s = .next t

/-- A command ends after finitely many engine steps when every request is answered: every engine step that is not a wait
brings its end nearer (60_exceptions.md R241). -/
def Obligations.EveryEngineStepShortensTheCommand : Prop :=
  ∀ s t : State, Inv s → s.fsm ≠ .idle → s.blocked = false → engineStep s = .next t → t.stepsLeft < s.stepsLeft

/-- An idle block and a block that waits for the decoder have no step of their own (60_exceptions.md R240, R241).
That the whole machine then stays as it is when no other agent has a step on the agenda is the model's choice (log 2). -/
def Obligations.IdleOrWaitingBlockHasNoStep : Prop :=
  ∀ s : State, s.fsm = .idle ∨ s.blocked = true → engineStep s = .next s ∧ (s.agenda = [] → step s = .next s)

/-! ## Races and the other agents -/

/-- Racing accesses. While the host's write of an SRC byte is not visible the block's read of it is a free value, and so it is
after a completion. Once the host of an idle block has made its writes visible, the block reads what was written; made
visible while a command runs, the byte still races with that command, and is settled by its completion or by a reset
(70_reset_and_hazards.md R272). An FB byte that both the host and the convert phase write ends with the one's or the other's
value, whichever wrote first (20_memory.md R73, R75). How long a write races is the model's reading (log 7, log 8). -/
def Obligations.RacesEndWithTheNamedValues : Prop :=
  ∀ s : State, s.src.wf = true → s.fb.wf = true →
    (∀ (y k a : Nat) (b : Byte),
      let written := s.writeSrc a [b]
      let free := Config.raceByte s.draws y k
      written.blockRead y k a = free ∧ (complete written).blockRead y k a = free
      ∧ (s.status.busy = false → written.syncSrc.blockRead y k a = b)
      ∧ (s.status.busy = true → written.syncSrc.blockRead y k a = free ∧ (complete written.syncSrc).blockRead y k a = b
        ∧ ∀ landed, ∃ t, perform (.reset landed) written.syncSrc = .next t ∧ t.blockRead y k a = b))
    ∧ (∀ (o k : Nat) (h b : Byte), s.converting = true →
      ((s.hostWriteByte o k h).blockWrite o [b]).fb.read o = h ∨ ((s.hostWriteByte o k h).blockWrite o [b]).fb.read o = b)
    ∧ (∀ (o k : Nat) (h : Byte), s.fsm = .convRow → s.fbRace = [] →
      (s.hostWriteByte o k h).fb.read o = h ∨ ((s.hostWriteByte o k h).fb.read o = s.fb.read o ∧ s.blockWrote o = true))

/-- Another agent's read of FB changes no state of the block, and sees of each byte its value or, for a byte of the row being
written, the value about to be written (20_memory.md R67, R74). That the free value `Config.byteLanded` picks between the two
is the model's form of it (log 9). -/
def Obligations.ObserversSeeOldOrNewBytes : Prop :=
  ∀ (s : State) (o n : Nat), o + n ≤ s.cfg.fbSize →
    perform (.fbRead o n) s = .next { s with reply := .bytes (s.observeBytes o n), draws := s.draws + 1 }
    ∧ perform (.display o n) s = .next { s with displaySeen := s.observeBytes o n, draws := s.draws + 1 }
    ∧ (s.observeBytes o n).length = n
    ∧ (s.fsm ≠ .convRow → s.observeBytes o n = (List.range n).map fun k => s.fb.read (o + k))
    ∧ ∀ a k, s.observeFb a k = s.fb.read a
      ∨ (s.fsm = .convRow ∧ s.rowOffset s.row ≤ a
        ∧ s.observeFb a k = (s.blockBytes (s.rowOffset s.row) (s.rowBytes s.row)).getD (a - s.rowOffset s.row) (s.fb.read a))

/-- A host write to SRC inside it stores exactly its bytes; a host write to FB outside a convert phase stores exactly its
bytes; an access beyond the end of the space stops the machine, which is the model's choice (log 13). -/
def Obligations.HostWritesStoreTheirBytes : Prop :=
  ∀ (s : State) (a : Nat) (bytes : List Byte), s.src.wf = true → s.fb.wf = true →
    (a + bytes.length ≤ s.cfg.srcSize → ∃ t, perform (.srcWrite a bytes) s = .next t ∧ t.fb = s.fb ∧ t.status = s.status
      ∧ t.fsm = s.fsm ∧ ∀ c, t.src.read c = if a ≤ c ∧ c < a + bytes.length then bytes.getD (c - a) 0#8 else s.src.read c)
    ∧ (a + bytes.length ≤ s.cfg.fbSize → s.converting = false →
      ∃ t, perform (.fbWrite a bytes) s = .next t ∧ t.src = s.src ∧ t.status = s.status ∧ t.fsm = s.fsm
        ∧ ∀ c, t.fb.read c = if a ≤ c ∧ c < a + bytes.length then bytes.getD (c - a) 0#8 else s.fb.read c)
    ∧ (bytes ≠ [] → s.cfg.srcSize < a + bytes.length → perform (.srcWrite a bytes) s = .fault .srcOutside)
    ∧ (bytes ≠ [] → s.cfg.fbSize < a + bytes.length → perform (.fbWrite a bytes) s = .fault .fbOutside)
end

