-- ==== Sys2Proof/Laws/Memory.lean ====
section
/-! SUPPORT. The laws of the keyed lists and of the byte memories: read after write, and that every operation keeps the
canonical form. -/

namespace Sys2Proof.Machine

section Keyed

variable {β : Type}

theorem lookupKey_putKey (l : List (Nat × β)) (a c : Nat) (b : β) :
    lookupKey (putKey l a b) c = if a = c then some b else lookupKey l c := by
  induction l with
  | nil => simp [putKey, lookupKey]
  | cons p t ih =>
    obtain ⟨k, d⟩ := p
    unfold putKey
    split
    · simp [lookupKey]
    · split
      · rename_i hk
        subst hk
        by_cases h : k = c <;> simp [lookupKey, h]
      · by_cases h : k = c
        · subst h
          simp_all [lookupKey, eq_comm]
        · simp [lookupKey, h, ih]

theorem lookupKey_eraseKey_ne (l : List (Nat × β)) {a c : Nat} (h : a ≠ c) :
    lookupKey (eraseKey l a) c = lookupKey l c := by
  induction l with
  | nil => rfl
  | cons p t ih =>
    obtain ⟨k, d⟩ := p
    unfold eraseKey
    split
    · subst_vars
      simp [lookupKey, h]
    · simp [lookupKey, ih]

/-- A key below every listed key is not listed. -/
theorem lookupKey_eq_none {l : List (Nat × β)} {a : Nat} (h : ∀ p ∈ l, p.1 ≠ a) : lookupKey l a = none := by
  induction l with
  | nil => rfl
  | cons p t ih =>
    obtain ⟨k, d⟩ := p
    have hk : k ≠ a := h (k, d) (by simp)
    simp [lookupKey, hk, ih fun q hq => h q (by simp [hq])]

theorem lookupKey_eraseKey_self {l : List (Nat × β)} (h : keysRising l = true) (a : Nat) :
    lookupKey (eraseKey l a) a = none := by
  induction l with
  | nil => rfl
  | cons p t ih =>
    obtain ⟨k, d⟩ := p
    simp only [keysRising, decide_eq_true_eq, List.pairwise_cons] at h
    unfold eraseKey
    split
    · subst_vars
      exact lookupKey_eq_none fun q hq => Nat.ne_of_gt (h.1 q hq)
    · rename_i hk
      simp only [lookupKey, hk, if_false]
      exact ih (by simpa [keysRising] using h.2)

/-- Where a listed value comes from: a keyed list's lookups are its members. -/
theorem mem_of_lookupKey {l : List (Nat × β)} {a : Nat} {b : β} (h : lookupKey l a = some b) : (a, b) ∈ l := by
  induction l with
  | nil => simp [lookupKey] at h
  | cons p t ih =>
    obtain ⟨k, d⟩ := p
    unfold lookupKey at h
    split at h
    · simp_all
    · simp [ih h]

theorem lookupKey_of_mem {l : List (Nat × β)} (hr : keysRising l = true) {a : Nat} {b : β} (h : (a, b) ∈ l) :
    lookupKey l a = some b := by
  induction l with
  | nil => simp at h
  | cons p t ih =>
    obtain ⟨k, d⟩ := p
    simp only [keysRising, decide_eq_true_eq, List.pairwise_cons] at hr
    rcases List.mem_cons.mp h with h | h
    · simp_all [lookupKey]
    · have : k < a := hr.1 _ h
      simp only [lookupKey, Nat.ne_of_lt this, if_false]
      exact ih (by simpa [keysRising] using hr.2) h

theorem mem_putKey {l : List (Nat × β)} {a : Nat} {b : β} {p : Nat × β} (h : p ∈ putKey l a b) :
    p = (a, b) ∨ p ∈ l := by
  induction l with
  | nil => simpa [putKey] using h
  | cons q t ih =>
    obtain ⟨k, d⟩ := q
    unfold putKey at h
    split at h
    · simpa using h
    · split at h
      · simp only [List.mem_cons] at h ⊢
        tauto
      · simp only [List.mem_cons] at h ⊢
        rcases h with h | h
        · exact .inr (.inl h)
        · rcases ih h with h | h
          · exact .inl h
          · exact .inr (.inr h)

theorem mem_of_mem_eraseKey {l : List (Nat × β)} {a : Nat} {p : Nat × β} (h : p ∈ eraseKey l a) : p ∈ l := by
  induction l with
  | nil => simp [eraseKey] at h
  | cons q t ih =>
    obtain ⟨k, d⟩ := q
    unfold eraseKey at h
    split at h
    · simp [h]
    · simp only [List.mem_cons] at h ⊢
      exact h.imp id ih

theorem keysRising_putKey {l : List (Nat × β)} (h : keysRising l = true) (a : Nat) (b : β) :
    keysRising (putKey l a b) = true := by
  induction l with
  | nil => simp [putKey, keysRising]
  | cons q t ih =>
    obtain ⟨k, d⟩ := q
    have h' := h
    simp only [keysRising, decide_eq_true_eq, List.pairwise_cons] at h ih ⊢
    unfold putKey
    split
    · rename_i hak
      simp only [List.pairwise_cons, List.mem_cons]
      refine ⟨?_, h⟩
      rintro p (rfl | hp)
      · exact hak
      · exact Nat.lt_trans hak (h.1 p hp)
    · split
      · subst_vars
        exact List.pairwise_cons.mpr h
      · refine List.pairwise_cons.mpr ⟨fun p hp => ?_, ih h.2⟩
        rcases mem_putKey hp with rfl | hp
        · simp only
          omega
        · exact h.1 p hp

theorem keysRising_eraseKey {l : List (Nat × β)} (h : keysRising l = true) (a : Nat) :
    keysRising (eraseKey l a) = true := by
  induction l with
  | nil => simp [eraseKey, keysRising]
  | cons q t ih =>
    obtain ⟨k, d⟩ := q
    simp only [keysRising, decide_eq_true_eq, List.pairwise_cons] at h ih ⊢
    unfold eraseKey
    split
    · exact h.2
    · exact List.pairwise_cons.mpr ⟨fun p hp => h.1 p (mem_of_mem_eraseKey hp), ih h.2⟩

/-- Two lists with rising keys and the same lookups are equal. -/
theorem keyed_ext {l m : List (Nat × β)} (hl : keysRising l = true) (hm : keysRising m = true)
    (h : ∀ a, lookupKey l a = lookupKey m a) : l = m := by
  induction l generalizing m with
  | nil =>
    cases m with
    | nil => rfl
    | cons p t => simpa [lookupKey] using h p.1
  | cons p t ih =>
    obtain ⟨k, b⟩ := p
    cases m with
    | nil => simpa [lookupKey] using h k
    | cons q u =>
      obtain ⟨k', b'⟩ := q
      have hl' := hl
      have hm' := hm
      simp only [keysRising, decide_eq_true_eq, List.pairwise_cons] at hl hm
      have h1 := mem_of_lookupKey ((h k).symm.trans (lookupKey_of_mem hl' (List.mem_cons_self (a := (k, b)))))
      have h2 := mem_of_lookupKey ((h k').trans (lookupKey_of_mem hm' (List.mem_cons_self (a := (k', b')))))
      have hk : k = k' := by
        rcases List.mem_cons.mp h1 with h1 | h1
        · exact congrArg Prod.fst h1
        · rcases List.mem_cons.mp h2 with h2 | h2
          · exact (congrArg Prod.fst h2).symm
          · have := hl.1 _ h2
            have := hm.1 _ h1
            simp only at *
            omega
      subst hk
      have hb : b = b' := by simpa [lookupKey] using h k
      subst hb
      congr 1
      refine ih (by simpa [keysRising] using hl.2) (by simpa [keysRising] using hm.2) fun a => ?_
      by_cases ha : k = a
      · subst ha
        rw [lookupKey_eq_none fun p hp => Nat.ne_of_gt (hl.1 p hp), lookupKey_eq_none fun p hp => Nat.ne_of_gt (hm.1 p hp)]
      · simpa [lookupKey, ha] using h a

end Keyed

theorem Memory.wf_iff (m : Memory) : m.wf = true ↔ keysRising m = true ∧ ∀ c ∈ m, c.2 ≠ blankByte := by
  simp [Memory.wf]

/-- Every write keeps the canonical form. -/
theorem Memory.wf_write {m : Memory} (h : m.wf = true) (a : Nat) (b : Byte) : (m.write a b).wf = true := by
  rw [Memory.wf_iff] at h ⊢
  unfold Memory.write
  split
  · exact ⟨keysRising_eraseKey h.1 a, fun c hc => h.2 c (mem_of_mem_eraseKey hc)⟩
  · refine ⟨keysRising_putKey h.1 a b, fun c hc => ?_⟩
    rcases mem_putKey hc with rfl | hc
    · assumption
    · exact h.2 c hc

theorem Memory.wf_writeBytes {m : Memory} (h : m.wf = true) (a : Nat) (l : List Byte) : (m.writeBytes a l).wf = true := by
  induction l generalizing m a with
  | nil => exact h
  | cons b bs ih => exact ih (Memory.wf_write h a b) (a + 1)

/-- A read after a write gives the byte written; every other address reads as before. -/
theorem Memory.read_write {m : Memory} (h : m.wf = true) (a c : Nat) (b : Byte) :
    (m.write a b).read c = if a = c then b else m.read c := by
  rw [Memory.wf_iff] at h
  unfold Memory.write Memory.read
  by_cases hb : b = blankByte
  · by_cases hc : a = c
    · subst hc
      simp [hb, lookupKey_eraseKey_self h.1]
    · simp [hb, hc, lookupKey_eraseKey_ne m hc]
  · by_cases hc : a = c <;> simp [hb, hc, lookupKey_putKey]

/-- What every address reads as after a write of several bytes. -/
theorem Memory.read_writeBytes {m : Memory} (h : m.wf = true) (a c : Nat) (l : List Byte) :
    (m.writeBytes a l).read c = if a ≤ c ∧ c < a + l.length then l.getD (c - a) 0#8 else m.read c := by
  induction l generalizing m a with
  | nil =>
    have : ¬ (a ≤ c ∧ c < a) := by omega
    simp [Memory.writeBytes, this]
  | cons b bs ih =>
    rw [Memory.writeBytes, ih (Memory.wf_write h a b), Memory.read_write h]
    by_cases hac : a = c
    · subst hac
      simp
    · simp only [hac, if_false, List.length_cons]
      by_cases hin : a + 1 ≤ c ∧ c < a + 1 + bs.length
      · have h1 : a ≤ c ∧ c < a + (bs.length + 1) := by omega
        have h2 : c - a = c - (a + 1) + 1 := by omega
        simp [hin, h1, h2]
      · have h1 : ¬ (a ≤ c ∧ c < a + (bs.length + 1)) := by omega
        rw [if_neg hin, if_neg h1]

/-- Canonical memories with the same reads are equal. -/
theorem Memory.eq_of_read {m n : Memory} (hm : m.wf = true) (hn : n.wf = true) (h : ∀ a, m.read a = n.read a) : m = n := by
  rw [Memory.wf_iff] at hm hn
  refine keyed_ext hm.1 hn.1 fun a => ?_
  have ha := h a
  unfold Memory.read at ha
  cases h1 : lookupKey m a with
  | none =>
    cases h2 : lookupKey n a with
    | none => rfl
    | some b =>
      rw [h1, h2] at ha
      exact absurd ha.symm (hn.2 _ (mem_of_lookupKey h2))
  | some b =>
    cases h2 : lookupKey n a with
    | none =>
      rw [h1, h2] at ha
      exact absurd ha (hm.2 _ (mem_of_lookupKey h1))
    | some b' =>
      rw [h1, h2] at ha
      exact congrArg some ha

/-- A write lists no address but its own. -/
theorem Memory.mem_write {m : Memory} {a : Nat} {b : Byte} {c : Host.Cell} (h : c ∈ m.write a b) : c.1 = a ∨ c ∈ m := by
  unfold Memory.write at h
  split at h
  · exact .inr (mem_of_mem_eraseKey h)
  · exact (mem_putKey h).imp (congrArg Prod.fst) id

/-- A write of several bytes lists no address outside them. -/
theorem Memory.mem_writeBytes {m : Memory} {a : Nat} {l : List Byte} {c : Host.Cell} (h : c ∈ m.writeBytes a l) :
    (a ≤ c.1 ∧ c.1 < a + l.length) ∨ c ∈ m := by
  induction l generalizing m a with
  | nil => exact .inr h
  | cons b bs ih =>
    rcases ih h with h | h
    · exact .inl (by simp only [List.length_cons]; omega)
    · rcases Memory.mem_write h with h | h
      · exact .inl (by simp only [List.length_cons]; omega)
      · exact .inr h

@[simp] theorem Memory.wf_nil : Memory.wf [] = true := rfl

end Sys2Proof.Machine
end

