-- ==== Sys2Proof/Laws/State.lean ====
section
/-! SUPPORT. For each named update of the state, what each field holds after it, all by `rfl`. Each theorem is a conjunction
of one equation a field, which `simp` uses one by one. -/

namespace Sys2Proof.Machine

/-- The next free values are others, and nothing else. -/
@[simp] theorem State.drawn_fields (s : State) :
    s.drawn.cfg = s.cfg ∧ s.drawn.ctrl = s.ctrl ∧ s.drawn.status = s.status ∧ s.drawn.srcBase = s.srcBase
      ∧ s.drawn.srcStride = s.srcStride ∧ s.drawn.frameSize = s.frameSize ∧ s.drawn.srcFmt = s.srcFmt
      ∧ s.drawn.fbGeom = s.fbGeom ∧ s.drawn.convRes = s.convRes ∧ s.drawn.scanRes = s.scanRes
      ∧ s.drawn.scanCnt = s.scanCnt ∧ s.drawn.resLen = s.resLen ∧ s.drawn.fsm = s.fsm ∧ s.drawn.op = s.op
      ∧ s.drawn.row = s.row ∧ s.drawn.t = s.t ∧ s.drawn.kind = s.kind ∧ s.drawn.img = s.img ∧ s.drawn.res = s.res
      ∧ s.drawn.err = s.err ∧ s.drawn.decReq = s.decReq ∧ s.drawn.decRsp = s.decRsp ∧ s.drawn.src = s.src
      ∧ s.drawn.fb = s.fb ∧ s.drawn.agenda = s.agenda ∧ s.drawn.srcUnsettled = s.srcUnsettled
      ∧ s.drawn.fbRace = s.fbRace ∧ s.drawn.draws = (s.draws + 1) ∧ s.drawn.reply = s.reply
      ∧ s.drawn.displaySeen = s.displaySeen :=
  ⟨rfl, rfl, rfl, rfl, rfl, rfl, rfl, rfl, rfl, rfl, rfl, rfl, rfl, rfl, rfl, rfl, rfl, rfl, rfl, rfl, rfl, rfl,
    rfl, rfl, rfl, rfl, rfl, rfl, rfl, rfl⟩

/-- The windows of the races close, and nothing else. -/
@[simp] theorem State.closeRaces_fields (s : State) :
    s.closeRaces.cfg = s.cfg ∧ s.closeRaces.ctrl = s.ctrl ∧ s.closeRaces.status = s.status
      ∧ s.closeRaces.srcBase = s.srcBase ∧ s.closeRaces.srcStride = s.srcStride ∧ s.closeRaces.frameSize = s.frameSize
      ∧ s.closeRaces.srcFmt = s.srcFmt ∧ s.closeRaces.fbGeom = s.fbGeom ∧ s.closeRaces.convRes = s.convRes
      ∧ s.closeRaces.scanRes = s.scanRes ∧ s.closeRaces.scanCnt = s.scanCnt ∧ s.closeRaces.resLen = s.resLen
      ∧ s.closeRaces.fsm = s.fsm ∧ s.closeRaces.op = s.op ∧ s.closeRaces.row = s.row ∧ s.closeRaces.t = s.t
      ∧ s.closeRaces.kind = s.kind ∧ s.closeRaces.img = s.img ∧ s.closeRaces.res = s.res ∧ s.closeRaces.err = s.err
      ∧ s.closeRaces.decReq = s.decReq ∧ s.closeRaces.decRsp = s.decRsp ∧ s.closeRaces.src = s.src
      ∧ s.closeRaces.fb = s.fb ∧ s.closeRaces.agenda = s.agenda
      ∧ s.closeRaces.srcUnsettled = (s.srcUnsettled.filter fun p => !p.2) ∧ s.closeRaces.fbRace = []
      ∧ s.closeRaces.draws = s.draws ∧ s.closeRaces.reply = s.reply ∧ s.closeRaces.displaySeen = s.displaySeen :=
  ⟨rfl, rfl, rfl, rfl, rfl, rfl, rfl, rfl, rfl, rfl, rfl, rfl, rfl, rfl, rfl, rfl, rfl, rfl, rfl, rfl, rfl, rfl,
    rfl, rfl, rfl, rfl, rfl, rfl, rfl, rfl⟩

/-- What `complete()` changes and what it leaves (60_exceptions.md R222). -/
@[simp] theorem complete_fields (s : State) :
    (complete s).cfg = s.cfg ∧ (complete s).ctrl = s.ctrl ∧ (complete s).status = (s.status.complete s.err)
      ∧ (complete s).srcBase = s.srcBase ∧ (complete s).srcStride = s.srcStride ∧ (complete s).frameSize = s.frameSize
      ∧ (complete s).srcFmt = s.srcFmt ∧ (complete s).fbGeom = s.fbGeom ∧ (complete s).convRes = s.convRes
      ∧ (complete s).scanRes = s.scanRes ∧ (complete s).scanCnt = s.scanCnt ∧ (complete s).resLen = s.resLen
      ∧ (complete s).fsm = .idle ∧ (complete s).op = s.op ∧ (complete s).row = s.row ∧ (complete s).t = s.t
      ∧ (complete s).kind = s.kind ∧ (complete s).img = s.img ∧ (complete s).res = s.res ∧ (complete s).err = s.err
      ∧ (complete s).decReq = s.decReq ∧ (complete s).decRsp = s.decRsp ∧ (complete s).src = s.src
      ∧ (complete s).fb = s.fb ∧ (complete s).agenda = s.agenda
      ∧ (complete s).srcUnsettled = (s.srcUnsettled.filter fun p => !p.2) ∧ (complete s).fbRace = []
      ∧ (complete s).draws = s.draws ∧ (complete s).reply = s.reply ∧ (complete s).displaySeen = s.displaySeen :=
  ⟨rfl, rfl, rfl, rfl, rfl, rfl, rfl, rfl, rfl, rfl, rfl, rfl, rfl, rfl, rfl, rfl, rfl, rfl, rfl, rfl, rfl, rfl,
    rfl, rfl, rfl, rfl, rfl, rfl, rfl, rfl⟩

/-- An overrun sets OVR and nothing else (30_encoding.md R94). -/
@[simp] theorem overrun_fields (s : State) :
    (overrun s).cfg = s.cfg ∧ (overrun s).ctrl = s.ctrl ∧ (overrun s).status = s.status.overrun
      ∧ (overrun s).srcBase = s.srcBase ∧ (overrun s).srcStride = s.srcStride ∧ (overrun s).frameSize = s.frameSize
      ∧ (overrun s).srcFmt = s.srcFmt ∧ (overrun s).fbGeom = s.fbGeom ∧ (overrun s).convRes = s.convRes
      ∧ (overrun s).scanRes = s.scanRes ∧ (overrun s).scanCnt = s.scanCnt ∧ (overrun s).resLen = s.resLen
      ∧ (overrun s).fsm = s.fsm ∧ (overrun s).op = s.op ∧ (overrun s).row = s.row ∧ (overrun s).t = s.t
      ∧ (overrun s).kind = s.kind ∧ (overrun s).img = s.img ∧ (overrun s).res = s.res ∧ (overrun s).err = s.err
      ∧ (overrun s).decReq = s.decReq ∧ (overrun s).decRsp = s.decRsp ∧ (overrun s).src = s.src ∧ (overrun s).fb = s.fb
      ∧ (overrun s).agenda = s.agenda ∧ (overrun s).srcUnsettled = s.srcUnsettled ∧ (overrun s).fbRace = s.fbRace
      ∧ (overrun s).draws = s.draws ∧ (overrun s).reply = s.reply ∧ (overrun s).displaySeen = s.displaySeen :=
  ⟨rfl, rfl, rfl, rfl, rfl, rfl, rfl, rfl, rfl, rfl, rfl, rfl, rfl, rfl, rfl, rfl, rfl, rfl, rfl, rfl, rfl, rfl,
    rfl, rfl, rfl, rfl, rfl, rfl, rfl, rfl⟩

/-- NOP writes its flags and nothing else (42_control.md R200). -/
@[simp] theorem acceptNop_fields (s : State) :
    (acceptNop s).cfg = s.cfg ∧ (acceptNop s).ctrl = s.ctrl ∧ (acceptNop s).status = s.status.nop
      ∧ (acceptNop s).srcBase = s.srcBase ∧ (acceptNop s).srcStride = s.srcStride
      ∧ (acceptNop s).frameSize = s.frameSize ∧ (acceptNop s).srcFmt = s.srcFmt ∧ (acceptNop s).fbGeom = s.fbGeom
      ∧ (acceptNop s).convRes = s.convRes ∧ (acceptNop s).scanRes = s.scanRes ∧ (acceptNop s).scanCnt = s.scanCnt
      ∧ (acceptNop s).resLen = s.resLen ∧ (acceptNop s).fsm = s.fsm ∧ (acceptNop s).op = s.op
      ∧ (acceptNop s).row = s.row ∧ (acceptNop s).t = s.t ∧ (acceptNop s).kind = s.kind ∧ (acceptNop s).img = s.img
      ∧ (acceptNop s).res = s.res ∧ (acceptNop s).err = s.err ∧ (acceptNop s).decReq = s.decReq
      ∧ (acceptNop s).decRsp = s.decRsp ∧ (acceptNop s).src = s.src ∧ (acceptNop s).fb = s.fb
      ∧ (acceptNop s).agenda = s.agenda ∧ (acceptNop s).srcUnsettled = s.srcUnsettled ∧ (acceptNop s).fbRace = s.fbRace
      ∧ (acceptNop s).draws = s.draws ∧ (acceptNop s).reply = s.reply ∧ (acceptNop s).displaySeen = s.displaySeen :=
  ⟨rfl, rfl, rfl, rfl, rfl, rfl, rfl, rfl, rfl, rfl, rfl, rfl, rfl, rfl, rfl, rfl, rfl, rfl, rfl, rfl, rfl, rfl,
    rfl, rfl, rfl, rfl, rfl, rfl, rfl, rfl⟩

/-- An illegal word writes its flags and nothing else (42_control.md R202). -/
@[simp] theorem acceptIllegal_fields (s : State) :
    (acceptIllegal s).cfg = s.cfg ∧ (acceptIllegal s).ctrl = s.ctrl ∧ (acceptIllegal s).status = s.status.illegal
      ∧ (acceptIllegal s).srcBase = s.srcBase ∧ (acceptIllegal s).srcStride = s.srcStride
      ∧ (acceptIllegal s).frameSize = s.frameSize ∧ (acceptIllegal s).srcFmt = s.srcFmt
      ∧ (acceptIllegal s).fbGeom = s.fbGeom ∧ (acceptIllegal s).convRes = s.convRes
      ∧ (acceptIllegal s).scanRes = s.scanRes ∧ (acceptIllegal s).scanCnt = s.scanCnt
      ∧ (acceptIllegal s).resLen = s.resLen ∧ (acceptIllegal s).fsm = s.fsm ∧ (acceptIllegal s).op = s.op
      ∧ (acceptIllegal s).row = s.row ∧ (acceptIllegal s).t = s.t ∧ (acceptIllegal s).kind = s.kind
      ∧ (acceptIllegal s).img = s.img ∧ (acceptIllegal s).res = s.res ∧ (acceptIllegal s).err = s.err
      ∧ (acceptIllegal s).decReq = s.decReq ∧ (acceptIllegal s).decRsp = s.decRsp ∧ (acceptIllegal s).src = s.src
      ∧ (acceptIllegal s).fb = s.fb ∧ (acceptIllegal s).agenda = s.agenda
      ∧ (acceptIllegal s).srcUnsettled = s.srcUnsettled ∧ (acceptIllegal s).fbRace = s.fbRace
      ∧ (acceptIllegal s).draws = s.draws ∧ (acceptIllegal s).reply = s.reply
      ∧ (acceptIllegal s).displaySeen = s.displaySeen :=
  ⟨rfl, rfl, rfl, rfl, rfl, rfl, rfl, rfl, rfl, rfl, rfl, rfl, rfl, rfl, rfl, rfl, rfl, rfl, rfl, rfl, rfl, rfl,
    rfl, rfl, rfl, rfl, rfl, rfl, rfl, rfl⟩

/-- An acknowledgement writes STATUS and nothing else (60_exceptions.md R226). -/
@[simp] theorem acknowledge_fields (v : Word) (s : State) :
    (acknowledge v s).cfg = s.cfg ∧ (acknowledge v s).ctrl = s.ctrl
      ∧ (acknowledge v s).status = (s.status.acknowledge v) ∧ (acknowledge v s).srcBase = s.srcBase
      ∧ (acknowledge v s).srcStride = s.srcStride ∧ (acknowledge v s).frameSize = s.frameSize
      ∧ (acknowledge v s).srcFmt = s.srcFmt ∧ (acknowledge v s).fbGeom = s.fbGeom
      ∧ (acknowledge v s).convRes = s.convRes ∧ (acknowledge v s).scanRes = s.scanRes
      ∧ (acknowledge v s).scanCnt = s.scanCnt ∧ (acknowledge v s).resLen = s.resLen ∧ (acknowledge v s).fsm = s.fsm
      ∧ (acknowledge v s).op = s.op ∧ (acknowledge v s).row = s.row ∧ (acknowledge v s).t = s.t
      ∧ (acknowledge v s).kind = s.kind ∧ (acknowledge v s).img = s.img ∧ (acknowledge v s).res = s.res
      ∧ (acknowledge v s).err = s.err ∧ (acknowledge v s).decReq = s.decReq ∧ (acknowledge v s).decRsp = s.decRsp
      ∧ (acknowledge v s).src = s.src ∧ (acknowledge v s).fb = s.fb ∧ (acknowledge v s).agenda = s.agenda
      ∧ (acknowledge v s).srcUnsettled = s.srcUnsettled ∧ (acknowledge v s).fbRace = s.fbRace
      ∧ (acknowledge v s).draws = s.draws ∧ (acknowledge v s).reply = s.reply
      ∧ (acknowledge v s).displaySeen = s.displaySeen :=
  ⟨rfl, rfl, rfl, rfl, rfl, rfl, rfl, rfl, rfl, rfl, rfl, rfl, rfl, rfl, rfl, rfl, rfl, rfl, rfl, rfl, rfl, rfl,
    rfl, rfl, rfl, rfl, rfl, rfl, rfl, rfl⟩

/-- What acceptance changes and what it leaves (30_encoding.md R95). -/
@[simp] theorem accept_fields (op : RunOp) (s : State) :
    (accept op s).cfg = s.cfg ∧ (accept op s).ctrl = s.ctrl
      ∧ (accept op s).status = (s.status.accept (if opScans op then .scan else .convert))
      ∧ (accept op s).srcBase = s.srcBase ∧ (accept op s).srcStride = s.srcStride
      ∧ (accept op s).frameSize = s.frameSize ∧ (accept op s).srcFmt = s.srcFmt ∧ (accept op s).fbGeom = s.fbGeom
      ∧ (accept op s).convRes = (if opConverts op then ConvRes.zero else s.convRes)
      ∧ (accept op s).scanRes = (if opScans op then ScanRes.zero else s.scanRes)
      ∧ (accept op s).scanCnt = (if opScans op then ScanCnt.zero else s.scanCnt)
      ∧ (accept op s).resLen = (if opScans op then ResLen.zero else s.resLen)
      ∧ (accept op s).fsm = (if opScans op then .scanEntry else .convEntry) ∧ (accept op s).op = op
      ∧ (accept op s).row = s.row ∧ (accept op s).t = s.t ∧ (accept op s).kind = s.kind ∧ (accept op s).img = s.img
      ∧ (accept op s).res = (if opScans op then [] else s.res) ∧ (accept op s).err = false
      ∧ (accept op s).decReq = s.decReq ∧ (accept op s).decRsp = s.decRsp ∧ (accept op s).src = s.src
      ∧ (accept op s).fb = s.fb ∧ (accept op s).agenda = s.agenda ∧ (accept op s).srcUnsettled = s.srcUnsettled
      ∧ (accept op s).fbRace = s.fbRace ∧ (accept op s).draws = s.draws ∧ (accept op s).reply = s.reply
      ∧ (accept op s).displaySeen = s.displaySeen :=
  ⟨rfl, rfl, rfl, rfl, rfl, rfl, rfl, rfl, rfl, rfl, rfl, rfl, rfl, rfl, rfl, rfl, rfl, rfl, rfl, rfl, rfl, rfl,
    rfl, rfl, rfl, rfl, rfl, rfl, rfl, rfl⟩

/-- A write of the block changes FB and the record of its races (20_memory.md R63, R75). -/
@[simp] theorem State.blockWrite_fields (s : State) (o : Nat) (v : List Byte) :
    (s.blockWrite o v).cfg = s.cfg ∧ (s.blockWrite o v).ctrl = s.ctrl ∧ (s.blockWrite o v).status = s.status
      ∧ (s.blockWrite o v).srcBase = s.srcBase ∧ (s.blockWrite o v).srcStride = s.srcStride
      ∧ (s.blockWrite o v).frameSize = s.frameSize ∧ (s.blockWrite o v).srcFmt = s.srcFmt
      ∧ (s.blockWrite o v).fbGeom = s.fbGeom ∧ (s.blockWrite o v).convRes = s.convRes
      ∧ (s.blockWrite o v).scanRes = s.scanRes ∧ (s.blockWrite o v).scanCnt = s.scanCnt
      ∧ (s.blockWrite o v).resLen = s.resLen ∧ (s.blockWrite o v).fsm = s.fsm ∧ (s.blockWrite o v).op = s.op
      ∧ (s.blockWrite o v).row = s.row ∧ (s.blockWrite o v).t = s.t ∧ (s.blockWrite o v).kind = s.kind
      ∧ (s.blockWrite o v).img = s.img ∧ (s.blockWrite o v).res = s.res ∧ (s.blockWrite o v).err = s.err
      ∧ (s.blockWrite o v).decReq = s.decReq ∧ (s.blockWrite o v).decRsp = s.decRsp ∧ (s.blockWrite o v).src = s.src
      ∧ (s.blockWrite o v).fb = (s.fb.writeBytes o (s.blockBytes o v)) ∧ (s.blockWrite o v).agenda = s.agenda
      ∧ (s.blockWrite o v).srcUnsettled = s.srcUnsettled ∧ (s.blockWrite o v).fbRace = (noteBlockBytes s.fbRace o v)
      ∧ (s.blockWrite o v).draws = s.draws ∧ (s.blockWrite o v).reply = s.reply
      ∧ (s.blockWrite o v).displaySeen = s.displaySeen :=
  ⟨rfl, rfl, rfl, rfl, rfl, rfl, rfl, rfl, rfl, rfl, rfl, rfl, rfl, rfl, rfl, rfl, rfl, rfl, rfl, rfl, rfl, rfl,
    rfl, rfl, rfl, rfl, rfl, rfl, rfl, rfl⟩

/-- The host's barrier changes the record of its SRC writes only (20_memory.md R73). -/
@[simp] theorem State.syncSrc_fields (s : State) :
    s.syncSrc.cfg = s.cfg ∧ s.syncSrc.ctrl = s.ctrl ∧ s.syncSrc.status = s.status ∧ s.syncSrc.srcBase = s.srcBase
      ∧ s.syncSrc.srcStride = s.srcStride ∧ s.syncSrc.frameSize = s.frameSize ∧ s.syncSrc.srcFmt = s.srcFmt
      ∧ s.syncSrc.fbGeom = s.fbGeom ∧ s.syncSrc.convRes = s.convRes ∧ s.syncSrc.scanRes = s.scanRes
      ∧ s.syncSrc.scanCnt = s.scanCnt ∧ s.syncSrc.resLen = s.resLen ∧ s.syncSrc.fsm = s.fsm ∧ s.syncSrc.op = s.op
      ∧ s.syncSrc.row = s.row ∧ s.syncSrc.t = s.t ∧ s.syncSrc.kind = s.kind ∧ s.syncSrc.img = s.img
      ∧ s.syncSrc.res = s.res ∧ s.syncSrc.err = s.err ∧ s.syncSrc.decReq = s.decReq ∧ s.syncSrc.decRsp = s.decRsp
      ∧ s.syncSrc.src = s.src ∧ s.syncSrc.fb = s.fb ∧ s.syncSrc.agenda = s.agenda
      ∧ s.syncSrc.srcUnsettled = (if s.status.busy then s.srcUnsettled.map fun p => (p.1, true) else [])
      ∧ s.syncSrc.fbRace = s.fbRace ∧ s.syncSrc.draws = s.draws ∧ s.syncSrc.reply = s.reply
      ∧ s.syncSrc.displaySeen = s.displaySeen :=
  ⟨rfl, rfl, rfl, rfl, rfl, rfl, rfl, rfl, rfl, rfl, rfl, rfl, rfl, rfl, rfl, rfl, rfl, rfl, rfl, rfl, rfl, rfl,
    rfl, rfl, rfl, rfl, rfl, rfl, rfl, rfl⟩

/-- What the reset event changes and what it leaves (70_reset_and_hazards.md R260, R261). -/
@[simp] theorem resetBlock_fields (s : State) :
    (resetBlock s).cfg = s.cfg ∧ (resetBlock s).ctrl = State.reset.ctrl ∧ (resetBlock s).status = State.reset.status
      ∧ (resetBlock s).srcBase = 0#32 ∧ (resetBlock s).srcStride = 0#32
      ∧ (resetBlock s).frameSize = State.reset.frameSize ∧ (resetBlock s).srcFmt = State.reset.srcFmt
      ∧ (resetBlock s).fbGeom = State.reset.fbGeom ∧ (resetBlock s).convRes = ConvRes.zero
      ∧ (resetBlock s).scanRes = ScanRes.zero ∧ (resetBlock s).scanCnt = ScanCnt.zero
      ∧ (resetBlock s).resLen = ResLen.zero ∧ (resetBlock s).fsm = .idle ∧ (resetBlock s).op = (Config.resetOp s.draws)
      ∧ (resetBlock s).row = 0 ∧ (resetBlock s).t = 0 ∧ (resetBlock s).kind = .initial
      ∧ (resetBlock s).img = State.reset.img ∧ (resetBlock s).res = [] ∧ (resetBlock s).err = false
      ∧ (resetBlock s).decReq = none ∧ (resetBlock s).decRsp = none ∧ (resetBlock s).src = s.src
      ∧ (resetBlock s).fb = s.fb ∧ (resetBlock s).agenda = s.agenda
      ∧ (resetBlock s).srcUnsettled = (s.srcUnsettled.filter fun p => !p.2) ∧ (resetBlock s).fbRace = []
      ∧ (resetBlock s).draws = s.draws ∧ (resetBlock s).reply = s.reply ∧ (resetBlock s).displaySeen = s.displaySeen :=
  ⟨rfl, rfl, rfl, rfl, rfl, rfl, rfl, rfl, rfl, rfl, rfl, rfl, rfl, rfl, rfl, rfl, rfl, rfl, rfl, rfl, rfl, rfl,
    rfl, rfl, rfl, rfl, rfl, rfl, rfl, rfl⟩

/-- A decode request (40_scan.md R126). -/
@[simp] theorem decRequest_fields (i : Image) (s : State) :
    (decRequest i s).cfg = s.cfg ∧ (decRequest i s).ctrl = s.ctrl ∧ (decRequest i s).status = s.status
      ∧ (decRequest i s).srcBase = s.srcBase ∧ (decRequest i s).srcStride = s.srcStride
      ∧ (decRequest i s).frameSize = s.frameSize ∧ (decRequest i s).srcFmt = s.srcFmt
      ∧ (decRequest i s).fbGeom = s.fbGeom ∧ (decRequest i s).convRes = s.convRes
      ∧ (decRequest i s).scanRes = s.scanRes ∧ (decRequest i s).scanCnt = s.scanCnt
      ∧ (decRequest i s).resLen = s.resLen ∧ (decRequest i s).fsm = s.fsm ∧ (decRequest i s).op = s.op
      ∧ (decRequest i s).row = s.row ∧ (decRequest i s).t = s.t ∧ (decRequest i s).kind = s.kind
      ∧ (decRequest i s).img = i ∧ (decRequest i s).res = s.res ∧ (decRequest i s).err = s.err
      ∧ (decRequest i s).decReq = (some i) ∧ (decRequest i s).decRsp = s.decRsp ∧ (decRequest i s).src = s.src
      ∧ (decRequest i s).fb = s.fb ∧ (decRequest i s).agenda = s.agenda
      ∧ (decRequest i s).srcUnsettled = s.srcUnsettled ∧ (decRequest i s).fbRace = s.fbRace
      ∧ (decRequest i s).draws = s.draws ∧ (decRequest i s).reply = s.reply
      ∧ (decRequest i s).displaySeen = s.displaySeen :=
  ⟨rfl, rfl, rfl, rfl, rfl, rfl, rfl, rfl, rfl, rfl, rfl, rfl, rfl, rfl, rfl, rfl, rfl, rfl, rfl, rfl, rfl, rfl,
    rfl, rfl, rfl, rfl, rfl, rfl, rfl, rfl⟩

/-- The search starts (40_scan.md R110). -/
@[simp] theorem startSearch_fields (t0 : Nat) (s : State) :
    (startSearch t0 s).cfg = s.cfg ∧ (startSearch t0 s).ctrl = s.ctrl ∧ (startSearch t0 s).status = s.status
      ∧ (startSearch t0 s).srcBase = s.srcBase ∧ (startSearch t0 s).srcStride = s.srcStride
      ∧ (startSearch t0 s).frameSize = s.frameSize ∧ (startSearch t0 s).srcFmt = s.srcFmt
      ∧ (startSearch t0 s).fbGeom = s.fbGeom ∧ (startSearch t0 s).convRes = s.convRes
      ∧ (startSearch t0 s).scanRes = ({ s.scanRes with t0 := BitVec.ofNat 8 t0 })
      ∧ (startSearch t0 s).scanCnt = s.scanCnt ∧ (startSearch t0 s).resLen = s.resLen
      ∧ (startSearch t0 s).fsm = .scanBin ∧ (startSearch t0 s).op = s.op ∧ (startSearch t0 s).row = s.row
      ∧ (startSearch t0 s).t = t0 ∧ (startSearch t0 s).kind = .initial ∧ (startSearch t0 s).img = s.img
      ∧ (startSearch t0 s).res = s.res ∧ (startSearch t0 s).err = s.err ∧ (startSearch t0 s).decReq = s.decReq
      ∧ (startSearch t0 s).decRsp = s.decRsp ∧ (startSearch t0 s).src = s.src ∧ (startSearch t0 s).fb = s.fb
      ∧ (startSearch t0 s).agenda = s.agenda ∧ (startSearch t0 s).srcUnsettled = s.srcUnsettled
      ∧ (startSearch t0 s).fbRace = s.fbRace ∧ (startSearch t0 s).draws = s.draws ∧ (startSearch t0 s).reply = s.reply
      ∧ (startSearch t0 s).displaySeen = s.displaySeen :=
  ⟨rfl, rfl, rfl, rfl, rfl, rfl, rfl, rfl, rfl, rfl, rfl, rfl, rfl, rfl, rfl, rfl, rfl, rfl, rfl, rfl, rfl, rfl,
    rfl, rfl, rfl, rfl, rfl, rfl, rfl, rfl⟩

/-- An attempt is counted (40_scan.md R120). -/
@[simp] theorem countAttempt_fields (s : State) :
    (countAttempt s).cfg = s.cfg ∧ (countAttempt s).ctrl = s.ctrl ∧ (countAttempt s).status = s.status
      ∧ (countAttempt s).srcBase = s.srcBase ∧ (countAttempt s).srcStride = s.srcStride
      ∧ (countAttempt s).frameSize = s.frameSize ∧ (countAttempt s).srcFmt = s.srcFmt
      ∧ (countAttempt s).fbGeom = s.fbGeom ∧ (countAttempt s).convRes = s.convRes
      ∧ (countAttempt s).scanRes = ({ s.scanRes with thit := BitVec.ofNat 8 s.t })
      ∧ (countAttempt s).scanCnt = ({ s.scanCnt with attempts := s.scanCnt.attempts + 1#16 })
      ∧ (countAttempt s).resLen = s.resLen ∧ (countAttempt s).fsm = s.fsm ∧ (countAttempt s).op = s.op
      ∧ (countAttempt s).row = s.row ∧ (countAttempt s).t = s.t ∧ (countAttempt s).kind = s.kind
      ∧ (countAttempt s).img = s.img ∧ (countAttempt s).res = s.res ∧ (countAttempt s).err = s.err
      ∧ (countAttempt s).decReq = s.decReq ∧ (countAttempt s).decRsp = s.decRsp ∧ (countAttempt s).src = s.src
      ∧ (countAttempt s).fb = s.fb ∧ (countAttempt s).agenda = s.agenda
      ∧ (countAttempt s).srcUnsettled = s.srcUnsettled ∧ (countAttempt s).fbRace = s.fbRace
      ∧ (countAttempt s).draws = s.draws ∧ (countAttempt s).reply = s.reply
      ∧ (countAttempt s).displaySeen = s.displaySeen :=
  ⟨rfl, rfl, rfl, rfl, rfl, rfl, rfl, rfl, rfl, rfl, rfl, rfl, rfl, rfl, rfl, rfl, rfl, rfl, rfl, rfl, rfl, rfl,
    rfl, rfl, rfl, rfl, rfl, rfl, rfl, rfl⟩

/-- A found response is flagged (40_scan.md R121, R122). -/
@[simp] theorem noteFound_fields (o : Bool) (s : State) :
    (noteFound o s).cfg = s.cfg ∧ (noteFound o s).ctrl = s.ctrl ∧ (noteFound o s).status = s.status
      ∧ (noteFound o s).srcBase = s.srcBase ∧ (noteFound o s).srcStride = s.srcStride
      ∧ (noteFound o s).frameSize = s.frameSize ∧ (noteFound o s).srcFmt = s.srcFmt ∧ (noteFound o s).fbGeom = s.fbGeom
      ∧ (noteFound o s).convRes = s.convRes ∧ (noteFound o s).scanRes = ({ s.scanRes with found := true, opened := o })
      ∧ (noteFound o s).scanCnt = s.scanCnt ∧ (noteFound o s).resLen = s.resLen ∧ (noteFound o s).fsm = s.fsm
      ∧ (noteFound o s).op = s.op ∧ (noteFound o s).row = s.row ∧ (noteFound o s).t = s.t
      ∧ (noteFound o s).kind = s.kind ∧ (noteFound o s).img = s.img ∧ (noteFound o s).res = s.res
      ∧ (noteFound o s).err = s.err ∧ (noteFound o s).decReq = s.decReq ∧ (noteFound o s).decRsp = s.decRsp
      ∧ (noteFound o s).src = s.src ∧ (noteFound o s).fb = s.fb ∧ (noteFound o s).agenda = s.agenda
      ∧ (noteFound o s).srcUnsettled = s.srcUnsettled ∧ (noteFound o s).fbRace = s.fbRace
      ∧ (noteFound o s).draws = s.draws ∧ (noteFound o s).reply = s.reply ∧ (noteFound o s).displaySeen = s.displaySeen :=
  ⟨rfl, rfl, rfl, rfl, rfl, rfl, rfl, rfl, rfl, rfl, rfl, rfl, rfl, rfl, rfl, rfl, rfl, rfl, rfl, rfl, rfl, rfl,
    rfl, rfl, rfl, rfl, rfl, rfl, rfl, rfl⟩

/-- A row is counted (41_convert.md R166). -/
@[simp] theorem countRow_fields (r : Nat) (s : State) :
    (countRow r s).cfg = s.cfg ∧ (countRow r s).ctrl = s.ctrl ∧ (countRow r s).status = s.status
      ∧ (countRow r s).srcBase = s.srcBase ∧ (countRow r s).srcStride = s.srcStride
      ∧ (countRow r s).frameSize = s.frameSize ∧ (countRow r s).srcFmt = s.srcFmt ∧ (countRow r s).fbGeom = s.fbGeom
      ∧ (countRow r s).convRes = ({ s.convRes with rows := BitVec.ofNat 16 (r + 1) })
      ∧ (countRow r s).scanRes = s.scanRes ∧ (countRow r s).scanCnt = s.scanCnt ∧ (countRow r s).resLen = s.resLen
      ∧ (countRow r s).fsm = s.fsm ∧ (countRow r s).op = s.op ∧ (countRow r s).row = s.row ∧ (countRow r s).t = s.t
      ∧ (countRow r s).kind = s.kind ∧ (countRow r s).img = s.img ∧ (countRow r s).res = s.res
      ∧ (countRow r s).err = s.err ∧ (countRow r s).decReq = s.decReq ∧ (countRow r s).decRsp = s.decRsp
      ∧ (countRow r s).src = s.src ∧ (countRow r s).fb = s.fb ∧ (countRow r s).agenda = s.agenda
      ∧ (countRow r s).srcUnsettled = s.srcUnsettled ∧ (countRow r s).fbRace = s.fbRace
      ∧ (countRow r s).draws = s.draws ∧ (countRow r s).reply = s.reply ∧ (countRow r s).displaySeen = s.displaySeen :=
  ⟨rfl, rfl, rfl, rfl, rfl, rfl, rfl, rfl, rfl, rfl, rfl, rfl, rfl, rfl, rfl, rfl, rfl, rfl, rfl, rfl, rfl, rfl,
    rfl, rfl, rfl, rfl, rfl, rfl, rfl, rfl⟩

/-- A response is consumed and counted (40_scan.md R121, R122). -/
@[simp] theorem consume_fields (s : State) :
    (consume s).cfg = s.cfg ∧ (consume s).ctrl = s.ctrl ∧ (consume s).status = s.status
      ∧ (consume s).srcBase = s.srcBase ∧ (consume s).srcStride = s.srcStride ∧ (consume s).frameSize = s.frameSize
      ∧ (consume s).srcFmt = s.srcFmt ∧ (consume s).fbGeom = s.fbGeom ∧ (consume s).convRes = s.convRes
      ∧ (consume s).scanRes = s.scanRes ∧ (consume s).scanCnt = ({ s.scanCnt with calls := s.scanCnt.calls + 1#16 })
      ∧ (consume s).resLen = s.resLen ∧ (consume s).fsm = s.fsm ∧ (consume s).op = s.op ∧ (consume s).row = s.row
      ∧ (consume s).t = s.t ∧ (consume s).kind = s.kind ∧ (consume s).img = s.img ∧ (consume s).res = s.res
      ∧ (consume s).err = s.err ∧ (consume s).decReq = s.decReq ∧ (consume s).decRsp = none ∧ (consume s).src = s.src
      ∧ (consume s).fb = s.fb ∧ (consume s).agenda = s.agenda ∧ (consume s).srcUnsettled = s.srcUnsettled
      ∧ (consume s).fbRace = s.fbRace ∧ (consume s).draws = s.draws ∧ (consume s).reply = s.reply
      ∧ (consume s).displaySeen = s.displaySeen :=
  ⟨rfl, rfl, rfl, rfl, rfl, rfl, rfl, rfl, rfl, rfl, rfl, rfl, rfl, rfl, rfl, rfl, rfl, rfl, rfl, rfl, rfl, rfl,
    rfl, rfl, rfl, rfl, rfl, rfl, rfl, rfl⟩

/-- A found result is stored (40_scan.md R127). -/
@[simp] theorem store_fields (r : Response) (s : State) :
    (store r s).cfg = s.cfg ∧ (store r s).ctrl = s.ctrl ∧ (store r s).status = s.status
      ∧ (store r s).srcBase = s.srcBase ∧ (store r s).srcStride = s.srcStride ∧ (store r s).frameSize = s.frameSize
      ∧ (store r s).srcFmt = s.srcFmt ∧ (store r s).fbGeom = s.fbGeom ∧ (store r s).convRes = s.convRes
      ∧ (store r s).scanRes = s.scanRes ∧ (store r s).scanCnt = s.scanCnt
      ∧ (store r s).resLen = ({ len := BitVec.ofNat 16 (min r.bytes.length s.cfg.resCap), trunc := decide (r.bytes.length > s.cfg.resCap) })
      ∧ (store r s).fsm = s.fsm ∧ (store r s).op = s.op ∧ (store r s).row = s.row ∧ (store r s).t = s.t
      ∧ (store r s).kind = s.kind ∧ (store r s).img = s.img ∧ (store r s).res = (r.bytes.take s.cfg.resCap)
      ∧ (store r s).err = s.err ∧ (store r s).decReq = s.decReq ∧ (store r s).decRsp = s.decRsp
      ∧ (store r s).src = s.src ∧ (store r s).fb = s.fb ∧ (store r s).agenda = s.agenda
      ∧ (store r s).srcUnsettled = s.srcUnsettled ∧ (store r s).fbRace = s.fbRace ∧ (store r s).draws = s.draws
      ∧ (store r s).reply = s.reply ∧ (store r s).displaySeen = s.displaySeen :=
  ⟨rfl, rfl, rfl, rfl, rfl, rfl, rfl, rfl, rfl, rfl, rfl, rfl, rfl, rfl, rfl, rfl, rfl, rfl, rfl, rfl, rfl, rfl,
    rfl, rfl, rfl, rfl, rfl, rfl, rfl, rfl⟩

end Sys2Proof.Machine
end

