-- ==== Sys2Proof/Laws/Ops.lean ====
section
/-! SUPPORT. What the shared operations do: the issue of a command word, the ends of the phases, the block's accesses without a
race, and the addresses of the register window. -/

namespace Sys2Proof.Machine

/-! ## Command words -/

/-- A word that reaches an idle sequencer sets LASTOP and acts (30_encoding.md R92). -/
theorem issue_of_idle {op : BitVec 4} {f : State → State} {s : State} (h : s.status.busy = false) :
    issue op f s = f { s with status := { s.status with lastop := op } } := by
  simp [issue, h]

/-- A word that reaches a busy sequencer is dropped (30_encoding.md R94). -/
theorem issue_of_busy {op : BitVec 4} {f : State → State} {s : State} (h : s.status.busy = true) :
    issue op f s = overrun s := by
  simp [issue, h]

/-- Every command answers a next state: dropped while busy, else accepted. -/
theorem exec_eq (i : Instr) (s : State) :
    exec i s = .next (issue (opcodeOf i) (match i with
      | .nop => acceptNop
      | .convert => accept .convert
      | .scan => accept .scan
      | .frame => accept .frame) s) := by
  cases i <;> rfl

/-- Every write to CMD answers a next state. -/
theorem commandWrite_next (v : Word) (s : State) :
    ∃ (op : BitVec 4) (f : State → State), commandWrite v s = .next (issue op f s)
      ∧ (f = acceptNop ∨ f = acceptIllegal ∨ ∃ o, f = accept o) := by
  unfold commandWrite
  split
  · rename_i i _
    refine ⟨_, _, exec_eq i s, ?_⟩
    cases i <;> simp
  · exact ⟨opcodeField v, acceptIllegal, rfl, by simp⟩

/-- A word with an illegal field is no command (30_encoding.md R93). -/
theorem decodeWord_of_illegal {v : Word} (h : reservedField v ≠ 0#28 ∨ 4#4 ≤ opcodeField v) :
    ∃ e, decodeWord v = .error e := by
  unfold decodeWord
  by_cases hr : reservedField v = 0#28
  · have h4 : 4#4 ≤ opcodeField v := h.resolve_left fun hn => hn hr
    simp only [hr, ne_eq, not_true_eq_false, if_false]
    unfold decodeOpcode
    generalize opcodeField v = o at h4
    repeat (split; · rename_i ho; subst ho; exact absurd h4 (by decide))
    exact ⟨_, rfl⟩
  · simp [hr]

/-- A full table row's word is the word itself. -/
theorem tableWord_full (v : Word) : tableWord 32 v.toNat = v := by
  apply BitVec.eq_of_toNat_eq
  simp [tableWord, Nat.mod_eq_of_lt v.isLt]

/-! ## The register window -/

/-- A word-aligned offset of the window is answered (20_memory.md R66). -/
theorem window_offset {c : Config} (hc : c.regBase % 4 = 0) {off : Nat} (h4 : off % 4 = 0) (hlt : off < 4096) :
    inWindow c (c.regBase + off) = true ∧ wordAccess (c.regBase + off) 4 = true := by
  simp only [inWindow, wordAccess, Bool.and_eq_true, decide_eq_true_eq]
  exact ⟨⟨by omega, by omega⟩, trivial, by omega⟩

/-- A load from a word-aligned offset of the window (20_memory.md R67). -/
theorem hostLoad_offset {s : State} (hc : s.cfg.regBase % 4 = 0) {off : Nat} (h4 : off % 4 = 0) (hlt : off < 4096) :
    hostLoad (s.cfg.regBase + off) 4 s = { s with reply := .word (s.readReg (regAt off)) } := by
  obtain ⟨h1, h2⟩ := window_offset hc h4 hlt
  simp [hostLoad, h1, h2]

/-- A store to a word-aligned offset of the window. -/
theorem hostStore_offset {s : State} (hc : s.cfg.regBase % 4 = 0) {off : Nat} (h4 : off % 4 = 0) (hlt : off < 4096) (v : Word) :
    hostStore (s.cfg.regBase + off) 4 v s =
      match regAt off with
      | .cmd => commandWrite v { s with reply := .written }
      | r => .next ({ s with reply := .written }.writeReg v r) := by
  obtain ⟨h1, h2⟩ := window_offset hc h4 hlt
  unfold hostStore
  rw [if_pos h1, if_pos h2, Nat.add_sub_cancel_left]
  all_goals (cases regAt off <;> rfl)

/-- What a store to the bus can do: nothing but a reply, or, as an aligned word, a register write or a command word. -/
theorem hostStore_cases (addr size : Nat) (v : Word) (s : State) :
    (∃ r, hostStore addr size v s = .next { s with reply := r })
    ∨ (size = 4 ∧ s.cfg.regBase ≤ addr
      ∧ ((∃ r, regAt (addr - s.cfg.regBase) = r ∧ r ≠ .cmd
          ∧ hostStore addr size v s = .next ({ s with reply := .written }.writeReg v r))
        ∨ (regAt (addr - s.cfg.regBase) = .cmd ∧ hostStore addr size v s = commandWrite v { s with reply := .written }))) := by
  unfold hostStore
  split
  · rename_i hw
    simp only [inWindow, Bool.and_eq_true, decide_eq_true_eq] at hw
    split
    · rename_i ha
      simp only [wordAccess, Bool.and_eq_true, decide_eq_true_eq] at ha
      refine .inr ⟨ha.1, hw.1, ?_⟩
      split
      · rename_i hr
        exact .inr ⟨hr, rfl⟩
      · rename_i hr
        exact .inl ⟨_, rfl, fun h => hr h, rfl⟩
    · exact .inl ⟨_, rfl⟩
  · exact .inl ⟨_, rfl⟩

/-! ## Every operation on a memory keeps its canonical form -/

/-- The memories of the state after reset are canonical. -/
theorem reset_memories_wf : State.reset.src.wf = true ∧ State.reset.fb.wf = true := ⟨rfl, rfl⟩

/-- A row write by the block keeps FB canonical. -/
theorem blockWrite_wf {s : State} (h : s.fb.wf = true) (o : Nat) (v : List Byte) : (s.blockWrite o v).fb.wf = true :=
  Memory.wf_writeBytes h _ _

/-- A host write to SRC writes its bytes. -/
theorem writeSrc_src (s : State) (a : Nat) (l : List Byte) : (s.writeSrc a l).src = s.src.writeBytes a l := by
  induction l generalizing s a with
  | nil => rfl
  | cons b bs ih => exact ih _ _

/-- A host write to SRC changes SRC and its records only. -/
theorem writeSrc_eq (s : State) (a : Nat) (l : List Byte) :
    s.writeSrc a l = { s with src := (s.writeSrc a l).src, srcUnsettled := (s.writeSrc a l).srcUnsettled } := by
  induction l generalizing s a with
  | nil => rfl
  | cons b bs ih =>
    show State.writeSrc _ _ bs = _
    rw [ih]
    rfl

/-- A host write to SRC keeps SRC canonical. -/
theorem writeSrc_wf {s : State} (h : s.src.wf = true) (a : Nat) (l : List Byte) : (s.writeSrc a l).src.wf = true := by
  rw [writeSrc_src]
  exact Memory.wf_writeBytes h a l

/-- A host write of one byte to FB changes FB and its records only. -/
theorem hostWriteByte_eq (s : State) (o k : Nat) (b : Byte) :
    ∃ m r, s.hostWriteByte o k b = { s with fb := m, fbRace := r } := by
  unfold State.hostWriteByte
  split <;> exact ⟨_, _, rfl⟩

/-- A host write to FB changes FB and its records only. -/
theorem hostWrite_eq (s : State) (o k : Nat) (l : List Byte) : ∃ m r, s.hostWrite o k l = { s with fb := m, fbRace := r } := by
  induction l generalizing s o k with
  | nil => exact ⟨_, _, rfl⟩
  | cons b bs ih =>
    obtain ⟨m, r, h⟩ := hostWriteByte_eq s o k b
    obtain ⟨m', r', h'⟩ := ih (s.hostWriteByte o k b) (o + 1) (k + 1)
    exact ⟨m', r', h'.trans (by rw [h])⟩

/-- A host write of one byte to FB writes one byte there. -/
theorem hostWriteByte_fb (s : State) (o k : Nat) (b : Byte) : ∃ c, (s.hostWriteByte o k b).fb = s.fb.write o c := by
  unfold State.hostWriteByte
  split <;> exact ⟨_, rfl⟩

/-- A host write to FB keeps FB canonical. -/
theorem hostWrite_wf {s : State} (h : s.fb.wf = true) (o k : Nat) (l : List Byte) : (s.hostWrite o k l).fb.wf = true := by
  induction l generalizing s o k with
  | nil => exact h
  | cons b bs ih =>
    obtain ⟨c, hc⟩ := hostWriteByte_fb s o k b
    exact ih (by rw [hc]; exact Memory.wf_write h o c) _ _

/-- A reset inside a row write keeps FB canonical. -/
theorem cutRow_wf {s : State} (h : s.fb.wf = true) (landed : List Bool) : (s.cutRow landed).fb.wf = true := by
  unfold State.cutRow
  split
  · exact Memory.wf_writeBytes h _ _
  · exact h

/-! ## Races -/

/-- Without a host write under way, the end of a command has no race to close. -/
theorem closeRaces_of_settled {s : State} (h : s.settled) : s.closeRaces = s := by
  obtain ⟨h1, h2⟩ := h
  cases s
  simp only at h1 h2
  subst h1 h2
  rfl

/-- `complete()` without a host write under way (60_exceptions.md R222). -/
theorem complete_of_settled {s : State} (h : s.settled) :
    complete s = { s with status := s.status.complete s.err, fsm := .idle } :=
  closeRaces_of_settled (s := { s with status := s.status.complete s.err, fsm := .idle }) h

/-- The end of the scan phase of FRAME is the start of its convert phase (40_scan.md R130). -/
theorem endScanPhase_frame {s : State} (ho : s.op = .frame) :
    endScanPhase s = { s with status := { s.status with phase := .convert }, fsm := .convEntry } := by
  unfold endScanPhase
  split
  · rfl
  · simp_all
  · simp_all

/-- The end of the scan phase of any other command is its completion (40_scan.md R130). -/
theorem endScanPhase_else {s : State} (ho : s.op ≠ .frame) : endScanPhase s = complete s := by
  unfold endScanPhase
  split
  · exact absurd ‹_› ho
  · rfl
  · rfl

/-- After the initial attempt the loop begins at the same threshold (40_scan.md R123). -/
theorem nextLevel_initial {s : State} (hk : s.kind = .initial) (ht : s.scanRes.t0.toNat < Config.tceil) :
    nextLevel s = nextAttempt s.scanRes.t0.toNat s := by
  unfold nextLevel
  split
  · exact if_neg (Nat.not_le_of_lt ht)
  · simp_all

/-- A loop attempt is followed by the next threshold below the ceiling (40_scan.md R123). -/
theorem nextLevel_more {s : State} (hk : s.kind = .loop) (ht : s.t + s.cfg.step < Config.tceil) :
    nextLevel s = nextAttempt (s.t + s.cfg.step) s := by
  unfold nextLevel
  split
  · simp_all
  · exact if_pos ht

/-- At the ceiling the search ends (40_scan.md R123). -/
theorem nextLevel_end {s : State} (hk : s.kind = .loop) (ht : Config.tceil ≤ s.t + s.cfg.step) :
    nextLevel s = endScanPhase { s with t := s.t + s.cfg.step } := by
  unfold nextLevel
  split
  · simp_all
  · exact if_neg (Nat.not_lt_of_le ht)

/-- A found response has the status OK and a byte (40_scan.md R128). -/
theorem found_iff {r : Response} : found r = true ↔ r.status = .ok ∧ r.bytes ≠ [] := by
  simp [found, List.length_pos_iff]

/-- Without a host write under way, the block reads what SRC holds (20_memory.md R62). -/
theorem blockRead_of_settled {s : State} (h : s.srcUnsettled = []) (y k a : Nat) : s.blockRead y k a = s.src.read a := by
  simp [State.blockRead, h, lookupKey]

/-- Without a contending host write, what the block writes stays (20_memory.md R63). -/
theorem blockBytes_of_settled {s : State} (h : s.fbRace = []) (o : Nat) (v : List Byte) : s.blockBytes o v = v := by
  apply List.ext_getElem?
  simp [State.blockBytes, State.blockByte, h, lookupKey]

@[simp] theorem blockBytes_length (s : State) (o : Nat) (v : List Byte) : (s.blockBytes o v).length = v.length := by
  simp [State.blockBytes]

/-- The luminance of a settled frame is that of the bytes in SRC (40_scan.md R111). -/
theorem luma_of_settled {s : State} (h : s.srcUnsettled = []) : s.luma = s.frameLuma := by
  unfold State.luma State.frameLuma
  congr 1
  funext x y
  simp only [State.lumaAt, blockRead_of_settled h]

/-- The row bytes of a settled frame are those of the bytes in SRC (41_convert.md R163). -/
theorem rowBytes_of_settled {s : State} (h : s.srcUnsettled = []) (r : Nat) : s.rowBytes r = s.frameRow r := by
  unfold State.rowBytes State.frameRow
  congr 1
  funext x
  simp only [State.pixelOut, blockRead_of_settled h]

/-! ## Rows -/

@[simp] theorem pixelBytes_length (bpp : Nat) (b g r : Byte) : (pixelBytes bpp b g r).length = if bpp = 16 then 2 else 4 := by
  unfold pixelBytes
  split <;> rfl

/-- A list of equally long pieces: its length. -/
theorem length_pieces {β : Type} (w n : Nat) (f : Nat → List β) (h : ∀ x < w, (f x).length = n) :
    ((List.range w).flatMap f).length = n * w := by
  induction w with
  | zero => simp
  | succ k ih =>
    rw [List.range_succ, List.flatMap_append, List.length_append, ih fun x hx => h x (by omega)]
    simp [h k (by omega), Nat.mul_succ]

/-- A list of equally long pieces: its entries. -/
theorem getElem?_pieces {β : Type} (w n : Nat) (f : Nat → List β) (h : ∀ x < w, (f x).length = n) {x j : Nat} (hx : x < w)
    (hj : j < n) : ((List.range w).flatMap f)[n * x + j]? = (f x)[j]? := by
  induction w with
  | zero => omega
  | succ k ih =>
    have hk : ∀ x < k, (f x).length = n := fun x hx => h x (by omega)
    rw [List.range_succ, List.flatMap_append]
    by_cases hlt : x < k
    · have hin : n * x + j < n * k := by
        have := Nat.mul_le_mul_left n (show x + 1 ≤ k by omega)
        rw [Nat.mul_succ] at this
        omega
      rw [List.getElem?_append_left (by rw [length_pieces k n f hk]; exact hin), ih hk hlt]
    · have hxk : x = k := by omega
      subst hxk
      rw [List.getElem?_append_right (by rw [length_pieces x n f hk]; omega), length_pieces x n f hk, Nat.add_sub_cancel_left]
      simp

/-- The bytes a row is written as: `W * Bpp` of them (41_convert.md R166). -/
theorem frameRow_length {s : State} (h : s.bpp = 16 ∨ s.bpp = 32) (r : Nat) : (s.frameRow r).length = s.rowLength := by
  unfold State.frameRow State.rowLength State.bytesPerPixel
  rw [length_pieces _ (if s.bpp = 16 then 2 else 4) _ fun x _ => pixelBytes_length _ _ _ _, Nat.mul_comm]
  rcases h with h | h <;> simp [h]

theorem rowBytes_length {s : State} (h : s.bpp = 16 ∨ s.bpp = 32) (r : Nat) : (s.rowBytes r).length = s.rowLength := by
  unfold State.rowBytes State.rowLength State.bytesPerPixel
  rw [length_pieces _ (if s.bpp = 16 then 2 else 4) (s.pixelOut r) fun x _ => pixelBytes_length _ _ _ _, Nat.mul_comm]
  rcases h with h | h <;> simp [h]

/-- What a convert phase past its prechecks relies on (41_convert.md R160). -/
theorem convertCheck_none {s : State} (h : s.convertCheck = none) :
    s.channels = 3 ∧ s.depth = 8 ∧ (s.bpp = 16 ∨ s.bpp = 32) ∧ ¬(s.ctrl.wchk = true ∧ s.frameW > s.vwidth)
      ∧ s.fbInside = true ∧ s.srcInside 3 = true := by
  unfold State.convertCheck at h
  split at h
  · cases h
  · split at h
    · cases h
    · split at h
      · cases h
      · split at h
        · cases h
        · split at h
          · cases h
          · rename_i h1 h2 h3 h4 h5
            refine ⟨by omega, by omega, by omega, h3, by simpa using h4, by simpa using h5⟩

/-- What a scan phase past its prechecks relies on (40_scan.md R110). -/
theorem scanCheck_none {s : State} (h : s.scanCheck = none) :
    s.depth = 8 ∧ (s.channels = 1 ∨ s.channels = 3) ∧ s.frameW * s.frameH ≤ s.cfg.scanMaxPixels
      ∧ s.srcInside s.channels = true := by
  unfold State.scanCheck at h
  split at h
  · cases h
  · split at h
    · cases h
    · split at h
      · cases h
      · rename_i h1 h2 h3
        refine ⟨by omega, by omega, by omega, by simpa using h3⟩

/-- The source range check (41_convert.md R162). -/
theorem srcInside_iff {s : State} {ch : Nat} :
    s.srcInside ch = true ↔ (0 < s.frameW → 0 < s.frameH → s.srcEnd ch ≤ s.cfg.srcSize) := by
  simp only [State.srcInside, State.hasPixels, Bool.or_eq_true, Bool.not_eq_true', Bool.and_eq_false_iff,
    decide_eq_false_iff_not, decide_eq_true_eq]
  tauto

/-- The framebuffer range check (41_convert.md R162). -/
theorem fbInside_iff {s : State} :
    s.fbInside = true ↔ (0 < s.frameW → 0 < s.frameH → s.fbEnd ≤ s.cfg.fbSize) := by
  simp only [State.fbInside, State.hasPixels, Bool.or_eq_true, Bool.not_eq_true', Bool.and_eq_false_iff,
    decide_eq_false_iff_not, decide_eq_true_eq]
  tauto

theorem insideSpace_iff {size a n : Nat} : insideSpace size a n = true ↔ n = 0 ∨ a + n ≤ size := by
  simp [insideSpace]

/-- Past the prechecks every row is read inside SRC and written inside FB (20_memory.md R62, R63, 41_convert.md R162). -/
theorem row_inside {s : State} (h : s.convertCheck = none) {r : Nat} (hr : r < s.frameH) :
    s.rowReadable r = true ∧ s.rowWritable r = true := by
  obtain ⟨-, -, hb, -, hf, hs⟩ := convertCheck_none h
  rw [srcInside_iff] at hs
  rw [fbInside_iff] at hf
  unfold State.rowReadable State.rowWritable
  rw [insideSpace_iff, insideSpace_iff, rowBytes_length hb]
  have hmul : ∀ n, r * n ≤ (s.frameH - 1) * n := fun n => Nat.mul_le_mul_right n (by omega)
  have h1 := hmul s.srcStride.toNat
  have h2 := hmul (s.vwidth * s.bytesPerPixel)
  rw [← Nat.mul_assoc, ← Nat.mul_assoc] at h2
  simp only [State.fbEnd, State.srcEnd, State.rowOffset, State.rowLength, State.pixelAddr] at *
  by_cases hw : s.frameW = 0
  · simp [hw]
  · have hs := hs (by omega) (by omega)
    have hf := hf (by omega) (by omega)
    exact ⟨.inr (by omega), .inr (by omega)⟩

/-- The row write of a settled convert phase (41_convert.md R166). -/
theorem writeRow_of_settled {s : State} (h : s.settled) (r : Nat) :
    s.writeRow r = { s with fb := s.fb.writeBytes (s.rowOffset r) (s.frameRow r) } := by
  unfold State.writeRow State.blockWrite
  rw [blockBytes_of_settled h.2, rowBytes_of_settled h.1, h.2]
  have h2 := h.2
  cases s
  simp only at h2
  subst h2
  rfl

theorem finishRow_more {r : Nat} {s : State} (h : r + 1 < s.frameH) : finishRow r s = { s with row := r + 1 } := by
  unfold finishRow
  rw [if_pos h]

theorem finishRow_last {r : Nat} {s : State} (h : ¬ r + 1 < s.frameH) : finishRow r s = complete s := by
  unfold finishRow
  rw [if_neg h]
  rfl

/-- The state once the bytes of row `r` of a settled frame are in FB and the row is counted (41_convert.md R166). -/
def State.rowDone (s : State) (r : Nat) : State :=
  { s with
    fb := s.fb.writeBytes (s.rowOffset r) (s.frameRow r)
    convRes := { s.convRes with rows := BitVec.ofNat 16 (r + 1) }
    draws := s.draws + 1 }

/-- Step CONV_ROW past its prechecks in a settled state (41_convert.md R166). -/
theorem convRow_of_settled {s : State} (h : s.settled) (hc : s.convertCheck = none) (hr : s.row < s.frameH) :
    convRow s = .next (finishRow s.row (s.rowDone s.row)) := by
  obtain ⟨h1, h2⟩ := row_inside hc hr
  unfold convRow
  rw [h1, h2, writeRow_of_settled h]
  rfl

/-- Step CONV_ROW before the last row of a settled frame: the next row follows. -/
theorem convRow_more {s : State} (h : s.settled) (hc : s.convertCheck = none) (hr : s.row + 1 < s.frameH) :
    convRow s = .next { s.rowDone s.row with row := s.row + 1 } := by
  rw [convRow_of_settled h hc (by omega), finishRow_more (s := s.rowDone s.row) hr]

/-- Step CONV_ROW at the last row of a settled frame: the command completes. -/
theorem convRow_last {s : State} (h : s.settled) (hc : s.convertCheck = none) (hr : s.row + 1 = s.frameH) :
    convRow s = .next { s.rowDone s.row with status := s.status.complete s.err, fsm := .idle } := by
  rw [convRow_of_settled h hc (by omega), finishRow_last (s := s.rowDone s.row) (show ¬ s.row + 1 < s.frameH by omega),
    complete_of_settled (s := s.rowDone s.row) h]
  rfl

end Sys2Proof.Machine
end

