-- ==== Sys2Proof/Laws/Registers.lean ====
section
/-! SUPPORT. The offsets of CMD and STATUS, and the bits of the register words: each word as the concatenation of its fields, in the width of that
concatenation, so that the lemmas about appended bit vectors apply. -/

namespace Sys2Proof.Machine

theorem ite_else {c : Prop} [Decidable c] {a b r : Reg} (h : (if c then a else b) = r) (ha : a ≠ r) : b = r := by
  by_cases hc : c
  · rw [if_pos hc] at h
    exact absurd h ha
  · rwa [if_neg hc] at h

/-- Only offset 0x008 names CMD. -/
theorem regAt_cmd {off : Nat} (h : regAt off = .cmd) : off = 0x008 := by
  by_contra hn
  have h := ite_else (ite_else h (by simp)) (by simp)
  rw [if_neg hn] at h
  repeat replace h := ite_else h (by simp)
  simp at h

/-- Only offset 0x004 names STATUS. -/
theorem regAt_status {off : Nat} (h : regAt off = .status) : off = 0x004 := by
  by_contra hn
  have h := ite_else h (by simp)
  rw [if_neg hn] at h
  repeat replace h := ite_else h (by simp)
  simp at h

theorem Ctrl.word_bit (c : Ctrl) (i : Nat) :
    c.word.getLsbD i = BitVec.getLsbD (0#30 ++ BitVec.ofBool c.wchk ++ BitVec.ofBool c.ie : BitVec (30 + 1 + 1)) i := rfl

theorem Status.word_bit (st : Status) (i : Nat) :
    st.word.getLsbD i = BitVec.getLsbD (0#16 ++ st.lastop ++ 0#2 ++ st.phase.code ++ 0#3 ++ BitVec.ofBool st.ovr
      ++ BitVec.ofBool st.ill ++ BitVec.ofBool st.err ++ BitVec.ofBool st.done ++ BitVec.ofBool st.busy
      : BitVec (16 + 4 + 2 + 2 + 3 + 1 + 1 + 1 + 1 + 1)) i := rfl

theorem FrameSize.word_bit (f : FrameSize) (i : Nat) :
    f.word.getLsbD i = BitVec.getLsbD (f.h ++ f.w : BitVec (16 + 16)) i := rfl

theorem SrcFmt.word_bit (f : SrcFmt) (i : Nat) :
    f.word.getLsbD i = BitVec.getLsbD (0#16 ++ f.depth ++ f.channels : BitVec (16 + 8 + 8)) i := rfl

theorem FbGeom.word_bit (g : FbGeom) (i : Nat) :
    g.word.getLsbD i = BitVec.getLsbD (0#8 ++ g.bpp ++ g.vwidth : BitVec (8 + 8 + 16)) i := rfl

theorem ConvRes.word_bit (r : ConvRes) (i : Nat) :
    r.word.getLsbD i = BitVec.getLsbD (r.rows ++ 0#12 ++ r.cerr.code : BitVec (16 + 12 + 4)) i := rfl

theorem ScanRes.word_bit (r : ScanRes) (i : Nat) :
    r.word.getLsbD i = BitVec.getLsbD (0#8 ++ r.thit ++ r.t0 ++ r.serr.code ++ 0#2 ++ BitVec.ofBool r.opened
      ++ BitVec.ofBool r.found : BitVec (8 + 8 + 8 + 4 + 2 + 1 + 1)) i := rfl

theorem ScanCnt.word_bit (c : ScanCnt) (i : Nat) :
    c.word.getLsbD i = BitVec.getLsbD (c.calls ++ c.attempts : BitVec (16 + 16)) i := rfl

theorem ResLen.word_bit (l : ResLen) (i : Nat) :
    l.word.getLsbD i = BitVec.getLsbD (BitVec.ofBool l.trunc ++ 0#15 ++ l.len : BitVec (1 + 15 + 16)) i := rfl

theorem capsWord_bit (c : Config) (i : Nat) :
    (capsWord c).getLsbD i = BitVec.getLsbD (BitVec.ofNat 16 c.resCap ++ BitVec.ofNat 8 Config.tceil ++ BitVec.ofNat 8 c.step
      : BitVec (16 + 8 + 8)) i := rfl

theorem wordOfBytes_bit (b0 b1 b2 b3 : Byte) (i : Nat) :
    (wordOfBytes b0 b1 b2 b3).getLsbD i = BitVec.getLsbD (b3 ++ b2 ++ b1 ++ b0 : BitVec (8 + 8 + 8 + 8)) i := rfl

/-- A field of a word is the bits of the word from its place on. -/
theorem field_eq {x : Word} {n lo : Nat} {y : BitVec n} (h : ∀ i < n, x.getLsbD (lo + i) = y.getLsbD i) :
    x.extractLsb' lo n = y := by
  apply BitVec.eq_of_getLsbD_eq
  intro i hi
  simp [hi, h i hi]

end Sys2Proof.Machine
end

