-- ==== Sys2Proof/Laws/Flags.lean ====
section
/-! SUPPORT. What each agent's step can do to the flags of 10_state.md R42. -/

namespace Sys2Proof.Machine

/-- The flags BUSY, DONE and ERR are left alone, or the command completes. -/
def StatusKeptOrCompleted (s t : State) : Prop :=
  (t.status.busy = s.status.busy ∧ t.status.done = s.status.done ∧ t.status.err = s.status.err)
    ∨ (t.fsm = .idle ∧ t.status.busy = false ∧ t.status.done = true ∧ t.status.err = t.err)

/-- FOUND, OPENED and TRUNC are left alone, or a found response ends the scan phase. -/
def ResultKeptOrFound (s t : State) : Prop :=
  (t.scanRes.found = s.scanRes.found ∧ t.scanRes.opened = s.scanRes.opened ∧ t.resLen.trunc = s.resLen.trunc)
    ∨ (s.fsm.waiting = true ∧ t.fsm.scanning = false ∧ t.scanRes.found = true
      ∧ ∃ r, s.decRsp = some r ∧ t.resLen.trunc = decide (r.bytes.length > s.cfg.resCap))

/-- The end of a scan phase leaves the result flags, ILL and OVR alone, and no scan phase runs after it. -/
theorem endScanPhase_flags (u : State) :
    (endScanPhase u).fsm.scanning = false ∧ (endScanPhase u).scanRes = u.scanRes ∧ (endScanPhase u).resLen = u.resLen
      ∧ (endScanPhase u).status.ill = u.status.ill ∧ (endScanPhase u).status.ovr = u.status.ovr
      ∧ StatusKeptOrCompleted u (endScanPhase u) := by
  by_cases h : u.op = .frame
  · rw [endScanPhase_frame h]
    exact ⟨rfl, rfl, rfl, rfl, rfl, .inl ⟨rfl, rfl, rfl⟩⟩
  · rw [endScanPhase_else h]
    exact ⟨rfl, rfl, rfl, rfl, rfl, .inr ⟨rfl, rfl, rfl, rfl⟩⟩

/-- What the step after a search's last answer of an attempt does to the flags. -/
theorem nextLevel_flags (u : State) :
    (nextLevel u).scanRes = u.scanRes ∧ (nextLevel u).resLen = u.resLen ∧ (nextLevel u).status.ill = u.status.ill
      ∧ (nextLevel u).status.ovr = u.status.ovr ∧ StatusKeptOrCompleted u (nextLevel u) := by
  unfold nextLevel
  split
  · split
    · exact (endScanPhase_flags u).2
    · exact ⟨rfl, rfl, rfl, rfl, .inl ⟨rfl, rfl, rfl⟩⟩
  · split
    · exact ⟨rfl, rfl, rfl, rfl, .inl ⟨rfl, rfl, rfl⟩⟩
    · exact (endScanPhase_flags _).2

/-- What an engine step can do to the flags: it leaves ILL and OVR alone; it leaves BUSY, DONE and ERR alone or completes the
command; it leaves FOUND, OPENED and TRUNC alone or ends the scan phase with a found response. -/
theorem engineStep_flags {s t : State} (h : engineStep s = .next t) :
    t.status.ill = s.status.ill ∧ t.status.ovr = s.status.ovr ∧ StatusKeptOrCompleted s t ∧ ResultKeptOrFound s t := by
  have kept : ∀ u : State, u.status = s.status → u.scanRes.found = s.scanRes.found → u.scanRes.opened = s.scanRes.opened →
      u.resLen = s.resLen → u.status.ill = s.status.ill ∧ u.status.ovr = s.status.ovr ∧ StatusKeptOrCompleted s u
        ∧ ResultKeptOrFound s u := fun u h1 h2 h3 h4 => by
    rw [StatusKeptOrCompleted, ResultKeptOrFound, h1, h2, h3, h4]
    exact ⟨rfl, rfl, .inl ⟨rfl, rfl, rfl⟩, .inl ⟨rfl, rfl, rfl⟩⟩
  have hit : ∀ r o, s.fsm.waiting = true → s.decRsp = some r → t = finishFound r o s →
      t.status.ill = s.status.ill ∧ t.status.ovr = s.status.ovr ∧ StatusKeptOrCompleted s t ∧ ResultKeptOrFound s t := by
    rintro r o hw hr rfl
    obtain ⟨e1, e2, e3, e4, e5, e6⟩ := endScanPhase_flags (noteFound o (store r (consume s)))
    exact ⟨e4, e5, e6, .inr ⟨hw, e1, congrArg ScanRes.found e2, r, hr, congrArg ResLen.trunc e3⟩⟩
  unfold engineStep at h
  split at h
  · cases h; exact kept _ rfl rfl rfl rfl
  · unfold scanEntry at h
    split at h <;> cases h
    · rename_i e _
      obtain ⟨-, e2, e3, e4, e5, e6⟩ := endScanPhase_flags { s with scanRes := { s.scanRes with serr := e }, err := true }
      exact ⟨e4, e5, e6, .inl ⟨(congrArg ScanRes.found e2 :), (congrArg ScanRes.opened e2 :), congrArg ResLen.trunc e3⟩⟩
    · generalize otsu (hist s.luma) = t0
      exact kept _ rfl rfl rfl rfl
  · unfold scanBin at h
    split at h <;> cases h
    exact kept _ rfl rfl rfl rfl
  · rename_i hf
    unfold scanWaitPlain at h
    split at h
    · cases h; exact kept _ rfl rfl rfl rfl
    · rename_i r hr
      split at h <;> cases h
      · exact hit r false (by rw [hf]; rfl) hr rfl
      · exact kept _ rfl rfl rfl rfl
  · rename_i hf
    unfold scanWaitOpen at h
    split at h
    · cases h; exact kept _ rfl rfl rfl rfl
    · rename_i r hr
      split at h <;> cases h
      · exact hit r true (by rw [hf]; rfl) hr rfl
      · obtain ⟨e2, e3, e4, e5, e6⟩ := nextLevel_flags (consume s)
        exact ⟨e4, e5, e6, .inl ⟨congrArg ScanRes.found e2, congrArg ScanRes.opened e2, congrArg ResLen.trunc e3⟩⟩
  · unfold convEntry at h
    split at h
    · cases h; exact ⟨rfl, rfl, .inr ⟨rfl, rfl, rfl, rfl⟩, .inl ⟨rfl, rfl, rfl⟩⟩
    · split at h <;> cases h
      · exact ⟨rfl, rfl, .inr ⟨rfl, rfl, rfl, rfl⟩, .inl ⟨rfl, rfl, rfl⟩⟩
      · exact kept _ rfl rfl rfl rfl
  · unfold convRow at h
    split at h
    · cases h
    · split at h <;> cases h
      unfold finishRow
      split
      · exact kept _ rfl rfl rfl rfl
      · exact ⟨rfl, rfl, .inr ⟨rfl, rfl, rfl, rfl⟩, .inl ⟨rfl, rfl, rfl⟩⟩

/-- The offsets of the configuration registers (10_state.md R41). -/
def configOffsets : List Nat := [0x00C, 0x010, 0x014, 0x018, 0x01C]

/-- Only these offsets name a configuration register. -/
theorem regAt_config {off : Nat}
    (h : regAt off = .srcBase ∨ regAt off = .srcStride ∨ regAt off = .frameSize ∨ regAt off = .srcFmt ∨ regAt off = .fbGeom) :
    off ∈ configOffsets := by
  by_contra hn
  simp only [configOffsets, List.mem_cons, List.mem_nil_iff, or_false, not_or] at hn
  obtain ⟨n1, n2, n3, n4, n5⟩ := hn
  rcases h with h | h | h | h | h
  all_goals
    iterate 3 replace h := ite_else h (by simp)
    rw [if_neg n1, if_neg n2, if_neg n3, if_neg n4, if_neg n5] at h
    repeat replace h := ite_else h (by simp)
    simp at h

/-- What a write to a register other than CMD can do to the flags: a write to STATUS clears those whose bit is 1, a write to a
configuration register of a busy block sets OVR, and nothing else changes one. -/
theorem writeReg_flags (s : State) (v : Word) (off : Nat) :
    (s.writeReg v (regAt off)).scanRes = s.scanRes ∧ (s.writeReg v (regAt off)).resLen = s.resLen
      ∧ ((s.writeReg v (regAt off)).status = s.status
        ∨ (off = 0x004 ∧ (s.writeReg v (regAt off)).status = s.status.acknowledge v)
        ∨ (off ∈ configOffsets ∧ s.status.busy = true ∧ (s.writeReg v (regAt off)).status = s.status.overrun)) := by
  have config : ∀ u : State, u.status = s.status → u.scanRes = s.scanRes → u.resLen = s.resLen → off ∈ configOffsets →
      (writeConfig u s).scanRes = s.scanRes ∧ (writeConfig u s).resLen = s.resLen
      ∧ ((writeConfig u s).status = s.status ∨ (off = 0x004 ∧ (writeConfig u s).status = s.status.acknowledge v)
        ∨ (off ∈ configOffsets ∧ s.status.busy = true ∧ (writeConfig u s).status = s.status.overrun)) := by
    intro u h1 h2 h3 h4
    unfold writeConfig
    split
    · rename_i hb
      exact ⟨rfl, rfl, .inr (.inr ⟨h4, hb, rfl⟩)⟩
    · exact ⟨h2, h3, .inl h1⟩
  have hc := @regAt_config off
  cases hr : regAt off
  case status => exact ⟨rfl, rfl, .inr (.inl ⟨regAt_status hr, rfl⟩)⟩
  case srcBase => exact config _ rfl rfl rfl (hc (.inl hr))
  case srcStride => exact config _ rfl rfl rfl (hc (.inr (.inl hr)))
  case frameSize => exact config _ rfl rfl rfl (hc (.inr (.inr (.inl hr))))
  case srcFmt => exact config _ rfl rfl rfl (hc (.inr (.inr (.inr (.inl hr)))))
  case fbGeom => exact config _ rfl rfl rfl (hc (.inr (.inr (.inr (.inr hr)))))
  all_goals exact ⟨rfl, rfl, .inl rfl⟩

end Sys2Proof.Machine
end

