-- ==== Sys2Proof/Laws/Image.lean ====
section
/-! SUPPORT. What the image functions of the scanner give: sizes, pixels, and the members of a neighbourhood. -/

namespace Sys2Proof.Machine

@[simp] theorem Image.ofFn_w (w h : Nat) (f : Nat → Nat → Byte) : (Image.ofFn w h f).w = w := rfl

@[simp] theorem Image.ofFn_h (w h : Nat) (f : Nat → Nat → Byte) : (Image.ofFn w h f).h = h := rfl

/-- A row-major list built row by row: its length. -/
theorem length_rows {β : Type} (w h : Nat) (f : Nat → Nat → β) :
    ((List.range h).flatMap fun y => (List.range w).map fun x => f x y).length = w * h := by
  induction h with
  | zero => simp
  | succ n ih => rw [List.range_succ, List.flatMap_append, List.length_append, ih]; simp [Nat.mul_succ]

/-- A row-major list built row by row: its entries. -/
theorem getElem?_rows {β : Type} (w h : Nat) (f : Nat → Nat → β) {x y : Nat} (hx : x < w) (hy : y < h) :
    ((List.range h).flatMap fun y => (List.range w).map fun x => f x y)[y * w + x]? = some (f x y) := by
  induction h with
  | zero => omega
  | succ n ih =>
    rw [List.range_succ, List.flatMap_append]
    by_cases h : y < n
    · have hlt : y * w + x < w * n := by
        have := Nat.mul_le_mul_left w (show y + 1 ≤ n by omega)
        rw [Nat.mul_succ, Nat.mul_comm w y] at this
        omega
      rw [List.getElem?_append_left (by rw [length_rows]; exact hlt), ih h]
    · have hyn : y = n := by omega
      subst hyn
      rw [List.getElem?_append_right (by rw [length_rows, Nat.mul_comm]; omega), length_rows, Nat.mul_comm y w,
        Nat.add_sub_cancel_left]
      simp [hx]

@[simp] theorem Image.ofFn_wf (w h : Nat) (f : Nat → Nat → Byte) : (Image.ofFn w h f).wf = true :=
  decide_eq_true (length_rows w h f)

@[simp] theorem Image.ofFn_length (w h : Nat) (f : Nat → Nat → Byte) : (Image.ofFn w h f).px.length = w * h :=
  length_rows w h f

theorem Image.ofFn_pixel (w h : Nat) (f : Nat → Nat → Byte) {x y : Nat} (hx : x < w) (hy : y < h) :
    (Image.ofFn w h f).pixel x y = f x y := by
  simp only [Image.pixel, Image.ofFn, List.getD_eq_getElem?_getD]
  rw [getElem?_rows w h f hx hy]
  rfl

theorem Image.mem_ofFn {w h : Nat} {f : Nat → Nat → Byte} {b : Byte} (hb : b ∈ (Image.ofFn w h f).px) :
    ∃ x y, x < w ∧ y < h ∧ b = f x y := by
  simp only [Image.ofFn, List.mem_flatMap, List.mem_map, List.mem_range] at hb
  obtain ⟨y, hy, x, hx, rfl⟩ := hb
  exact ⟨x, y, hx, hy, rfl⟩

/-- Two functions that agree inside give the same image. -/
theorem Image.ofFn_congr {w h : Nat} {f g : Nat → Nat → Byte} (e : ∀ x < w, ∀ y < h, f x y = g x y) :
    Image.ofFn w h f = Image.ofFn w h g := by
  unfold Image.ofFn
  congr 1
  refine List.flatMap_congr fun y hy => List.map_congr_left fun x hx => ?_
  exact e x (List.mem_range.mp hx) y (List.mem_range.mp hy)

theorem mem_near {n v k : Nat} : k ∈ near n v ↔ k < n ∧ k ≤ v + 1 ∧ v ≤ k + 1 := by
  simp only [near, List.mem_map, List.mem_filter, List.mem_range, decide_eq_true_eq]
  constructor
  · rintro ⟨a, ⟨⟨d, hd, rfl⟩, h1, h2⟩, rfl⟩
    omega
  · rintro ⟨h1, h2, h3⟩
    exact ⟨k + 1, ⟨⟨k + 1 - v, by omega, by omega⟩, by omega⟩, by omega⟩

/-- The values of the 3×3 neighbourhood (40_scan.md R116). -/
theorem Image.mem_around {i : Image} {x y : Nat} {b : Byte} :
    b ∈ i.around x y ↔ ∃ x' y', x' < i.w ∧ y' < i.h ∧ x' ≤ x + 1 ∧ x ≤ x' + 1 ∧ y' ≤ y + 1 ∧ y ≤ y' + 1
      ∧ i.pixel x' y' = b := by
  simp only [Image.around, List.mem_flatMap, List.mem_map, mem_near]
  constructor
  · rintro ⟨y', hy, x', hx, h⟩
    exact ⟨x', y', hx.1, hy.1, hx.2.1, hx.2.2, hy.2.1, hy.2.2, h⟩
  · rintro ⟨x', y', h1, h2, h3, h4, h5, h6, h⟩
    exact ⟨y', ⟨h2, h5, h6⟩, x', ⟨h1, h3, h4⟩, h⟩

theorem byteMin_toNat (a b : Byte) : (byteMin a b).toNat = min a.toNat b.toNat := by
  unfold byteMin
  split <;> rename_i h <;> rw [BitVec.le_def] at h <;> omega

theorem byteMax_toNat (a b : Byte) : (byteMax a b).toNat = max a.toNat b.toNat := by
  unfold byteMax
  split <;> rename_i h <;> rw [BitVec.le_def] at h <;> omega

/-- The fold of `byteMin` is a lower bound of its list and its start, and one of them. -/
theorem foldl_byteMin (l : List Byte) (b : Byte) :
    (∀ c ∈ b :: l, (l.foldl byteMin b).toNat ≤ c.toNat) ∧ l.foldl byteMin b ∈ b :: l := by
  induction l generalizing b with
  | nil => simp
  | cons a t ih =>
    obtain ⟨h1, h2⟩ := ih (byteMin b a)
    have hm := h1 (byteMin b a) (by simp)
    rw [byteMin_toNat] at hm
    refine ⟨fun c hc => ?_, ?_⟩
    · simp only [List.foldl_cons, List.mem_cons] at hc ⊢
      rcases hc with rfl | rfl | hc
      · omega
      · omega
      · exact h1 c (by simp [hc])
    · simp only [List.foldl_cons, List.mem_cons] at h2 ⊢
      rcases h2 with h2 | h2
      · rw [h2]
        unfold byteMin
        split <;> simp
      · exact .inr (.inr h2)

/-- The fold of `byteMax` is an upper bound of its list and its start, and one of them. -/
theorem foldl_byteMax (l : List Byte) (b : Byte) :
    (∀ c ∈ b :: l, c.toNat ≤ (l.foldl byteMax b).toNat) ∧ l.foldl byteMax b ∈ b :: l := by
  induction l generalizing b with
  | nil => simp
  | cons a t ih =>
    obtain ⟨h1, h2⟩ := ih (byteMax b a)
    have hm := h1 (byteMax b a) (by simp)
    rw [byteMax_toNat] at hm
    refine ⟨fun c hc => ?_, ?_⟩
    · simp only [List.foldl_cons, List.mem_cons] at hc ⊢
      rcases hc with rfl | rfl | hc
      · omega
      · omega
      · exact h1 c (by simp [hc])
    · simp only [List.foldl_cons, List.mem_cons] at h2 ⊢
      rcases h2 with h2 | h2
      · rw [h2]
        unfold byteMax
        split <;> simp
      · exact .inr (.inr h2)

@[simp] theorem binarize_w (y : Image) (t : Nat) : (binarize y t).w = y.w := rfl

@[simp] theorem binarize_h (y : Image) (t : Nat) : (binarize y t).h = y.h := rfl

@[simp] theorem binarize_length (y : Image) (t : Nat) : (binarize y t).px.length = y.px.length := by simp [binarize]

/-- A binarized image is in {0, 255} (40_scan.md R115). -/
@[simp] theorem binarize_binary (y : Image) (t : Nat) : (binarize y t).binary = true := by
  simp only [Image.binary, binarize, List.all_map, List.all_eq_true]
  intro b _
  by_cases h : b.toNat > t <;> simp [h]

@[simp] theorem binarize_wf (y : Image) (t : Nat) : (binarize y t).wf = y.wf := by simp [Image.wf]

@[simp] theorem erode_w (i : Image) : (erode i).w = i.w := rfl

@[simp] theorem erode_h (i : Image) : (erode i).h = i.h := rfl

@[simp] theorem opening_w (i : Image) : (opening i).w = i.w := rfl

@[simp] theorem opening_h (i : Image) : (opening i).h = i.h := rfl

@[simp] theorem opening_wf (i : Image) : (opening i).wf = true := by simp [opening, dilate]

/-- Erosion and dilation take values of the image, or the value of an empty neighbourhood. -/
theorem erode_binary {i : Image} (h : i.binary = true) : (erode i).binary = true := by
  simp only [Image.binary, List.all_eq_true, Bool.or_eq_true, decide_eq_true_eq] at h ⊢
  intro b hb
  obtain ⟨x, y, -, -, rfl⟩ := Image.mem_ofFn hb
  rcases List.mem_cons.mp (foldl_byteMin (i.around x y) 255#8).2 with e | e
  · exact .inr e
  · obtain ⟨x', y', -, -, -, -, -, -, e⟩ := Image.mem_around.mp e
    rw [← e, Image.pixel, List.getD_eq_getElem?_getD]
    cases hp : i.px[y' * i.w + x']? with
    | none => exact .inl rfl
    | some c => exact h c (List.mem_of_getElem? hp)

theorem dilate_binary {i : Image} (h : i.binary = true) : (dilate i).binary = true := by
  simp only [Image.binary, List.all_eq_true, Bool.or_eq_true, decide_eq_true_eq] at h ⊢
  intro b hb
  obtain ⟨x, y, -, -, rfl⟩ := Image.mem_ofFn hb
  rcases List.mem_cons.mp (foldl_byteMax (i.around x y) 0#8).2 with e | e
  · exact .inl e
  · obtain ⟨x', y', -, -, -, -, -, -, e⟩ := Image.mem_around.mp e
    rw [← e, Image.pixel, List.getD_eq_getElem?_getD]
    cases hp : i.px[y' * i.w + x']? with
    | none => exact .inl rfl
    | some c => exact h c (List.mem_of_getElem? hp)

theorem opening_binary {i : Image} (h : i.binary = true) : (opening i).binary = true := dilate_binary (erode_binary h)

theorem opening_length (i : Image) : (opening i).px.length = i.w * i.h := by simp [opening, dilate]

end Sys2Proof.Machine
end

