-- ==== Sys2Proof/Laws/PerInstr.lean ====
section
/-! SUPPORT. Statements about each command as syntax, one lemma per constructor. -/

namespace Sys2Proof.Laws.Encoding

/-- The word of a command is well formed and has the command's opcode below reserved zeros (30_encoding.md R90, R91). -/
def Statement (i : Instr) : Prop :=
  commandWordWellFormed (encode i) = true ∧ reservedField (encode i) = 0#28 ∧ opcodeField (encode i) = opcodeOf i

theorem nop : Statement .nop := by unfold Statement; decide

theorem convert : Statement .convert := by unfold Statement; decide

theorem scan : Statement .scan := by unfold Statement; decide

theorem frame : Statement .frame := by unfold Statement; decide

end Sys2Proof.Laws.Encoding
end

