-- ==== Sys2Proof/Laws/Run.lean ====
section
/-! SUPPORT. How a run of several steps goes on: by an engine step, by an event of the agenda, by the CMD write that issues a
command; and what the rows of a frame depend on. -/

namespace Sys2Proof.Machine

@[simp] theorem runSteps_zero (s : State) : runSteps 0 s = .next s := rfl

/-- With nothing on the agenda a run goes on by the engine's step (60_exceptions.md R240). -/
theorem runSteps_engine {s t : State} (n : Nat) (ha : s.agenda = []) (h : engineStep s = .next t) :
    runSteps (n + 1) s = runSteps n t := by
  have hs : core.step s = .next t := by simpa only [core, step, agentStep, ha] using h
  simp only [runSteps, Host.Core.run, hs]
  rfl

/-- With an event on the agenda a run goes on by that event (60_exceptions.md R240). -/
theorem runSteps_event {s t : State} (n : Nat) {e : Event} {rest : List Event} (ha : s.agenda = e :: rest)
    (h : perform e { s with agenda := rest } = .next t) : runSteps (n + 1) s = runSteps n t := by
  have hs : core.step s = .next t := by simpa only [core, step, agentStep, ha] using h
  simp only [runSteps, Host.Core.run, hs]
  rfl

/-- A run that begins with the host's write of a command's word to CMD goes on from that command's meaning (30_encoding.md
R92). -/
theorem runSteps_command {s t : State} (n : Nat) (hb : s.cfg.regBase % 4 = 0) {nbits w : Nat} {i : Instr}
    (hd : decodeWord (tableWord nbits w) = .ok i) (h : exec i { s with reply := .written } = .next t) :
    runSteps (n + 1) (s.withFetchWord nbits w) = runSteps n t := by
  refine runSteps_event n rfl ?_
  refine (hostStore_offset (s := s) hb (off := 8) rfl (by omega) (tableWord nbits w)).trans ?_
  simp only [regAt, commandWrite, hd]
  exact h

/-- The rows of a frame depend on SRC, the frame and its geometry only. -/
theorem frameRow_congr {s t : State} (h1 : t.src = s.src) (h2 : t.srcBase = s.srcBase) (h3 : t.srcStride = s.srcStride)
    (h4 : t.frameSize = s.frameSize) (h5 : t.fbGeom = s.fbGeom) (r : Nat) : t.frameRow r = s.frameRow r := by
  simp only [State.frameRow, State.frameW, State.bpp, State.pixelAddr, h1, h2, h3, h4, h5]

/-- FB after the first rows of a frame depends on FB, SRC, the frame and its geometry only. -/
theorem fbAfterRows_congr {s t : State} (h0 : t.fb = s.fb) (h1 : t.src = s.src) (h2 : t.srcBase = s.srcBase)
    (h3 : t.srcStride = s.srcStride) (h4 : t.frameSize = s.frameSize) (h5 : t.fbGeom = s.fbGeom) (n : Nat) :
    t.fbAfterRows n = s.fbAfterRows n := by
  induction n with
  | zero => exact h0
  | succ n ih =>
    simp only [State.fbAfterRows, ih, frameRow_congr h1 h2 h3 h4 h5, State.rowOffset, State.vwidth, State.bytesPerPixel,
      State.bpp, h5]

/-- The writing of rows keeps FB in its canonical form. -/
theorem fbAfterRows_wf {s : State} (h : s.fb.wf = true) (n : Nat) : (s.fbAfterRows n).wf = true := by
  induction n with
  | zero => exact h
  | succ n ih => exact Memory.wf_writeBytes ih _ _

end Sys2Proof.Machine
end

