-- ==== Sys2Proof/Tests/Slice0.lean ====
section
/-! SUPPORT. The model's own tests: ill-formed terms the checks refuse, command words written out bit by bit, small vectors
of 95_test_vectors.md, and for every statement with hypotheses a state and operands that meet them. -/

namespace Sys2Proof.Tests

open Sys2Proof Sys2Proof.Machine

/-! ## Ill-formed terms (00_scope.md R5, 30_encoding.md R93) -/

theorem test_legal_vectors : Config.vectors.legal = true := by decide

theorem test_legal_least :
    ({ step := 1, srcSize := 1, fbSize := 1, scanMaxPixels := 1, resCap := 1, regBase := 4 } : Config).legal = true := by decide

theorem test_illegal_step : ({ Config.vectors with step := 0 }).legal = false ∧ ({ Config.vectors with step := 256 }).legal = false := by
  decide

theorem test_illegal_srcSize :
    ({ Config.vectors with srcSize := 0 }).legal = false ∧ ({ Config.vectors with srcSize := 2 ^ 32 + 1 }).legal = false := by
  decide

theorem test_illegal_fbSize :
    ({ Config.vectors with fbSize := 0 }).legal = false ∧ ({ Config.vectors with fbSize := 2 ^ 32 + 1 }).legal = false := by
  decide

theorem test_illegal_scanMaxPixels :
    ({ Config.vectors with scanMaxPixels := 0 }).legal = false
      ∧ ({ Config.vectors with scanMaxPixels := 2 ^ 32 }).legal = false := by decide

theorem test_illegal_resCap :
    ({ Config.vectors with resCap := 0 }).legal = false ∧ ({ Config.vectors with resCap := 3841 }).legal = false := by decide

theorem test_illegal_regBase : ({ Config.vectors with regBase := 2 }).legal = false := by decide

theorem test_illformed_reserved_opcode : commandWordWellFormed 0x00000004#32 = false := by decide

theorem test_illformed_reserved_bits : commandWordWellFormed 0x00000010#32 = false := by decide

theorem test_wellformed_commands : ∀ i : Instr, i.wellFormed = true := by intro i; cases i <;> rfl

/-! ## Words written out from 30_encoding.md R90, R91 -/

theorem test_word_nop : decodeWord 0b00000000000000000000000000000000#32 = .ok .nop := by decide

theorem test_word_convert : decodeWord 0b00000000000000000000000000000001#32 = .ok .convert := by decide

theorem test_word_scan : decodeWord 0b00000000000000000000000000000010#32 = .ok .scan := by decide

theorem test_word_frame : decodeWord 0b00000000000000000000000000000011#32 = .ok .frame := by decide

theorem test_word_high_bit : decodeWord 0x80000001#32 = .error .reservedBits := by decide

theorem test_word_opcode_four : decodeWord 0x00000004#32 = .error .reservedOpcode := by decide

theorem test_bytes_lowest_lane_first : decodeBytes [2#8, 0#8, 0#8, 0#8] = .ok .scan := by decide

theorem test_bytes_short : decodeBytes [2#8, 0#8, 0#8] = .error .notOneWord := by decide

theorem test_table_word : decodeTableWord 32 3 = some .frame ∧ decodeTableWord 8 1 = some .convert := by decide

/-! ## Small states -/

/-- A configured idle block. -/
def block (src : List Byte) (base stride : Word) (w h : Half) (ch : Byte) (vw : Half) (bpp : Byte) : State :=
  { State.reset with
    src := Memory.writeBytes [] base.toNat src
    srcBase := base
    srcStride := stride
    frameSize := { w := w, h := h }
    srcFmt := { channels := ch, depth := 8#8 }
    fbGeom := { vwidth := vw, bpp := bpp } }

/-- The frame of program P1 (95_test_vectors.md). -/
def p1 : State :=
  block [0x00#8, 0x00#8, 0xFF#8, 0x00#8, 0xFF#8, 0x00#8, 0xAA#8, 0xAA#8, 0xFF#8, 0x00#8, 0x00#8, 0x12#8, 0x34#8, 0x56#8]
    0x100#32 8#32 2#16 2#16 3#8 3#16 16#8

/-- The frame of program P2 (95_test_vectors.md). -/
def p2 : State :=
  block [0x01#8, 0x02#8, 0x03#8, 0x10#8, 0x20#8, 0x30#8, 0xFF#8, 0xFF#8, 0xFF#8] 0#32 9#32 3#16 1#16 3#8 4#16 32#8

/-- The frame of program P3 (95_test_vectors.md). -/
def p3 : State :=
  block [10#8, 10#8, 10#8, 10#8, 200#8, 200#8, 10#8, 200#8, 200#8] 0x40#32 3#32 3#16 3#16 1#8 3#16 16#8

/-- The frame of program P4 (95_test_vectors.md). -/
def p4 : State := block [0x00#8, 0x00#8, 0xFF#8, 0xFF#8, 0xFF#8, 0xFF#8] 0#32 6#32 2#16 1#16 3#8 1#16 16#8

/-- One white pixel for both engines. -/
def dot : State := block [0xFF#8, 0xFF#8, 0xFF#8] 0#32 3#32 1#16 1#16 3#8 1#16 16#8

/-- A one-row image. -/
def strip (l : List Byte) : Image := { w := l.length, h := 1, px := l }

/-- The status word after an outcome. -/
def statusAfter : Host.Outcome State Fault Refusal → Word
  | .next t => t.status.word
  | .fault _ => 0#32
  | .refused _ => 0#32

/-! ## Vectors: one step each -/

/-- 95_test_vectors.md 2.2. -/
theorem test_nop_status : statusAfter (exec .nop State.reset) = 0x00000002#32 := by decide

theorem test_convert_status : statusAfter (exec .convert State.reset) = 0x00001201#32 := by decide

theorem test_scan_status : statusAfter (exec .scan State.reset) = 0x00002101#32 := by decide

theorem test_frame_status : statusAfter (exec .frame State.reset) = 0x00003101#32 := by decide

theorem test_busy_status : statusAfter (exec .convert (accept .frame { State.reset with
    status := { State.reset.status with lastop := 3#4 } })) = 0x00003111#32 := by decide

theorem test_illegal_status : statusAfter (commandWrite 0x80000001#32 State.reset) = 0x0000100E#32 := by decide

/-- 95_test_vectors.md 2.1. -/
theorem test_caps : State.reset.readReg .caps = 0x0100FF14#32 ∧ State.reset.readReg .scanCap = 0x00012C00#32 := by decide

/-- 95_test_vectors.md 2.3. -/
theorem test_pack : pack565 0x12#8 0x34#8 0x56#8 = 0x51A2#16 ∧ pack565 0x07#8 0x03#8 0x07#8 = 0#16
    ∧ pack565 0x08#8 0x04#8 0x08#8 = 0x0821#16 := by decide

theorem test_pixel_bytes : pixelBytes 16 0x12#8 0x34#8 0x56#8 = [0xA2#8, 0x51#8]
    ∧ pixelBytes 32 0x12#8 0x34#8 0x56#8 = [0x12#8, 0x34#8, 0x56#8, 0xFF#8] := by decide

/-- Program P1's first row write: red and green (95_test_vectors.md). -/
theorem test_row_bytes : p1.rowBytes 0 = [0x00#8, 0xF8#8, 0xE0#8, 0x07#8] ∧ p1.rowOffset 1 = 6 := by decide

/-- 95_test_vectors.md 2.4: format before depth, depth before width, framebuffer before source. -/
theorem test_check_order : ({ p1 with srcFmt := { channels := 1#8, depth := 8#8 }, fbGeom := { vwidth := 3#16, bpp := 8#8 } }).convertCheck
      = some .unsupportedPixelFormat
    ∧ ({ p1 with fbGeom := { vwidth := 1#16, bpp := 8#8 } }).convertCheck = some .unsupportedFbDepth
    ∧ ({ p1 with srcBase := 0xFFFFFFFF#32, cfg := { p1.cfg with fbSize := 9 } }).convertCheck = some .fbRange := by decide

/-- 95_test_vectors.md 2.6. -/
theorem test_luma : lumaOfBgr 0#8 0#8 255#8 = 76#8 ∧ lumaOfBgr 0#8 255#8 0#8 = 150#8 ∧ lumaOfBgr 255#8 0#8 0#8 = 29#8
    ∧ lumaOfBgr 0x12#8 0x34#8 0x56#8 = 58#8 := by decide

/-- 95_test_vectors.md 2.7. -/
theorem test_otsu : otsu (hist (strip [10#8, 10#8, 20#8, 20#8, 200#8, 200#8, 200#8, 200#8])) = 20 := by decide +kernel

theorem test_otsu_tie : otsu (hist (strip [0#8, 100#8, 200#8])) = 0 := by decide +kernel

/-- 95_test_vectors.md 2.8. -/
theorem test_binarize : (binarize (strip [127#8, 128#8, 129#8]) 128).px = [0#8, 0#8, 255#8] := by decide

/-- 95_test_vectors.md 2.9: the border does not erode; a thin line is removed. -/
theorem test_opening_border :
    (opening { w := 3, h := 3, px := [255#8, 255#8, 0#8, 255#8, 255#8, 0#8, 0#8, 0#8, 0#8] }).px
      = [255#8, 255#8, 0#8, 255#8, 255#8, 0#8, 0#8, 0#8, 0#8] := by decide

theorem test_opening_line :
    (opening { w := 4, h := 3, px := List.replicate 4 0#8 ++ List.replicate 4 255#8 ++ List.replicate 4 0#8 }).px
      = List.replicate 12 0#8 := by decide

/-- 95_test_vectors.md 2.10: a result longer than the buffer. -/
theorem test_result_capped :
    (store { status := .ok, bytes := [0x48#8, 0x45#8, 0x4C#8, 0x4C#8, 0x4F#8] }
      { State.reset with cfg := { Config.vectors with resCap := 4 } }).readReg .resLen = 0x80000004#32
    ∧ (store { status := .ok, bytes := [0x48#8, 0x45#8, 0x4C#8, 0x4C#8, 0x4F#8] }
      { State.reset with cfg := { Config.vectors with resCap := 4 } }).readReg (.resData 0) = 0x4C4C4548#32 := by decide

/-- 95_test_vectors.md 1.4: the thresholds for T0 = 15 and T0 = 235. -/
theorem test_levels : (levels 20 15).length = 13 ∧ (levels 20 15).getLast? = some 235 ∧ levels 20 235 = [235, 235]
    ∧ levels 20 234 = [234, 234, 254] := by decide

/-- 95_test_vectors.md 2.1: WCHK is not written while busy. -/
theorem test_ctrl_while_busy : (writeCtrl 1#32 (accept .convert State.reset)).readReg .ctrl = 0x00000003#32 := by decide

/-! ## Witnesses: for each statement with hypotheses, a state and operands that meet them together -/

/-- A busy block: CONVERT of P1 accepted. -/
def conv : State := accept .convert p1

/-- P1 before its row `r`. -/
def rowAt (r : Nat) : State := { accept .convert p1 with fsm := .convRow, row := r }

/-- P3 before an attempt at threshold 10. -/
def binAt (op : RunOp) : State := { accept op p3 with fsm := .scanBin, t := 10, scanRes := { ScanRes.zero with t0 := 10#8 } }

/-- P3 in a wait, with what the decoder has answered. -/
def waitAt (op : RunOp) (f : Fsm) (k : Kind) (t : Nat) (r : Option Response) : State :=
  { accept op p3 with fsm := f, kind := k, t := t, decRsp := r, scanRes := { ScanRes.zero with t0 := 10#8 } }

/-- An answer that finds one byte, and one that finds nothing. -/
def hit : Response := { status := .ok, bytes := [0x5A#8] }

def miss : Response := { status := .ok, bytes := [] }

theorem test_settled_p1 : p1.settled ∧ p1.atRest ∧ p1.agenda = [] ∧ p1.cfg.regBase % 4 = 0 ∧ p1.fb.wf = true
    ∧ p1.cfg.legal = true := ⟨⟨rfl, rfl⟩, ⟨rfl, rfl, rfl, rfl⟩, rfl, rfl, rfl, by decide⟩

theorem test_witness_StepRunsTheWrittenCommand :
    p1.cfg.regBase % 4 = 0 ∧ decodeWord 2#32 = .ok .scan
      ∧ ({ p1 with agenda := [.regWrite (p1.cfg.regBase + 0x008) 4 2#32] }).agenda
        = .regWrite (p1.cfg.regBase + 0x008) 4 2#32 :: []
      ∧ p1.agenda = [] := ⟨rfl, rfl, rfl, rfl⟩

theorem test_witness_IllegalWordCompletesAtOnce :
    ((0x00000010#32).extractLsb' 4 28 ≠ 0#28 ∧ 4#4 ≤ (0x00000004#32).extractLsb' 0 4)
      ∧ p1.status.busy = false ∧ conv.status.busy = true ∧ p1.cfg.regBase % 4 = 0 ∧ conv.cfg.regBase % 4 = 0 := by decide

theorem test_witness_NopCompletesAtOnce : p1.status.busy = false ∧ conv.status.busy = true := by decide

theorem test_witness_BusyCommandIsDropped : conv.status.busy = true ∧ conv.cfg.regBase % 4 = 0 := by decide

theorem test_witness_AcceptanceStartsTheFirstPhase : p1.status.busy = false := by decide

theorem test_witness_RaiseRecordsTheCodeAndEndsThePhase :
    (accept .scan p3).settled ∧ (accept .scan p3).op = .scan ∧ (accept .frame p3).settled ∧ (accept .frame p3).op = .frame :=
  ⟨⟨rfl, rfl⟩, rfl, ⟨rfl, rfl⟩, rfl⟩

/-- One state for each clause of CONV_ENTRY, at the boundary of its check where it has one. -/
theorem test_witness_ConvEntryChecksInOrder :
    conv.fsm = .convEntry ∧ conv.agenda = [] ∧ conv.convertCheck = none ∧ conv.frameH ≠ 0
      ∧ ({ conv with srcFmt := { channels := 3#8, depth := 16#8 } }).convertCheck = some .unsupportedPixelFormat
      ∧ ({ conv with fbGeom := { vwidth := 3#16, bpp := 24#8 } }).convertCheck = some .unsupportedFbDepth
      ∧ ({ conv with fbGeom := { vwidth := 1#16, bpp := 16#8 } }).convertCheck = some .frameWiderThanDevice
      ∧ ({ conv with fbGeom := { vwidth := 2#16, bpp := 16#8 } }).convertCheck = none
      ∧ ({ conv with cfg := { conv.cfg with fbSize := 9 } }).convertCheck = some .fbRange
      ∧ ({ conv with cfg := { conv.cfg with fbSize := 10 } }).convertCheck = none
      ∧ ({ conv with cfg := { conv.cfg with srcSize := 0x10D } }).convertCheck = some .srcRange
      ∧ ({ conv with cfg := { conv.cfg with srcSize := 0x10E } }).convertCheck = none
      ∧ ({ conv with frameSize := { w := 2#16, h := 0#16 } }).convertCheck = none := by decide

theorem test_witness_ConvRowWritesExactlyOneRow :
    (rowAt 0).fsm = .convRow ∧ (rowAt 0).agenda = [] ∧ (rowAt 0).settled ∧ (rowAt 0).fb.wf = true
      ∧ (rowAt 0).convertCheck = none ∧ (rowAt 0).row + 1 < (rowAt 0).frameH ∧ (rowAt 1).row + 1 = (rowAt 1).frameH :=
  ⟨rfl, rfl, ⟨rfl, rfl⟩, rfl, by decide, by decide, by decide⟩

theorem test_witness_PixelLayouts :
    p1.fbGeom.bpp.toNat = 16 ∧ 1 < p1.frameW ∧ p2.fbGeom.bpp.toNat = 32 ∧ 2 < p2.frameW := by decide

/-- Byte 7 of P1 is in row 1 only; byte 5 is in no row. -/
theorem test_witness_HighestCoveringRowWins :
    p1.fb.wf = true ∧ p1.bpp = 16 ∧ (p1.rowOffset 1 ≤ 7 ∧ 7 < p1.rowOffset 1 + p1.frameW * p1.bytesPerPixel)
      ∧ (∀ r < 2, ¬ (p1.rowOffset r ≤ 5 ∧ 5 < p1.rowOffset r + p1.frameW * p1.bytesPerPixel)) := by decide

theorem test_witness_ConvertWritesTheWholeFrame : p1.convertCheck = none ∧ p2.convertCheck = none := by decide

theorem test_witness_ConvertErrorWritesNothing :
    p4.atRest ∧ p4.settled ∧ p4.agenda = [] ∧ p4.cfg.regBase % 4 = 0 ∧ p4.convertCheck = some .frameWiderThanDevice :=
  ⟨⟨rfl, rfl, rfl, rfl⟩, ⟨rfl, rfl⟩, rfl, rfl, by decide⟩

/-- No rows, and rows of no pixels; then an unsupported format and an unsupported depth. -/
theorem test_witness_ZeroSizeFramesConvertNothing :
    (block [] 0#32 0#32 2#16 0#16 3#8 2#16 16#8).frameH = 0 ∧ (block [] 0#32 0#32 0#16 5#16 3#8 0#16 32#8).frameW = 0
      ∧ (block [] 0#32 0#32 0#16 5#16 3#8 0#16 32#8).frameW ≤ (block [] 0#32 0#32 0#16 5#16 3#8 0#16 32#8).vwidth
      ∧ (block [] 0#32 0#32 0#16 0#16 1#8 0#16 16#8).channels ≠ 3 ∧ (block [] 0#32 0#32 0#16 0#16 3#8 0#16 8#8).bpp = 8 := by
  decide

theorem test_witness_LumaIsTheWeightedSum :
    p1.srcUnsettled = [] ∧ 1 < p1.frameW ∧ 1 < p1.frameH ∧ p1.channels = 3 ∧ p3.srcUnsettled = [] ∧ 2 < p3.frameW
      ∧ 2 < p3.frameH ∧ p3.channels = 1 := by decide

/-- A histogram with a split, and one without. -/
theorem test_witness_OtsuIsTheLeastMaximiser :
    (hist (strip [0#8, 255#8])).length = 256 ∧ otsuCand (hist (strip [0#8, 255#8])) 0 = true
      ∧ (List.range 256).all (fun t => !otsuCand (hist (strip [77#8])) t) = true := by decide +kernel

theorem test_witness_OtsuStaysBelowTheCeiling : ∃ v, ∀ b ∈ (strip [77#8, 77#8]).px, b = v := ⟨77#8, by decide⟩

theorem test_witness_images :
    (strip [0#8, 255#8]).wf = true ∧ (strip [0#8, 255#8]).binary = true ∧ 1 < (strip [0#8, 255#8]).w
      ∧ 0 < (strip [0#8, 255#8]).h := by decide

/-- One state for each clause of SCAN_ENTRY, at the boundary of its check where it has one. -/
theorem test_witness_ScanEntryChecksInOrder :
    (accept .scan p3).fsm = .scanEntry ∧ (accept .scan p3).agenda = [] ∧ (accept .scan p3).scanCheck = none
      ∧ ({ p3 with srcFmt := { channels := 4#8, depth := 8#8 } }).scanCheck = some .unsupportedPixelFormat
      ∧ ({ p3 with cfg := { p3.cfg with scanMaxPixels := 8 } }).scanCheck = some .scanTooLarge
      ∧ ({ p3 with cfg := { p3.cfg with scanMaxPixels := 9 } }).scanCheck = none
      ∧ ({ p3 with cfg := { p3.cfg with srcSize := 0x48 } }).scanCheck = some .srcRange
      ∧ ({ p3 with cfg := { p3.cfg with srcSize := 0x49 } }).scanCheck = none := by decide

theorem test_witness_ScanBinRequestsOneDecode :
    (binAt .scan).fsm = .scanBin ∧ (binAt .scan).agenda = [] ∧ (binAt .scan).srcUnsettled = []
      ∧ (binAt .scan).scanCheck = none := by decide

theorem test_witness_PlainAnswerEndsOrOpens :
    (∀ op, (waitAt op .scanWaitPlain .initial 10 (some hit)).settled)
      ∧ (waitAt .scan .scanWaitPlain .initial 10 none).decRsp = none
      ∧ (waitAt .frame .scanWaitPlain .initial 10 (some hit)).decRsp = some hit
      ∧ (hit.status = .ok ∧ hit.bytes ≠ []) ∧ ¬ (miss.status = .ok ∧ miss.bytes ≠ []) :=
  ⟨fun op => by cases op <;> exact ⟨rfl, rfl⟩, rfl, rfl, by decide, by decide⟩

/-- The end of the initial attempt, with T0 below 255 and with T0 at 255; a loop attempt with a next threshold of 254, and one
whose next would be 255. -/
theorem test_witness_OpenedAnswerEndsOrGoesOn :
    (∀ op, (waitAt op .scanWaitOpen .initial 10 (some miss)).settled)
      ∧ (waitAt .scan .scanWaitOpen .initial 10 (some miss)).scanRes.t0.toNat < 255
      ∧ 255 ≤ ({ waitAt .scan .scanWaitOpen .initial 255 (some miss) with scanRes := { ScanRes.zero with t0 := 255#8 } }).scanRes.t0.toNat
      ∧ (waitAt .scan .scanWaitOpen .loop 234 (some miss)).t + (waitAt .scan .scanWaitOpen .loop 234 (some miss)).cfg.step < 255
      ∧ 255 ≤ (waitAt .frame .scanWaitOpen .loop 235 (some miss)).t
          + (waitAt .frame .scanWaitOpen .loop 235 (some miss)).cfg.step :=
  ⟨fun op => by cases op <;> exact ⟨rfl, rfl⟩, by decide, by decide, by decide, by decide⟩

theorem test_witness_NotFoundIsNeverAnError :
    (waitAt .scan .scanWaitOpen .loop 10 (some miss)).fsm.waiting = true
      ∧ (waitAt .scan .scanWaitOpen .loop 10 (some miss)).decRsp = some miss
      ∧ ¬ (miss.status = .ok ∧ miss.bytes.length > 0)
      ∧ ¬ (({ status := .fail, bytes := [0x58#8] } : Response).status = .ok) := by decide

theorem test_witness_StoredResultIsTheCappedPrefix : State.reset.cfg.legal = true ∧ 1 < State.reset.cfg.resCap := by decide

theorem test_witness_DecoderAnswersOnlyAPendingRequest :
    ({ binAt .scan with decReq := some p3.luma }).decReq = some p3.luma ∧ (binAt .scan).decRsp = none
      ∧ (binAt .scan).decReq = none ∧ (waitAt .scan .scanWaitPlain .initial 10 (some hit)).decRsp ≠ none
      ∧ (waitAt .scan .scanWaitPlain .initial 10 none).fsm.waiting = true := by decide

/-- T0 of the white pixel is 0, so a search takes 14 attempts (95_test_vectors.md 1.4). -/
theorem test_witness_Searches :
    dot.atRest ∧ dot.settled ∧ dot.agenda = [] ∧ dot.cfg.legal = true ∧ dot.scanCheck = none
      ∧ found miss = false ∧ found hit = true ∧ attemptBound dot.cfg.step (otsu (hist dot.frameLuma)) = 14
      ∧ (List.replicate 14 (miss, miss)).length = 14 ∧ ∀ p ∈ List.replicate 14 (miss, miss), found p.1 = false ∧ found p.2 = false :=
  ⟨⟨rfl, rfl, rfl, rfl⟩, ⟨rfl, rfl⟩, rfl, by decide, by decide, by decide, by decide, by decide +kernel, by decide, by decide⟩

theorem test_witness_ScanErrorMakesNoCall :
    State.reset.atRest ∧ State.reset.settled ∧ State.reset.agenda = [] ∧ State.reset.cfg.regBase % 4 = 0
      ∧ State.reset.scanCheck = some .unsupportedPixelFormat :=
  ⟨⟨rfl, rfl, rfl, rfl⟩, ⟨rfl, rfl⟩, rfl, rfl, by decide⟩

theorem test_witness_FrameScansThenConverts :
    dot.fb.wf = true ∧ dot.scanCheck = none ∧ dot.convertCheck = none ∧ found hit = true := by decide

/-- A scan phase that raises with a convert phase that does not, and one where both do. -/
theorem test_witness_FrameConvertsAfterAScanError :
    ({ p1 with cfg := { p1.cfg with scanMaxPixels := 3 } }).scanCheck = some .scanTooLarge
      ∧ ({ p1 with cfg := { p1.cfg with scanMaxPixels := 3 } }).convertCheck = none
      ∧ ({ p1 with cfg := { p1.cfg with scanMaxPixels := 3 } }).cfg.legal = true
      ∧ State.reset.scanCheck = some .unsupportedPixelFormat ∧ State.reset.convertCheck = some .unsupportedPixelFormat := by
  decide

theorem test_witness_RegisterAccesses :
    p1.status.busy = false ∧ conv.status.busy = true ∧ p1.cfg.regBase % 4 = 0 ∧ p1.cfg.legal = true := by decide

theorem test_witness_NarrowOrMisalignedAccessIsABusError :
    p1.cfg.regBase ≤ 0x004 ∧ 0x004 < p1.cfg.regBase + 4096 ∧ (2 : Nat) ≠ 4 ∧ p1.cfg.regBase ≤ 0xFFE
      ∧ 0xFFE < p1.cfg.regBase + 4096 ∧ 0xFFE % 4 ≠ 0 := by decide

/-- The first and last read-only offset, and the two ends of the unassigned range. -/
theorem test_witness_ReadsAndReadOnlyWritesHaveNoEffect :
    regAt 0x01C = .fbGeom ∧ regAt 0x020 = .convRes ∧ regAt 0x034 = .scanCap ∧ regAt 0x038 = .unassigned
      ∧ regAt 0x0FC = .unassigned ∧ regAt 0x100 = .resData 0 ∧ regAt 0xFFC = .resData 959 := by decide

theorem test_witness_ResultBytesInTheirLanes :
    (959 : Nat) < 960 ∧ (3 : Nat) < 4 ∧ (store hit State.reset).res.length ≤ (store hit State.reset).cfg.resCap
      ∧ (store hit State.reset).cfg.resCap ≤ 4 * 64 ∧ ¬ (store hit State.reset).cfg.resCap ≤ 4 * 63 := by decide

theorem test_witness_InterruptFollowsEnableAndDone :
    (0x00000002#32 : Word).getLsbD 1 = true ∧ (0x00000001#32 : Word).getLsbD 0 = true := by decide

theorem test_witness_ResetLeavesTheMemories :
    conv.fsm ≠ .convRow ∧ (rowAt 0).fsm = .convRow ∧ (rowAt 0).fb.wf = true ∧ (rowAt 0).settled
      ∧ (rowAt 0).convertCheck = none ∧ (rowAt 0).row < (rowAt 0).frameH :=
  ⟨by decide, rfl, rfl, ⟨rfl, rfl⟩, by decide, by decide⟩

theorem test_witness_UnconfiguredCommandsRaiseFormatError : conv.agenda = [] ∧ conv.cfg.regBase % 4 = 0 := ⟨rfl, rfl⟩

theorem test_witness_BlockReadsOnlyTheFrame :
    (rowAt 0).channels = 3 ∧ (rowAt 0).row < (rowAt 0).frameH ∧ (accept .scan p3).channels = 1
      ∧ (∃ t, engineStep (rowAt 0) = .next t) ∧ ∃ t, engineStep (accept .scan p3) = .next t :=
  ⟨by decide, by decide, by decide, ⟨_, rfl⟩, ⟨_, rfl⟩⟩

theorem test_witness_BusyConfigurationWritesAreIgnored :
    conv.status.busy = true ∧ conv.cfg.regBase % 4 = 0 ∧ conv.agenda = [] ∧ ∃ t, step conv = .next t := ⟨rfl, rfl, rfl, _, rfl⟩

/-- A block with one byte of result buffer. -/
def oneByte (s : State) : State := { s with cfg := { s.cfg with resCap := 1 } }

/-- A completed CONVERT with every flag of its completion set, and a scan result with all of its flags. -/
def flagged : State :=
  { oneByte p1 with
    status := { p1.status with done := true, err := true, ill := true, ovr := true }
    scanRes := { ScanRes.zero with found := true, opened := true }
    res := [0x5A#8]
    resLen := { len := 1#16, trunc := true } }

/-- The rises: BUSY by a CMD write, DONE by a NOP, ILL and ERR by an illegal word, OVR by a configuration write while busy, and
FOUND, OPENED and TRUNC by a long answer on the opened image. -/
theorem test_witness_FlagsChangeOnlyAsListed_rises :
    (∃ t, perform (.regWrite 0x008 4 1#32) p1 = .next t ∧ p1.status.busy = false ∧ t.status.busy = true)
      ∧ (∃ t, perform (.regWrite 0x008 4 0#32) p1 = .next t ∧ p1.status.done = false ∧ t.status.done = true)
      ∧ (∃ t, perform (.regWrite 0x008 4 0x10#32) p1 = .next t ∧ p1.status.ill = false ∧ t.status.ill = true
        ∧ p1.status.err = false ∧ t.status.err = true)
      ∧ (∃ t, perform (.regWrite 0x01C 4 0#32) conv = .next t ∧ conv.status.ovr = false ∧ t.status.ovr = true)
      ∧ let s := oneByte (waitAt .scan .scanWaitOpen .initial 10 (some { status := .ok, bytes := [0x5A#8, 0x5A#8] }))
        ∃ t, perform .engine s = .next t ∧ s.scanRes.found = false ∧ t.scanRes.found = true
          ∧ s.scanRes.opened = false ∧ t.scanRes.opened = true ∧ s.resLen.trunc = false ∧ t.resLen.trunc = true :=
  ⟨⟨_, rfl, rfl, rfl⟩, ⟨_, rfl, rfl, rfl⟩, ⟨_, rfl, rfl, rfl, rfl, rfl⟩, ⟨_, rfl, rfl, rfl⟩,
    ⟨_, rfl, rfl, rfl, rfl, rfl, rfl, rfl⟩⟩

/-- The invariant holds of the state with every flag set. -/
theorem test_witness_Inv_flagged : Inv flagged := by
  constructor
  all_goals first
    | decide +kernel
    | (intro h; cases h)

/-- The falls: BUSY and OVR by a reset; DONE, ERR, ILL, FOUND, OPENED and TRUNC by an accepted SCAN. -/
theorem test_witness_FlagsChangeOnlyAsListed_falls :
    (∃ t, perform (.reset []) (overrun conv) = .next t ∧ (overrun conv).status.busy = true ∧ t.status.busy = false
      ∧ (overrun conv).status.ovr = true ∧ t.status.ovr = false)
      ∧ ∃ t, perform (.regWrite 0x008 4 2#32) flagged = .next t ∧ flagged.status.done = true ∧ t.status.done = false
        ∧ flagged.status.err = true ∧ t.status.err = false ∧ flagged.status.ill = true ∧ t.status.ill = false
        ∧ flagged.scanRes.found = true ∧ t.scanRes.found = false ∧ flagged.scanRes.opened = true ∧ t.scanRes.opened = false
        ∧ flagged.resLen.trunc = true ∧ t.resLen.trunc = false :=
  ⟨⟨_, rfl, rfl, rfl, rfl, rfl⟩, ⟨_, rfl, rfl, rfl, rfl, rfl, rfl, rfl, rfl, rfl, rfl, rfl, rfl, rfl⟩⟩

/-- A host event at a row position, and the engine's step and a reset at another. -/
theorem test_witness_OnlyTheNamedStepsChangeTheMemories :
    (∃ t, perform .srcSync (rowAt 0) = .next t) ∧ p1.fsm ≠ .convRow ∧ (∃ t, perform .engine p1 = .next t)
      ∧ ∃ t, perform (.reset []) p1 = .next t := ⟨⟨_, rfl⟩, by decide, ⟨_, rfl⟩, ⟨_, rfl⟩⟩

theorem test_witness_BlockNeverReadsTheFramebuffer :
    (rowAt 0).fsm = .convRow ∧ (∃ t, engineStep (rowAt 0) = .next t) ∧ conv.fsm ≠ .convRow ∧ ∃ t, engineStep conv = .next t :=
  ⟨rfl, ⟨_, rfl⟩, by decide, ⟨_, rfl⟩⟩

/-- The invariant holds of a block that has just accepted CONVERT of P1, and of a search that waits for its first answer. -/
theorem test_witness_Inv_convert : Inv conv ∧ conv.fsm ≠ .idle ∧ conv.blocked = false ∧ ∃ t, engineStep conv = .next t := by
  refine ⟨?_, by decide, by decide, _, rfl⟩
  constructor
  all_goals first
    | decide
    | (intro h; cases h)

theorem test_witness_Inv_scan : Inv (accept .scan p3) ∧ (accept .scan p3).fsm ≠ .idle ∧ (accept .scan p3).blocked = false := by
  refine ⟨?_, by decide, by decide⟩
  constructor
  all_goals first
    | decide
    | (intro h; cases h)

theorem test_witness_IdleOrWaitingBlockHasNoStep :
    p1.fsm = .idle ∧ (waitAt .scan .scanWaitPlain .initial 10 none).blocked = true := by decide

theorem test_witness_RacesEndWithTheNamedValues :
    p1.src.wf = true ∧ p1.fb.wf = true ∧ p1.status.busy = false ∧ conv.src.wf = true ∧ conv.fb.wf = true
      ∧ conv.status.busy = true ∧ (rowAt 1).converting = true ∧ (rowAt 1).fsm = .convRow
      ∧ (rowAt 1).fbRace = [] ∧ (rowAt 1).blockWrote 3 = true ∧ (rowAt 1).blockWrote 4 = false := by decide

theorem test_witness_ObserversSeeOldOrNewBytes :
    0 + p1.cfg.fbSize ≤ p1.cfg.fbSize ∧ p1.fsm ≠ .convRow ∧ (rowAt 0).fsm = .convRow := by decide

/-- The last byte of SRC is inside, the next one outside. -/
theorem test_witness_HostWritesStoreTheirBytes :
    (p1.cfg.srcSize - 1) + [1#8].length ≤ p1.cfg.srcSize ∧ p1.cfg.srcSize < p1.cfg.srcSize + [1#8].length
      ∧ (p1.cfg.fbSize - 1) + [1#8].length ≤ p1.cfg.fbSize ∧ p1.cfg.fbSize < p1.cfg.fbSize + [1#8].length
      ∧ p1.converting = false := by decide

end Sys2Proof.Tests
end

section
/-! SUPPORT. The register window: the fields of each register's word, the offsets a bus access names, and what a bus
access of an aligned word does (10_state.md R22 to R39). -/

namespace Sys2Proof.Machine

/-! ## The fields of the register words -/

section
open BitVec (extractLsb'_append_eq_of_le extractLsb'_append_eq_of_add_le extractLsb'_eq_self getLsbD_append)

/-- The bits of CTRL (10_state.md R25). -/
theorem Ctrl.word_fields (c : Ctrl) :
    c.word.getLsbD 0 = c.ie ∧ c.word.getLsbD 1 = c.wchk ∧ c.word.extractLsb' 2 30 = 0#30 := by
  refine ⟨?_, ?_, ?_⟩
  iterate 2 · simp only [word_bit, getLsbD_append]; simp
  simp (disch := decide) only [word, extractLsb'_append_eq_of_le, extractLsb'_eq_self, Nat.reduceSub]

/-- The flags of STATUS (10_state.md R26). -/
theorem Status.word_flags (st : Status) :
    st.word.getLsbD 0 = st.busy ∧ st.word.getLsbD 1 = st.done ∧ st.word.getLsbD 2 = st.err ∧ st.word.getLsbD 3 = st.ill
      ∧ st.word.getLsbD 4 = st.ovr := by
  simp only [word_bit, getLsbD_append]
  simp

/-- The wider fields of STATUS and its reserved bits (10_state.md R26). -/
theorem Status.word_fields (st : Status) :
    st.word.extractLsb' 5 3 = 0#3 ∧ st.word.extractLsb' 8 2 = st.phase.code ∧ st.word.extractLsb' 10 2 = 0#2
      ∧ st.word.extractLsb' 12 4 = st.lastop ∧ st.word.extractLsb' 16 16 = 0#16 := by
  simp (disch := decide) only [word, extractLsb'_append_eq_of_le, extractLsb'_append_eq_of_add_le, extractLsb'_eq_self,
    Nat.reduceSub, and_self]

/-- The fields of FRAME_SIZE (10_state.md R30). -/
theorem FrameSize.word_fields (f : FrameSize) : f.word.extractLsb' 0 16 = f.w ∧ f.word.extractLsb' 16 16 = f.h := by
  simp (disch := decide) only [word, extractLsb'_append_eq_of_le, extractLsb'_append_eq_of_add_le, extractLsb'_eq_self,
    Nat.reduceSub, and_self]

/-- The fields of SRC_FMT (10_state.md R31). -/
theorem SrcFmt.word_fields (f : SrcFmt) :
    f.word.extractLsb' 0 8 = f.channels ∧ f.word.extractLsb' 8 8 = f.depth ∧ f.word.extractLsb' 16 16 = 0#16 := by
  simp (disch := decide) only [word, extractLsb'_append_eq_of_le, extractLsb'_append_eq_of_add_le, extractLsb'_eq_self,
    Nat.reduceSub, and_self]

/-- The fields of FB_GEOM (10_state.md R32). -/
theorem FbGeom.word_fields (g : FbGeom) :
    g.word.extractLsb' 0 16 = g.vwidth ∧ g.word.extractLsb' 16 8 = g.bpp ∧ g.word.extractLsb' 24 8 = 0#8 := by
  simp (disch := decide) only [word, extractLsb'_append_eq_of_le, extractLsb'_append_eq_of_add_le, extractLsb'_eq_self,
    Nat.reduceSub, and_self]

/-- The fields of CONV_RES (10_state.md R33). -/
theorem ConvRes.word_fields (r : ConvRes) :
    r.word.extractLsb' 0 4 = r.cerr.code ∧ r.word.extractLsb' 4 12 = 0#12 ∧ r.word.extractLsb' 16 16 = r.rows := by
  simp (disch := decide) only [word, extractLsb'_append_eq_of_le, extractLsb'_append_eq_of_add_le, extractLsb'_eq_self,
    Nat.reduceSub, and_self]

/-- The flags of SCAN_RES (10_state.md R34). -/
theorem ScanRes.word_flags (r : ScanRes) : r.word.getLsbD 0 = r.found ∧ r.word.getLsbD 1 = r.opened := by
  simp only [word_bit, getLsbD_append]
  simp

/-- The wider fields of SCAN_RES and its reserved bits (10_state.md R34). -/
theorem ScanRes.word_fields (r : ScanRes) :
    r.word.extractLsb' 2 2 = 0#2 ∧ r.word.extractLsb' 4 4 = r.serr.code ∧ r.word.extractLsb' 8 8 = r.t0
      ∧ r.word.extractLsb' 16 8 = r.thit ∧ r.word.extractLsb' 24 8 = 0#8 := by
  simp (disch := decide) only [word, extractLsb'_append_eq_of_le, extractLsb'_append_eq_of_add_le, extractLsb'_eq_self,
    Nat.reduceSub, and_self]

/-- The fields of SCAN_CNT (10_state.md R35). -/
theorem ScanCnt.word_fields (c : ScanCnt) :
    c.word.extractLsb' 0 16 = c.attempts ∧ c.word.extractLsb' 16 16 = c.calls := by
  simp (disch := decide) only [word, extractLsb'_append_eq_of_le, extractLsb'_append_eq_of_add_le, extractLsb'_eq_self,
    Nat.reduceSub, and_self]

/-- The fields of RES_LEN (10_state.md R36). -/
theorem ResLen.word_fields (l : ResLen) :
    l.word.extractLsb' 0 16 = l.len ∧ l.word.extractLsb' 16 15 = 0#15 ∧ l.word.getLsbD 31 = l.trunc := by
  refine ⟨?_, ?_, ?_⟩
  iterate 2
    · simp (disch := decide) only [word, extractLsb'_append_eq_of_le, extractLsb'_append_eq_of_add_le,
        extractLsb'_eq_self, Nat.reduceSub]
  simp only [word_bit, getLsbD_append]
  simp

/-- The fields of CAPS (10_state.md R37). -/
theorem capsWord_fields (c : Config) :
    (capsWord c).extractLsb' 0 8 = BitVec.ofNat 8 c.step ∧ (capsWord c).extractLsb' 8 8 = 255#8
      ∧ (capsWord c).extractLsb' 16 16 = BitVec.ofNat 16 c.resCap := by
  simp (disch := decide) only [capsWord, Config.tceil, extractLsb'_append_eq_of_le, extractLsb'_append_eq_of_add_le,
    extractLsb'_eq_self, Nat.reduceSub, and_self]

/-- The byte lanes of a word put together from bytes (20_memory.md R64). -/
theorem wordOfBytes_lane (b : Nat → Byte) {j : Nat} (hj : j < 4) :
    (wordOfBytes (b 0) (b 1) (b 2) (b 3)).extractLsb' (8 * j) 8 = b j := by
  interval_cases j
  all_goals simp (disch := decide) only [wordOfBytes, extractLsb'_append_eq_of_le, extractLsb'_append_eq_of_add_le,
    extractLsb'_eq_self, Nat.reduceSub, Nat.reduceMul]

end

/-! ## The map of the window -/

/-- The offsets between the registers and the result bytes name nothing (10_state.md R22). -/
theorem regAt_gap {off : Nat} (h1 : 0x038 ≤ off) (h2 : off ≤ 0x0FC) : regAt off = .unassigned := by
  unfold regAt
  iterate 14 rw [if_neg (by omega)]
  exact if_neg (by omega)

/-- The offsets of the result bytes (10_state.md R39). -/
theorem regAt_resData {k : Nat} (hk : k < 960) : regAt (0x100 + 4 * k) = .resData k := by
  unfold regAt
  iterate 14 rw [if_neg (by omega)]
  rw [if_pos (by omega), Nat.add_sub_cancel_left, Nat.mul_div_cancel_left k (by decide)]

/-- From offset 0x020 on no offset names CMD or a register that a write changes (10_state.md R22, R23). -/
theorem writeReg_readOnly (s : State) (v : Word) {off : Nat} (h : 0x020 ≤ off) :
    regAt off ≠ .cmd ∧ s.writeReg v (regAt off) = s := by
  unfold regAt
  iterate 8 rw [if_neg (by omega)]
  (repeat' split) <;> exact ⟨nofun, rfl⟩

/-! ## Bus accesses of an aligned word -/

/-- A bus read of an aligned word returns the register at its offset and changes nothing but the reply (20_memory.md
R67). -/
theorem perform_regRead {s : State} (hb : s.cfg.regBase % 4 = 0) {off : Nat} (h4 : off % 4 = 0) (hlt : off < 4096) :
    perform (.regRead (s.cfg.regBase + off) 4) s = .next { s with reply := .word (s.readReg (regAt off)) } :=
  congrArg Host.Outcome.next (hostLoad_offset hb h4 hlt)

/-- A bus write of an aligned word to a register other than CMD writes that register (10_state.md R23). -/
theorem perform_regWrite {s : State} (hb : s.cfg.regBase % 4 = 0) {off : Nat} (h4 : off % 4 = 0) (hlt : off < 4096)
    (hr : regAt off ≠ .cmd) (v : Word) :
    perform (.regWrite (s.cfg.regBase + off) 4 v) s = .next ({ s with reply := .written }.writeReg v (regAt off)) := by
  refine (hostStore_offset hb h4 hlt v).trans ?_
  split
  · exact absurd ‹_› hr
  · rfl

/-- A busy block drops a write to its configuration (10_state.md R41). -/
theorem writeConfig_of_busy {s : State} (h : s.status.busy = true) (u : State) : writeConfig u s = overrun s := if_pos h

/-- A write to a configuration register of a busy block sets OVR and nothing else (10_state.md R41). -/
theorem writeReg_config_of_busy {s : State} (h : s.status.busy = true) (v : Word) {off : Nat} (ho : off ∈ configOffsets) :
    s.writeReg v (regAt off) = overrun s := by
  simp only [configOffsets, List.mem_cons, List.mem_nil_iff, or_false] at ho
  rcases ho with rfl | rfl | rfl | rfl | rfl <;> exact writeConfig_of_busy h _

/-- The byte lanes of RES_DATA[k]: the result bytes from `4k` on, and 0 beyond a result that fits its buffer (10_state.md
R39). -/
theorem resWord_lane {s : State} (h : s.res.length ≤ s.cfg.resCap) (k : Nat) {j : Nat} (hj : j < 4) :
    (s.resWord k).extractLsb' (8 * j) 8 = s.resByte (4 * k + j) := by
  unfold State.resWord
  split
  · rw [State.resByte, List.getD_eq_default _ _ (by omega), BitVec.extractLsb'_zero]
  · exact wordOfBytes_lane (fun i => s.resByte (4 * k + i)) hj

end Sys2Proof.Machine
end

section
/-! PROOFS of the statements about the register window (10_state.md §2, §3). -/

namespace Sys2Proof.Machine

/-- Settles O44: the fields of CAPS and SCAN_CAP hold the parameters modulo their widths, into which the legal ones fit. -/
theorem capsTellTheParameters : Obligations.CapsTellTheParameters := by
  intro s hl
  obtain ⟨hstep, hceil, hcap⟩ := capsWord_fields s.cfg
  simp only [Config.legal, Bool.and_eq_true, decide_eq_true_eq] at hl
  simp only [State.readReg, scanCapWord, hstep, hceil, hcap, BitVec.toNat_ofNat, true_and]
  omega

/-- Settles O37: each offset of the map names its register, and each register's word has its fields. -/
theorem registerWordsHoldTheirFields : Obligations.RegisterWordsHoldTheirFields := by
  refine ⟨⟨rfl, rfl, rfl⟩, ⟨rfl, rfl, rfl, rfl, rfl, rfl, rfl⟩, fun s hb => ?_⟩
  intro reads
  have read (off : Nat) (h4 : off % 4 = 0) (hlt : off < 4096) : reads off (s.readReg (regAt off)) :=
    perform_regRead hb h4 hlt
  obtain ⟨busy, done, err, ill, ovr⟩ := s.status.word_flags
  obtain ⟨found, opened⟩ := s.scanRes.word_flags
  exact ⟨⟨_, read 0x000 rfl (by decide), s.ctrl.word_fields⟩,
    ⟨_, read 0x004 rfl (by decide), busy, done, err, ill, ovr, s.status.word_fields⟩,
    read 0x008 rfl (by decide), read 0x00C rfl (by decide), read 0x010 rfl (by decide),
    ⟨_, read 0x014 rfl (by decide), s.frameSize.word_fields⟩,
    ⟨_, read 0x018 rfl (by decide), s.srcFmt.word_fields⟩,
    ⟨_, read 0x01C rfl (by decide), s.fbGeom.word_fields⟩,
    ⟨_, read 0x020 rfl (by decide), s.convRes.word_fields⟩,
    ⟨_, read 0x024 rfl (by decide), found, opened, s.scanRes.word_fields⟩,
    ⟨_, read 0x028 rfl (by decide), s.scanCnt.word_fields⟩,
    ⟨_, read 0x02C rfl (by decide), s.resLen.word_fields⟩,
    ⟨_, read 0x030 rfl (by decide), capsWord_fields s.cfg⟩,
    read 0x034 rfl (by decide)⟩

/-- Settles O42: a bus read changes the reply only, and from 0x020 on no write reaches a register. -/
theorem readsAndReadOnlyWritesHaveNoEffect : Obligations.ReadsAndReadOnlyWritesHaveNoEffect := by
  intro s off v hlt h4 hb
  refine ⟨⟨_, perform_regRead hb h4 hlt, fun h1 h2 => by rw [regAt_gap h1 h2]; rfl⟩, fun h => ?_⟩
  obtain ⟨hcmd, hkept⟩ := writeReg_readOnly { s with reply := .written } v h
  rw [perform_regWrite hb h4 hlt hcmd, hkept]

/-- Settles O43: the lanes of RES_DATA[k] are result bytes, and a byte beyond the result reads 0. -/
theorem resultBytesInTheirLanes : Obligations.ResultBytesInTheirLanes := by
  intro s k j hk hj hres hb
  refine ⟨s.resWord k, ?_, ?_, fun h => if_pos h⟩
  · rw [Nat.add_assoc, perform_regRead hb (by omega) (by omega), regAt_resData hk]
    rfl
  · rw [resWord_lane hres k hj, State.resByte]
    split
    · rfl
    · exact List.getD_eq_default _ _ (by omega)

end Sys2Proof.Machine
end

section
/-! SUPPORT. What one event of one agent can do to a state, said once: the words of the commands, the engine's frame, and
the inversion of `perform` (60_exceptions.md R240). -/

namespace Sys2Proof.Machine

/-! ## Command words -/

/-- A word is its reserved bits above its OPCODE (30_encoding.md R90). -/
theorem reservedField_append_opcodeField (v : Word) : reservedField v ++ opcodeField v = v :=
  (BitVec.extractLsb'_append_extractLsb'_eq_extractLsb' rfl).trans BitVec.extractLsb'_eq_self

/-- An OPCODE that selects a command is that command's (30_encoding.md R91). -/
theorem decodeOpcode_ok {op : BitVec 4} {i : Instr} (h : decodeOpcode op = .ok i) : op = opcodeOf i := by
  unfold decodeOpcode at h
  repeat' split at h
  all_goals cases h
  all_goals assumption

/-- An OPCODE that selects no command is 4 or more (30_encoding.md R93). -/
theorem decodeOpcode_error {op : BitVec 4} {r : Reject} (h : decodeOpcode op = .error r) : 4#4 ≤ op := by
  unfold decodeOpcode at h
  repeat' split at h
  all_goals cases h
  bv_omega

/-- A word that selects a command is that command's word (30_encoding.md R91). -/
theorem decodeWord_ok {v : Word} {i : Instr} (h : decodeWord v = .ok i) : v = encode i := by
  unfold decodeWord at h
  split at h
  · cases h
  · rename_i hr
    rw [← reservedField_append_opcodeField v, Classical.not_not.mp hr, decodeOpcode_ok h]
    rfl

/-- A word that selects no command has a reserved bit set or an OPCODE of 4 or more (30_encoding.md R93). -/
theorem decodeWord_error {v : Word} {r : Reject} (h : decodeWord v = .error r) :
    reservedField v ≠ 0#28 ∨ 4#4 ≤ opcodeField v := by
  unfold decodeWord at h
  split at h
  · exact .inl ‹_›
  · exact .inr (decodeOpcode_error h)

/-- The command of a value of `S.op`. -/
def commandOf : RunOp → Instr
  | .convert => .convert
  | .scan => .scan
  | .frame => .frame

/-- LASTOP takes the OPCODE field of an accepted word (30_encoding.md R92). -/
def State.noteOp (op : BitVec 4) (s : State) : State := { s with status := { s.status with lastop := op } }

/-- What a write of `v` to CMD does to `s`, with the state after it. -/
inductive CommandTaken (v : Word) (s : State) : State → Prop
  /-- dropped (30_encoding.md R94) -/
  | dropped : s.status.busy = true → CommandTaken v s (overrun s)
  /-- an accepted NOP (42_control.md R200) -/
  | nop : s.status.busy = false → v = encode .nop → CommandTaken v s (acceptNop (s.noteOp (opcodeOf .nop)))
  /-- an accepted command that runs a phase (30_encoding.md R95) -/
  | run (op : RunOp) : s.status.busy = false → v = encode (commandOf op) →
      CommandTaken v s (accept op (s.noteOp (opcodeOf (commandOf op))))
  /-- an illegal word (42_control.md R202) -/
  | illegal : s.status.busy = false → reservedField v ≠ 0#28 ∨ 4#4 ≤ opcodeField v →
      CommandTaken v s (acceptIllegal (s.noteOp (opcodeField v)))

/-- Every write to CMD does one of these. -/
theorem commandWrite_taken {v : Word} {s t : State} (h : commandWrite v s = .next t) : CommandTaken v s t := by
  cases hb : s.status.busy
  case true =>
    obtain ⟨op, f, he, -⟩ := commandWrite_next v s
    cases he.symm.trans h
    rw [issue_of_busy hb]
    exact .dropped hb
  case false =>
    unfold commandWrite at h
    split at h
    · rename_i i hi
      cases (exec_eq i s).symm.trans h
      rw [issue_of_idle hb]
      cases i
      case nop => exact .nop hb (decodeWord_ok hi)
      case convert => exact .run .convert hb (decodeWord_ok hi)
      case scan => exact .run .scan hb (decodeWord_ok hi)
      case frame => exact .run .frame hb (decodeWord_ok hi)
    · rename_i r hr
      cases h
      rw [illegalWord, issue_of_idle hb]
      exact .illegal hb (decodeWord_error hr)

/-! ## What the engine leaves alone -/

/-- What no engine step writes: the parameters, CTRL and the configuration registers, `S.op`, SRC, the agenda, and what the
host and the display last read. -/
def State.hostSide (s : State) :=
  (s.srcBase, s.srcStride, s.frameSize, s.srcFmt, s.fbGeom, s.ctrl, s.cfg, s.op, s.src, s.agenda, s.reply, s.displaySeen)

theorem endScanPhase_hostSide (s : State) : (endScanPhase s).hostSide = s.hostSide := by
  unfold endScanPhase
  split <;> rfl

theorem nextLevel_hostSide (s : State) : (nextLevel s).hostSide = s.hostSide := by
  unfold nextLevel
  split
  · split
    · exact endScanPhase_hostSide s
    · rfl
  · split
    · rfl
    · exact endScanPhase_hostSide _

theorem finishFound_hostSide (r : Response) (o : Bool) (s : State) : (finishFound r o s).hostSide = s.hostSide :=
  endScanPhase_hostSide _

theorem finishRow_hostSide (r : Nat) (s : State) : (finishRow r s).hostSide = s.hostSide := by
  unfold finishRow
  split <;> rfl

theorem countRow_drawn_hostSide (r : Nat) (s : State) : (countRow r s.drawn).hostSide = s.hostSide := rfl

theorem blockWrite_hostSide (s : State) (o : Nat) (v : List Byte) : (s.blockWrite o v).hostSide = s.hostSide := rfl

/-- No engine step writes the host's side of the state. -/
theorem engineStep_hostSide {s t : State} (h : engineStep s = .next t) : t.hostSide = s.hostSide := by
  unfold engineStep at h
  split at h
  · cases h; rfl
  · unfold scanEntry at h
    split at h <;> cases h
    · exact endScanPhase_hostSide _
    · generalize otsu (hist s.luma) = t0
      rfl
  · unfold scanBin at h
    split at h <;> cases h
    rfl
  · unfold scanWaitPlain at h
    split at h
    · cases h; rfl
    · split at h <;> cases h
      · exact finishFound_hostSide _ _ _
      · rfl
  · unfold scanWaitOpen at h
    split at h
    · cases h; rfl
    · split at h <;> cases h
      · exact finishFound_hostSide _ _ _
      · exact nextLevel_hostSide _
  · unfold convEntry at h
    repeat' split at h
    all_goals cases h; rfl
  · unfold convRow at h
    repeat' split at h
    all_goals cases h
    rw [finishRow_hostSide, countRow_drawn_hostSide, State.writeRow, blockWrite_hostSide]

/-! ## One event -/

/-- The block's registers and its engine are left alone: the states differ in SRC, FB, the decoder port and the model's own
fields only. -/
def BlockKept (s t : State) : Prop :=
  t = { s with
    src := t.src, fb := t.fb, decReq := t.decReq, decRsp := t.decRsp, srcUnsettled := t.srcUnsettled,
    fbRace := t.fbRace, draws := t.draws, reply := t.reply, displaySeen := t.displaySeen }

/-- What an event does to `s`, with the state `t` after it (60_exceptions.md R240). -/
inductive Performed (s t : State) : Event → Prop
  /-- an access to SRC or FB, a decoder's answer, or a bus access that reaches no writable register -/
  | aside (e : Event) : BlockKept s t → Performed s t e
  /-- a bus write to a register other than CMD -/
  | register (off : Nat) (v : Word) : t = { s with reply := .written }.writeReg v (regAt off) →
      Performed s t (.regWrite (s.cfg.regBase + off) 4 v)
  /-- a bus write to CMD -/
  | command (v : Word) : CommandTaken v { s with reply := .written } t → Performed s t (.regWrite (s.cfg.regBase + 0x008) 4 v)
  | reset (landed : List Bool) : t = resetStep landed s → Performed s t (.reset landed)
  | engine : engineStep s = .next t → Performed s t .engine

theorem hostLoad_blockKept (addr size : Nat) (s : State) : BlockKept s (hostLoad addr size s) := by
  unfold hostLoad
  repeat' split
  all_goals rfl

theorem decoderAnswer_blockKept (r : Response) (s : State) : BlockKept s (decoderAnswer r s) := by
  unfold decoderAnswer
  split <;> rfl

theorem hostStore_performed {addr size : Nat} {v : Word} {s t : State} (h : hostStore addr size v s = .next t) :
    Performed s t (.regWrite addr size v) := by
  obtain ⟨r, he⟩ | ⟨rfl, hle, hcase⟩ := hostStore_cases addr size v s
  · cases he.symm.trans h
    exact .aside _ rfl
  · obtain ⟨off, rfl⟩ := Nat.exists_eq_add_of_le hle
    rw [Nat.add_sub_cancel_left] at hcase
    obtain ⟨r, rfl, -, he⟩ | ⟨hr, he⟩ := hcase
    · cases he.symm.trans h
      exact .register off v rfl
    · obtain rfl := regAt_cmd hr
      exact .command v (commandWrite_taken (he.symm.trans h))

/-- Every event that answers a next state does one of these. -/
theorem perform_performed {e : Event} {s t : State} (h : perform e s = .next t) : Performed s t e := by
  cases e with
  | regRead addr size => cases h; exact .aside _ (hostLoad_blockKept addr size s)
  | regWrite addr size v => exact hostStore_performed h
  | srcRead a n =>
    simp only [perform] at h
    split at h <;> cases h
    exact .aside _ rfl
  | srcWrite a bytes =>
    simp only [perform] at h
    split at h <;> cases h
    have hw : ∃ m u, s.writeSrc a bytes = { s with src := m, srcUnsettled := u } := ⟨_, _, writeSrc_eq s a bytes⟩
    obtain ⟨m, u, hw⟩ := hw
    rw [hw]
    exact .aside _ rfl
  | srcSync => cases h; exact .aside _ rfl
  | fbRead o n =>
    simp only [perform] at h
    split at h <;> cases h
    exact .aside _ rfl
  | fbWrite o bytes =>
    simp only [perform] at h
    split at h <;> cases h
    obtain ⟨m, r, hw⟩ := hostWrite_eq s o 0 bytes
    rw [hw]
    exact .aside _ rfl
  | display o n =>
    simp only [perform] at h
    split at h <;> cases h
    exact .aside _ rfl
  | decoder r => cases h; exact .aside _ (decoderAnswer_blockKept r s)
  | reset landed => cases h; exact .reset landed rfl
  | engine => exact .engine h

end Sys2Proof.Machine
end

section
/-! PROOFS of the statements about what an event may change: the configuration of a busy block (10_state.md R41), and the
status flags (R42). -/

namespace Sys2Proof.Machine

/-! ## The configuration of a busy block -/

/-- What the phases read of the registers: the five configuration registers, WCHK and the parameters. -/
def State.phaseInputs (s : State) :=
  (s.srcBase, s.srcStride, s.frameSize, s.srcFmt, s.fbGeom, s.ctrl.wchk, s.cfg)

/-- A register write to a busy block changes none of them. -/
theorem writeReg_phaseInputs {s : State} (hb : s.status.busy = true) (v : Word) (r : Reg) :
    (s.writeReg v r).phaseInputs = s.phaseInputs := by
  have config (u : State) : (writeConfig u s).phaseInputs = s.phaseInputs := by
    rw [writeConfig_of_busy hb]
    rfl
  cases r
  case ctrl => simp only [State.phaseInputs, State.writeReg, writeCtrl, hb, if_true]
  case srcBase | srcStride | frameSize | srcFmt | fbGeom => exact config _
  all_goals rfl

/-- No event but a reset changes what the phases of a busy block read. -/
theorem perform_phaseInputs {s t : State} {e : Event} (h : perform e s = .next t) (hb : s.status.busy = true)
    (hr : ∀ landed, e ≠ .reset landed) : t.phaseInputs = s.phaseInputs := by
  cases perform_performed h with
  | aside _ hk => rw [hk]; rfl
  | register off v ht => rw [ht]; exact writeReg_phaseInputs (s := { s with reply := .written }) hb v _
  | command v hc =>
    cases hc with
    | dropped => rfl
    | nop hi => exact absurd (hb.symm.trans hi) nofun
    | run op hi => exact absurd (hb.symm.trans hi) nofun
    | illegal hi => exact absurd (hb.symm.trans hi) nofun
  | reset landed => exact absurd rfl (hr landed)
  | engine he =>
    have := engineStep_hostSide he
    simp only [State.hostSide, Prod.mk.injEq] at this
    simp only [State.phaseInputs, this]

/-- Settles O39: a busy block drops the writes to its configuration and to WCHK, and its engine writes neither. -/
theorem busyConfigurationWritesAreIgnored : Obligations.BusyConfigurationWritesAreIgnored := by
  intro s hb
  refine ⟨fun v hbase => ⟨fun off hoff => ?_, ?_⟩, fun t hstep hreset => ?_⟩
  · have hlow : off % 4 = 0 ∧ off < 4096 ∧ regAt off ≠ .cmd := by
      fin_cases hoff <;> decide
    obtain ⟨h4, hlt, hcmd⟩ := hlow
    rw [perform_regWrite hbase h4 hlt hcmd, writeReg_config_of_busy (s := { s with reply := .written }) hb v hoff]
    rfl
  · refine (perform_regWrite (off := 0) hbase rfl (by decide) (by decide) v).trans ?_
    simp only [regAt, State.writeReg, writeCtrl, hb, if_true]
  · have hkept : t.phaseInputs = s.phaseInputs := by
      cases ha : s.agenda with
      | nil =>
        simp only [step, agentStep, ha] at hstep
        exact perform_phaseInputs (e := .engine) hstep hb nofun
      | cons e rest =>
        simp only [step, agentStep, ha] at hstep
        exact perform_phaseInputs (s := { s with agenda := rest }) hstep hb fun landed he => hreset landed rest (by rw [ha, he])
    simpa only [State.phaseInputs, Prod.mk.injEq] using hkept

end Sys2Proof.Machine
end

section
/-! PROOF of the statement about the status flags (10_state.md R42). -/

namespace Sys2Proof.Machine

/-! ## The flags through each kind of event -/

/-- The words of the commands (30_encoding.md R91). -/
theorem encode_words :
    encode .nop = 0x00000000#32 ∧ encode .convert = 0x00000001#32 ∧ encode .scan = 0x00000002#32
      ∧ encode .frame = 0x00000003#32 :=
  ⟨rfl, rfl, rfl, rfl⟩

/-- LASTOP is no flag: taking it leaves every other field of STATUS and the results alone. -/
@[simp] theorem State.noteOp_fields (op : BitVec 4) (s : State) :
    (s.noteOp op).status = { s.status with lastop := op } ∧ (s.noteOp op).scanRes = s.scanRes
      ∧ (s.noteOp op).resLen = s.resLen :=
  ⟨rfl, rfl, rfl⟩

theorem BlockKept.flags {s t : State} (h : BlockKept s t) :
    t.status = s.status ∧ t.scanRes = s.scanRes ∧ t.resLen = s.resLen := by
  rw [h]
  exact ⟨rfl, rfl, rfl⟩

/-- A reset clears every flag, wherever it falls (70_reset_and_hazards.md R260). -/
theorem resetStep_flags (landed : List Bool) (s : State) :
    (resetStep landed s).status = State.reset.status ∧ (resetStep landed s).scanRes = ScanRes.zero
      ∧ (resetStep landed s).resLen = ResLen.zero :=
  ⟨rfl, rfl, rfl⟩

/-- An idle engine stands still (log 2). -/
theorem engineStep_of_idle {s t : State} (h : engineStep s = .next t) (hf : s.fsm = .idle) : t = s := by
  simp only [engineStep, hf] at h
  cases h
  rfl

/-- In a state with the invariant the engine clears no flag but BUSY: ERR is clear while a command runs, and OPENED and TRUNC
are clear while a scan phase does. -/
theorem engineStep_keeps_set_flags {s t : State} (h : engineStep s = .next t) (hi : Inv s) :
    (s.status.err = true → t.status.err = true) ∧ (s.scanRes.opened = true → t.scanRes.opened = true)
      ∧ (s.resLen.trunc = true → t.resLen.trunc = true) := by
  obtain ⟨-, -, hstatus, hresult⟩ := engineStep_flags h
  refine ⟨fun herr => ?_, ?_⟩
  · have hidle : s.fsm = .idle := by
      by_contra hrun
      exact absurd (herr.symm.trans (hi.runningFlags hrun).2.1) nofun
    rw [engineStep_of_idle h hidle, herr]
  · obtain ⟨-, hopened, htrunc⟩ | ⟨hwait, -⟩ := hresult
    · exact ⟨fun ho => hopened.trans ho, fun ht => htrunc.trans ht⟩
    · have hscan : s.fsm.scanning = true := by
        revert hwait
        cases s.fsm <;> simp [Fsm.waiting, Fsm.scanning]
      obtain ⟨hfound, hlen⟩ := hi.nothingFound hscan
      obtain ⟨-, -, -, -, hopened⟩ := hi.result
      refine ⟨fun ho => absurd (hfound.symm.trans (hopened ho)) nofun, fun ht => ?_⟩
      rw [hlen] at ht
      exact absurd ht nofun

/-- Settles O51: by the kind of event. The flags of the state after it are known in each, and a flag left alone neither rises
nor falls. -/
theorem flagsChangeOnlyAsListed : Obligations.FlagsChangeOnlyAsListed := by
  intro s t e h
  dsimp only
  cases perform_performed h with
  | aside _ hk =>
    obtain ⟨hst, hsr, hrl⟩ := hk.flags
    simp +contextual [hst, hsr, hrl]
  | register off v ht =>
    obtain ⟨hsr, hrl, hst⟩ := writeReg_flags { s with reply := .written } v off
    rw [← ht] at hsr hrl hst
    obtain hst | ⟨rfl, hst⟩ | ⟨hoff, hb, hst⟩ := hst
    · simp +contextual [hst, hsr, hrl]
    · simp +contextual [hst, hsr, hrl, Status.acknowledge]
    · replace hb : s.status.busy = true := hb
      simp only [configOffsets, List.mem_cons, List.mem_nil_iff, or_false] at hoff
      simp +contextual [hst, hsr, hrl, Status.overrun, hb, hoff]
  | command v hc =>
    cases hc with
    | dropped hb =>
      replace hb : s.status.busy = true := hb
      simp +contextual [Status.overrun, hb]
    | nop hi hv =>
      replace hi : s.status.busy = false := hi
      simp +contextual [Status.nop, hv, encode_words, hi]
    | run op hi hv =>
      replace hi : s.status.busy = false := hi
      cases op <;>
        simp +contextual [Status.accept, opScans, ScanRes.zero, ResLen.zero, hv, commandOf, encode_words, hi]
    | illegal hi hv =>
      replace hi : s.status.busy = false := hi
      have hv : v.extractLsb' 4 28 ≠ 0#28 ∨ 4#4 ≤ v.extractLsb' 0 4 := hv
      simp +contextual [Status.illegal, hi, hv]
  | reset landed ht =>
    obtain ⟨hst, hsr, hrl⟩ := resetStep_flags landed s
    simp +contextual [ht, hst, hsr, hrl, State.reset, ScanRes.zero, ResLen.zero]
  | engine he =>
    obtain ⟨hill, hovr, hstatus, hresult⟩ := engineStep_flags he
    have hset := engineStep_keeps_set_flags he
    have hidle : Fsm.idle.scanning = false := rfl
    obtain ⟨hbusy, hdone, herr⟩ | ⟨hfsm, hbusy, hdone, herr⟩ := hstatus
    all_goals obtain ⟨hfound, hopened, htrunc⟩ | ⟨hwait, hscan, hfound, r, hr, htrunc⟩ := hresult
    all_goals
      rw [herr, htrunc] at hset
      simp +contextual [*]

end Sys2Proof.Machine
end

section
/-! SUPPORT. What the block's and the host's accesses to SRC and FB do: the records of the races, the rows of a frame over each
other, and the engine's step on a state with other memories (20_memory.md §1, §4). -/

namespace Sys2Proof.Machine

/-! ## The records of the host's SRC writes -/

/-- A key that is listed, however often, has a lookup. -/
theorem lookupKey_isSome_of_mem {β : Type} {l : List (Nat × β)} {a : Nat} {b : β} (h : (a, b) ∈ l) :
    (lookupKey l a).isSome = true := by
  induction l with
  | nil => cases h
  | cons p t ih =>
    unfold lookupKey
    split
    · rfl
    · rename_i hk
      rcases List.mem_cons.mp h with rfl | h
      · exact absurd rfl hk
      · exact ih h

/-- A listed address is read as a free value (20_memory.md R75). -/
theorem blockRead_of_unsettled {s : State} {a : Nat} (h : (lookupKey s.srcUnsettled a).isSome = true) (y k : Nat) :
    s.blockRead y k a = Config.raceByte s.draws y k := by
  obtain ⟨v, hv⟩ := Option.isSome_iff_exists.mp h
  simp only [State.blockRead, hv]

theorem mem_putKey_self {β : Type} (l : List (Nat × β)) (a : Nat) (b : β) : (a, b) ∈ putKey l a b :=
  mem_of_lookupKey ((lookupKey_putKey l a a b).trans (if_pos rfl))

/-- Every record made visible is dropped when the races close (70_reset_and_hazards.md R272). -/
theorem filter_visible (l : List (Nat × Bool)) : ((l.map fun p => (p.1, true)).filter fun p => !p.2) = [] := by
  simp [List.filter_eq_nil_iff]

/-- A reset inside a row write changes FB only. -/
theorem cutRow_eq (s : State) (landed : List Bool) : ∃ m, s.cutRow landed = { s with fb := m } := by
  unfold State.cutRow
  split <;> exact ⟨_, rfl⟩

/-- A reset leaves SRC alone and drops the records made visible (70_reset_and_hazards.md R261, R272). -/
theorem resetStep_src (s : State) (landed : List Bool) :
    (resetStep landed s).src = s.src ∧ (resetStep landed s).srcUnsettled = s.srcUnsettled.filter fun p => !p.2 := by
  obtain ⟨m, h⟩ := cutRow_eq s landed
  simp [resetStep, h]

/-! ## The contests of FB -/

/-- Of two contending bytes one stays (20_memory.md R75). -/
theorem settleByte_cases (s : State) (k : Nat) (h b : Byte) : s.settleByte k h b = h ∨ s.settleByte k h b = b := by
  unfold State.settleByte
  split
  · exact .inl rfl
  · exact .inr rfl

/-- A host write of an FB byte in a convert phase enters it in the contests (20_memory.md R75). -/
theorem hostWriteByte_fbRace {s : State} (hc : s.converting = true) (o k : Nat) (h : Byte) :
    lookupKey (s.hostWriteByte o k h).fbRace o = some { host := h, block := s.blockByteAt o } := by
  simp only [State.hostWriteByte, hc, if_true, lookupKey_putKey]

/-- What a host write in a convert phase leaves at its byte: the host's, or the one the block has written there. -/
theorem hostWriteByte_read {s : State} (hf : s.fb.wf = true) (hc : s.converting = true) (o k : Nat) (h : Byte) :
    (s.hostWriteByte o k h).fb.read o = h ∨ s.blockByteAt o = some ((s.hostWriteByte o k h).fb.read o) := by
  simp only [State.hostWriteByte, hc, if_true, Memory.read_write hf]
  cases s.blockByteAt o with
  | none => exact .inl rfl
  | some v => exact (settleByte_cases s k h v).imp id fun hv => congrArg some hv.symm

/-- What a write of one byte by the block leaves there, where the host's byte `c.host` contends. -/
theorem blockWrite_read_contested {s : State} (hf : s.fb.wf = true) {o : Nat} {c : Contest}
    (hc : lookupKey s.fbRace o = some c) (b : Byte) :
    (s.blockWrite o [b]).fb.read o = s.settleByte 0 c.host b := by
  simp [Memory.read_writeBytes hf, State.blockBytes, State.blockByte, hc]

/-- Without an earlier contest the block's byte is the one in FB, where it has written one (41_convert.md R166). -/
theorem blockByteAt_of_settled {s : State} (h : s.fbRace = []) {o : Nat} {v : Byte} (hv : s.blockByteAt o = some v) :
    v = s.fb.read o ∧ s.blockWrote o = true := by
  simp only [State.blockByteAt, h, lookupKey] at hv
  split at hv
  · rename_i hw
    exact ⟨(Option.some.inj hv).symm, hw⟩
  · cases hv

/-! ## Rows over each other -/

/-- Row `r` of the frame covers the FB byte at `a` (41_convert.md R166). -/
def State.rowCovers (s : State) (a r : Nat) : Prop := s.rowOffset r ≤ a ∧ a < s.rowOffset r + s.rowLength

/-- A row just written is read back where it covers. -/
theorem fbAfterRows_read_covered {s : State} (hf : s.fb.wf = true) (hb : s.bpp = 16 ∨ s.bpp = 32) {a r : Nat}
    (h : s.rowCovers a r) : (s.fbAfterRows (r + 1)).read a = (s.frameRow r).getD (a - s.rowOffset r) 0#8 := by
  rw [State.fbAfterRows, Memory.read_writeBytes (fbAfterRows_wf hf r), frameRow_length hb]
  exact if_pos h

/-- Rows that do not cover a byte leave it as the rows before them did (20_memory.md R71). -/
theorem fbAfterRows_read_uncovered {s : State} (hf : s.fb.wf = true) (hb : s.bpp = 16 ∨ s.bpp = 32) {a m n : Nat}
    (hmn : m ≤ n) (h : ∀ r < n, m ≤ r → ¬ s.rowCovers a r) : (s.fbAfterRows n).read a = (s.fbAfterRows m).read a := by
  induction n, hmn using Nat.le_induction with
  | base => rfl
  | succ n hmn ih =>
    rw [State.fbAfterRows, Memory.read_writeBytes (fbAfterRows_wf hf n), frameRow_length hb]
    exact (if_neg (h n (by omega) hmn)).trans (ih fun r hr => h r (by omega))

/-! ## The engine on other memories -/

/-- The state with other contents of SRC and FB. -/
def State.withMemories (src fb : Memory) (s : State) : State := { s with src := src, fb := fb }

/-- What the engine's step makes of an FB of content `b`: at CONV_ROW the row's bytes are written (41_convert.md R166). -/
def State.fbWritten (s : State) (b : Memory) : Memory :=
  if s.fsm = .convRow then b.writeBytes (s.rowOffset s.row) (s.blockBytes (s.rowOffset s.row) (s.rowBytes s.row)) else b

/-- The engine's step reads the same from an SRC of content `m`: at SCAN_ENTRY past its checks and at SCAN_BIN the luminance,
at CONV_ROW the row (20_memory.md R62). -/
structure State.ReadsSame (s : State) (m : Memory) : Prop where
  entry : s.fsm = .scanEntry → s.scanCheck = none → (s.withMemories m s.fb).luma = s.luma
  bin : s.fsm = .scanBin → (s.withMemories m s.fb).luma = s.luma
  row : s.fsm = .convRow → (s.withMemories m s.fb).rowBytes s.row = s.rowBytes s.row

theorem readsSame_self (s : State) : s.ReadsSame s.src := ⟨fun _ _ => rfl, fun _ => rfl, fun _ => rfl⟩

section
variable (m b : Memory)

theorem endScanPhase_withMemories (s : State) :
    endScanPhase (s.withMemories m b) = (endScanPhase s).withMemories m b := by
  by_cases h : s.op = .frame
  · rw [endScanPhase_frame h, endScanPhase_frame (s := s.withMemories m b) h]
    rfl
  · rw [endScanPhase_else h, endScanPhase_else (s := s.withMemories m b) h]
    rfl

theorem raise_withMemories (e : Engine) (c : ErrCode) (s : State) :
    raise e c (s.withMemories m b) = (raise e c s).withMemories m b := by
  cases e with
  | scanner => exact endScanPhase_withMemories m b { s with scanRes := { s.scanRes with serr := c }, err := true }
  | converter => rfl

theorem finishFound_withMemories (r : Response) (o : Bool) (s : State) :
    finishFound r o (s.withMemories m b) = (finishFound r o s).withMemories m b :=
  endScanPhase_withMemories m b (noteFound o (store r (consume s)))

/-- After an initial attempt at the ceiling the search ends (40_scan.md R123). -/
theorem nextLevel_initial_end {s : State} (hk : s.kind = .initial) (ht : Config.tceil ≤ s.scanRes.t0.toNat) :
    nextLevel s = endScanPhase s := by
  unfold nextLevel
  split
  · exact if_pos ht
  · simp_all

theorem nextLevel_withMemories (s : State) : nextLevel (s.withMemories m b) = (nextLevel s).withMemories m b := by
  have hend := endScanPhase_withMemories m b
  cases hk : s.kind with
  | initial =>
    rcases Nat.lt_or_ge s.scanRes.t0.toNat Config.tceil with ht | ht
    · rw [nextLevel_initial hk ht, nextLevel_initial (s := s.withMemories m b) hk ht]
      rfl
    · rw [nextLevel_initial_end hk ht, nextLevel_initial_end (s := s.withMemories m b) hk ht]
      exact hend s
  | loop =>
    rcases Nat.lt_or_ge (s.t + s.cfg.step) Config.tceil with ht | ht
    · rw [nextLevel_more hk ht, nextLevel_more (s := s.withMemories m b) hk ht]
      rfl
    · rw [nextLevel_end hk ht, nextLevel_end (s := s.withMemories m b) hk ht]
      exact hend { s with t := s.t + s.cfg.step }

/-! Each step of the engine, on other memories from which it reads the same. -/

variable {m} {s t : State}

theorem scanWaitPlain_withMemories (h : scanWaitPlain s = .next t) :
    scanWaitPlain (s.withMemories m b) = .next (t.withMemories m b) := by
  have hr : (s.withMemories m b).decRsp = s.decRsp := rfl
  unfold scanWaitPlain at h ⊢
  rw [hr]
  cases hd : s.decRsp <;> simp only [hd] at h ⊢
  case none =>
    cases h
    rfl
  case some r =>
    by_cases hfound : found r = true
    · rw [if_pos hfound] at h ⊢
      cases h
      exact congrArg Host.Outcome.next (finishFound_withMemories m b r _ s)
    · rw [if_neg hfound] at h ⊢
      cases h
      rfl

theorem scanWaitOpen_withMemories (h : scanWaitOpen s = .next t) :
    scanWaitOpen (s.withMemories m b) = .next (t.withMemories m b) := by
  have hr : (s.withMemories m b).decRsp = s.decRsp := rfl
  unfold scanWaitOpen at h ⊢
  rw [hr]
  cases hd : s.decRsp <;> simp only [hd] at h ⊢
  case none =>
    cases h
    rfl
  case some r =>
    by_cases hfound : found r = true
    · rw [if_pos hfound] at h ⊢
      cases h
      exact congrArg Host.Outcome.next (finishFound_withMemories m b r _ s)
    · rw [if_neg hfound] at h ⊢
      cases h
      exact congrArg Host.Outcome.next (nextLevel_withMemories m b (consume s))

theorem convEntry_withMemories (h : convEntry s = .next t) :
    convEntry (s.withMemories m b) = .next (t.withMemories m b) := by
  have hck : (s.withMemories m b).convertCheck = s.convertCheck := rfl
  have hh : (s.withMemories m b).frameH = s.frameH := rfl
  unfold convEntry at h ⊢
  rw [hck, hh]
  split at h
  · cases h
    rfl
  · split at h
    all_goals
      rename_i h0
      simp only [h0, if_true, if_false]
      cases h
      rfl

theorem finishRow_withMemories (r : Nat) : finishRow r (s.withMemories m b) = (finishRow r s).withMemories m b := by
  by_cases h : r + 1 < s.frameH
  · rw [finishRow_more h, finishRow_more (s := s.withMemories m b) h]
    rfl
  · rw [finishRow_last h, finishRow_last (s := s.withMemories m b) h]
    rfl

variable (hm : s.ReadsSame m)
include hm

theorem scanEntry_withMemories (hf : s.fsm = .scanEntry) (h : scanEntry s = .next t) :
    scanEntry (s.withMemories m b) = .next (t.withMemories m b) := by
  have hck : (s.withMemories m b).scanCheck = s.scanCheck := rfl
  unfold scanEntry at h ⊢
  rw [hck]
  split at h
  · cases h
    exact congrArg _ (raise_withMemories m b _ _ s)
  · rename_i hn
    have hl : (s.withMemories m b).luma = s.luma := hm.entry hf hn
    rw [hl]
    cases h
    generalize otsu (hist s.luma) = t0
    rfl

theorem scanBin_withMemories (hf : s.fsm = .scanBin) (h : scanBin s = .next t) :
    scanBin (s.withMemories m b) = .next (t.withMemories m b) := by
  have hl : (s.withMemories m b).luma = s.luma := hm.bin hf
  have hin : (s.withMemories m b).srcInside (s.withMemories m b).channels = s.srcInside s.channels := rfl
  unfold scanBin at h ⊢
  rw [hl, hin]
  split at h
  · rename_i hi
    rw [if_pos hi]
    cases h
    rfl
  · cases h

theorem convRow_withMemories (hf : s.fsm = .convRow) (h : convRow s = .next t) :
    convRow (s.withMemories m b) = .next (t.withMemories m (s.fbWritten b)) := by
  have hb : (s.withMemories m b).rowBytes (s.withMemories m b).row = s.rowBytes s.row := hm.row hf
  have hr : (s.withMemories m b).rowReadable (s.withMemories m b).row = s.rowReadable s.row := rfl
  have hw : (s.withMemories m b).rowWritable (s.withMemories m b).row = s.rowWritable s.row := by
    unfold State.rowWritable
    rw [hb]
    rfl
  have hwritten : ((s.withMemories m b).writeRow (s.withMemories m b).row)
      = (s.writeRow s.row).withMemories m (s.fbWritten b) := by
    unfold State.writeRow State.fbWritten
    rw [hb, if_pos hf]
    rfl
  unfold convRow at h ⊢
  rw [hr, hw, hwritten]
  split at h
  · cases h
  · rename_i h1
    split at h
    · cases h
    · rename_i h2
      rw [if_neg h1, if_neg h2]
      cases h
      exact congrArg Host.Outcome.next
        (finishRow_withMemories (m := m) (s.fbWritten b) (s := countRow s.row (s.writeRow s.row).drawn) s.row)

/-- The engine's step on other memories, from which it reads the same: the same step, which leaves SRC as it is and writes FB
at CONV_ROW only (20_memory.md §1). -/
theorem engineStep_withMemories (h : engineStep s = .next t) :
    engineStep (s.withMemories m b) = .next (t.withMemories m (s.fbWritten b)) := by
  have hfsm : (s.withMemories m b).fsm = s.fsm := rfl
  by_cases hrow : s.fsm = .convRow
  · simp only [engineStep, hfsm, hrow] at h ⊢
    exact convRow_withMemories b hm hrow h
  · rw [State.fbWritten, if_neg hrow]
    cases hf : s.fsm <;> simp only [engineStep, hfsm, hf] at h ⊢
    case idle => cases h; rfl
    case scanEntry => exact scanEntry_withMemories b hm hf h
    case scanBin => exact scanBin_withMemories b hm hf h
    case scanWaitPlain => exact scanWaitPlain_withMemories b h
    case scanWaitOpen => exact scanWaitOpen_withMemories b h
    case convEntry => exact convEntry_withMemories b h
    case convRow => exact absurd hf hrow

end

/-- What the engine's step makes of SRC and FB (20_memory.md §1). -/
theorem engineStep_memories {s t : State} (h : engineStep s = .next t) : t.src = s.src ∧ t.fb = s.fbWritten s.fb := by
  have ht : engineStep s = .next (t.withMemories s.src (s.fbWritten s.fb)) :=
    engineStep_withMemories s.fb (readsSame_self s) h
  have ht : t = t.withMemories s.src (s.fbWritten s.fb) := Host.Outcome.next.inj (h.symm.trans ht)
  rw [ht]
  exact ⟨rfl, rfl⟩

/-! ## What the engine reads of SRC -/

/-- SRC and `m` agree on the channel bytes of every pixel of the frame (10_state.md R24). -/
def State.SameFrame (s : State) (m : Memory) : Prop :=
  ∀ x < s.frameW, ∀ y < s.frameH, ∀ c < s.channels,
    m.read (s.pixelAddr s.channels x y + c) = s.src.read (s.pixelAddr s.channels x y + c)

/-- The block reads the same where the memories agree, racing bytes included (20_memory.md R62, R75). -/
theorem blockRead_congr {s : State} {m : Memory} {a : Nat} (h : m.read a = s.src.read a) (y k : Nat) :
    (s.withMemories m s.fb).blockRead y k a = s.blockRead y k a := by
  simp only [State.blockRead, State.withMemories, h]

/-- The three bytes of a pixel of a 3-channel frame (10_state.md R24). -/
theorem blockRead_pixel_congr {s : State} {m : Memory} (h : s.SameFrame m) (hc : s.channels = 3) {x y : Nat}
    (hx : x < s.frameW) (hy : y < s.frameH) (k : Nat) :
    (s.withMemories m s.fb).blockRead y k (s.pixelAddr 3 x y) = s.blockRead y k (s.pixelAddr 3 x y)
      ∧ (s.withMemories m s.fb).blockRead y k (s.pixelAddr 3 x y + 1) = s.blockRead y k (s.pixelAddr 3 x y + 1)
      ∧ (s.withMemories m s.fb).blockRead y k (s.pixelAddr 3 x y + 2) = s.blockRead y k (s.pixelAddr 3 x y + 2) := by
  have hread := h x hx y hy
  rw [hc] at hread
  exact ⟨blockRead_congr (hread 0 (by decide)) y k, blockRead_congr (hread 1 (by decide)) y k,
    blockRead_congr (hread 2 (by decide)) y k⟩

/-- The luminance of a frame depends on its pixels only (40_scan.md R111). -/
theorem luma_congr {s : State} {m : Memory} (h : s.SameFrame m) (hc : s.channels = 1 ∨ s.channels = 3) :
    (s.withMemories m s.fb).luma = s.luma := by
  refine Image.ofFn_congr fun x hx y hy => ?_
  have hch : (s.withMemories m s.fb).channels = s.channels := rfl
  have haddr : (s.withMemories m s.fb).pixelAddr = s.pixelAddr := rfl
  unfold State.lumaAt
  rw [hch, haddr]
  rcases hc with hc | hc
  · have hread := h x hx y hy 0 (by omega)
    rw [hc] at hread
    simp only [hc, Nat.reduceEqDiff, if_false]
    exact blockRead_congr hread y x
  · simp only [hc, if_true, blockRead_pixel_congr h hc hx hy]

/-- The row bytes of a row of a frame depend on its pixels only (41_convert.md R163). -/
theorem rowBytes_congr {s : State} {m : Memory} (h : s.SameFrame m) (hc : s.channels = 3) {r : Nat} (hr : r < s.frameH) :
    (s.withMemories m s.fb).rowBytes r = s.rowBytes r := by
  refine List.flatMap_congr fun x hx => ?_
  have haddr : (s.withMemories m s.fb).pixelAddr = s.pixelAddr := rfl
  have hbpp : (s.withMemories m s.fb).bpp = s.bpp := rfl
  unfold State.pixelOut
  simp only [haddr, hbpp, blockRead_pixel_congr h hc (List.mem_range.mp hx) hr]

/-- The engine reads no SRC byte outside the frame, at a search position with 1 or 3 channels and at a row of a 3-channel
frame (20_memory.md R61). -/
theorem readsSame_of_sameFrame {s : State} {m : Memory} (h : s.SameFrame m)
    (hsearch : s.fsm.searching = true → s.channels = 1 ∨ s.channels = 3)
    (hrow : s.fsm = .convRow → s.channels = 3 ∧ s.row < s.frameH) : s.ReadsSame m where
  entry _ hck := luma_congr h (scanCheck_none hck).2.1
  bin hf := luma_congr h (hsearch (by rw [hf]; rfl))
  row hf := rowBytes_congr h (hrow hf).1 (hrow hf).2

end Sys2Proof.Machine
end

section
/-! PROOFS of the statements about SRC and FB: who accesses what, and what a race ends with (20_memory.md). -/

namespace Sys2Proof.Machine

/-- Settles O41: an access that is no aligned word takes the bus-error branch of the window. -/
theorem narrowOrMisalignedAccessIsABusError : Obligations.NarrowOrMisalignedAccessIsABusError := by
  intro s addr size v hlo hhi hbad
  have hin : inWindow s.cfg addr = true := by simp [inWindow, hlo, hhi]
  have hword : ¬ wordAccess addr size = true := by
    simp only [wordAccess, Bool.and_eq_true, decide_eq_true_eq]
    omega
  simp only [perform, hostLoad, hostStore, if_pos hin, if_neg hword, and_self]

/-- Settles O14: the rows after the last one that covers the byte, or all rows where none does, leave it as it was. -/
theorem highestCoveringRowWins : Obligations.HighestCoveringRowWins := by
  intro s n a hf hb covers
  refine ⟨fun r hr hc hlater => ?_, fun hnone => ?_⟩
  · rw [fbAfterRows_read_uncovered hf hb hr hlater]
    exact fbAfterRows_read_covered hf hb hc
  · exact fbAfterRows_read_uncovered hf hb n.zero_le fun r hr _ => hnone r hr

/-- Settles O49: the engine's step reads the frame's pixels only, and goes the same way on any SRC that agrees on them. -/
theorem blockReadsOnlyTheFrame : Obligations.BlockReadsOnlyTheFrame := by
  refine ⟨fun s t h => (engineStep_memories h).1, fun s m hsearch hframe hrow t h => ?_⟩
  have hstep := engineStep_withMemories s.fb (readsSame_of_sameFrame hframe hsearch hrow) h
  rw [← (engineStep_memories h).2] at hstep
  exact hstep

/-- Settles O50: the engine's step goes the same way on any FB; `fbWritten` is what it makes of that FB. -/
theorem blockNeverReadsTheFramebuffer : Obligations.BlockNeverReadsTheFramebuffer := by
  intro s m t h
  obtain ⟨hsrc, hfb⟩ := engineStep_memories h
  have hstep : engineStep { s with fb := m } = .next { t with fb := s.fbWritten m } := by
    have hstep := engineStep_withMemories m (readsSame_self s) h
    rw [← hsrc] at hstep
    simpa only [State.withMemories, hsrc] using hstep
  refine ⟨fun hf => ?_, fun hf => ?_⟩
  · rw [hstep, State.fbWritten, if_pos hf]
  · rw [State.fbWritten, if_neg hf] at hstep hfb
    exact ⟨hfb, hstep⟩

/-- Settles O55: only SCAN_BIN and CONV_ROW can fault, and the invariant has their prechecks passed. -/
theorem prechecksKeepTheEngineInside : Obligations.PrechecksKeepTheEngineInside := by
  intro s hi
  cases hf : s.fsm <;> simp only [engineStep, hf]
  case idle => exact ⟨_, rfl⟩
  case scanBin =>
    obtain ⟨-, -, -, hin⟩ := scanCheck_none (hi.searchChecked (by rw [hf]; rfl))
    exact ⟨_, if_pos hin⟩
  case convRow =>
    obtain ⟨hread, hwrite⟩ := row_inside (hi.rowsChecked hf) (hi.rowsInOrder hf).1
    exact ⟨_, by rw [convRow, hread, hwrite]; rfl⟩
  case scanEntry | scanWaitPlain | scanWaitOpen | convEntry =>
    simp only [scanEntry, scanWaitPlain, scanWaitOpen, convEntry]
    repeat' split
    all_goals exact ⟨_, rfl⟩

/-- A host-written SRC byte through the stages of its visibility (20_memory.md R73, R75, 70_reset_and_hazards.md R272). -/
theorem written_byte_reads {s : State} (hs : s.src.wf = true) (y k a : Nat) (b : Byte) :
    let written := s.writeSrc a [b]
    let free := Config.raceByte s.draws y k
    written.blockRead y k a = free ∧ (complete written).blockRead y k a = free
    ∧ (s.status.busy = false → written.syncSrc.blockRead y k a = b)
    ∧ (s.status.busy = true → written.syncSrc.blockRead y k a = free ∧ (complete written.syncSrc).blockRead y k a = b
      ∧ ∀ landed, ∃ t, perform (.reset landed) written.syncSrc = .next t ∧ t.blockRead y k a = b) := by
  intro written free
  have hmem : (a, false) ∈ written.srcUnsettled := mem_putKey_self s.srcUnsettled a false
  have hsrc : written.src.read a = b := (Memory.read_write hs a a b).trans (if_pos rfl)
  refine ⟨blockRead_of_unsettled (lookupKey_isSome_of_mem hmem) y k, ?_, fun hidle => ?_, fun hbusy => ⟨?_, ?_, ?_⟩⟩
  · exact blockRead_of_unsettled (s := complete written)
      (lookupKey_isSome_of_mem (List.mem_filter.mpr ⟨hmem, rfl⟩)) y k
  · have hclear : written.syncSrc.srcUnsettled = [] := if_neg (show ¬ s.status.busy = true by simp [hidle])
    exact (blockRead_of_settled hclear y k a).trans hsrc
  all_goals
    have hvisible : written.syncSrc.srcUnsettled = written.srcUnsettled.map fun p => (p.1, true) := if_pos hbusy
  · refine blockRead_of_unsettled (s := written.syncSrc) (lookupKey_isSome_of_mem (b := true) ?_) y k
    rw [hvisible]
    exact List.mem_map.mpr ⟨_, hmem, rfl⟩
  · refine (blockRead_of_settled (s := complete written.syncSrc) ?_ y k a).trans hsrc
    simp only [complete_fields, hvisible, filter_visible]
  · intro landed
    obtain ⟨hkept, hrecords⟩ := resetStep_src written.syncSrc landed
    refine ⟨_, rfl, ?_⟩
    rw [blockRead_of_settled (by rw [hrecords, hvisible, filter_visible]), hkept]
    exact hsrc

/-- Settles O58: a byte not yet visible is listed, and a contested FB byte ends as one of the two. -/
theorem racesEndWithTheNamedValues : Obligations.RacesEndWithTheNamedValues := by
  intro s hs hf
  refine ⟨fun y k a b => written_byte_reads hs y k a b, fun o k h b hc => ?_, fun o k h hrow hrace => ?_⟩
  · obtain ⟨v, hv⟩ := hostWriteByte_fb s o k h
    have hwf : (s.hostWriteByte o k h).fb.wf = true := by
      rw [hv]
      exact Memory.wf_write hf o v
    rw [blockWrite_read_contested hwf (hostWriteByte_fbRace hc o k h)]
    exact settleByte_cases _ 0 h b
  · exact (hostWriteByte_read hf (by simp [State.converting, hrow]) o k h).imp id (blockByteAt_of_settled hrace)

/-- Settles O59: outside a row write an observer sees FB, inside one the bytes the row's write leaves. -/
theorem observersSeeOldOrNewBytes : Obligations.ObserversSeeOldOrNewBytes := by
  intro s o n hin
  have hspace : insideSpace s.cfg.fbSize o n = true := insideSpace_iff.mpr (.inr hin)
  refine ⟨if_pos hspace, if_pos hspace, by simp [State.observeBytes], fun hf => ?_, fun a k => ?_⟩
  · refine List.map_congr_left fun k _ => ?_
    exact if_neg fun hrow => hf hrow.1
  · unfold State.observeFb
    dsimp only
    split
    · rename_i h
      obtain ⟨hrow, -, -, hstart, -⟩ := h
      exact .inr ⟨hrow, hstart, rfl⟩
    · exact .inl rfl

end Sys2Proof.Machine
end

section
/-! PROOFS of the statements about the command words and their acceptance (30_encoding.md, 42_control.md R202). -/

namespace Sys2Proof.Machine

/-! ## Which words select a command -/

/-- A command's word selects it (30_encoding.md R91). -/
@[simp] theorem decodeWord_encode (i : Instr) : decodeWord (encode i) = .ok i := by
  cases i <;> decide

/-- A command is selected by its word and no other (30_encoding.md R91, R97). -/
theorem decodeWord_eq_ok_iff {v : Word} {i : Instr} : decodeWord v = .ok i ↔ v = encode i :=
  ⟨decodeWord_ok, fun h => h ▸ decodeWord_encode i⟩

/-- A word is refused exactly if a reserved bit is set or its OPCODE is 4 or more (30_encoding.md R93). -/
theorem decodeWord_refused_iff {v : Word} :
    (∃ e, decodeWord v = .error e) ↔ reservedField v ≠ 0#28 ∨ 4#4 ≤ opcodeField v :=
  ⟨fun ⟨_, h⟩ => decodeWord_error h, decodeWord_of_illegal⟩

/-- Settles O3: the decoder inverts the encoder, and its two refusals are the two fields out of range. -/
theorem onlyTheFullWordSelectsACommand : Obligations.OnlyTheFullWordSelectsACommand := fun _ =>
  ⟨decodeWord_eq_ok_iff, decodeWord_eq_ok_iff, decodeWord_eq_ok_iff, decodeWord_eq_ok_iff, decodeWord_refused_iff.symm⟩

/-! ## The host's write to CMD -/

/-- A bus write of a word to CMD acknowledges the write and hands the word to the sequencer (30_encoding.md R92). -/
theorem perform_cmdWrite {s : State} (hb : s.cfg.regBase % 4 = 0) (v : Word) :
    perform (.regWrite (s.cfg.regBase + 0x008) 4 v) s = commandWrite v { s with reply := .written } :=
  hostStore_offset hb rfl (by decide) v

/-- A busy block drops every word (30_encoding.md R94). -/
theorem commandWrite_of_busy {s : State} (h : s.status.busy = true) (v : Word) : commandWrite v s = .next (overrun s) := by
  obtain ⟨op, f, hissue, -⟩ := commandWrite_next v s
  rw [hissue, issue_of_busy h]

/-- An idle block completes an illegal word at once, with LASTOP at its low bits (42_control.md R202). -/
theorem commandWrite_illegal_of_idle {s : State} {v : Word} (h : s.status.busy = false)
    (hv : reservedField v ≠ 0#28 ∨ 4#4 ≤ opcodeField v) :
    commandWrite v s = .next (acceptIllegal (s.noteOp (opcodeField v))) := by
  obtain ⟨e, he⟩ := decodeWord_of_illegal hv
  simp only [commandWrite, he, illegalWord, issue_of_idle h, State.noteOp]

/-- Settles O7: the busy sequencer answers an overrun. -/
theorem busyCommandIsDropped : Obligations.BusyCommandIsDropped := fun s v hbusy hb =>
  (perform_cmdWrite hb v).trans (commandWrite_of_busy (s := { s with reply := .written }) hbusy v)

/-- Settles O5: the idle sequencer refuses the word, the busy one drops it as any other. -/
theorem illegalWordCompletesAtOnce : Obligations.IllegalWordCompletesAtOnce := by
  refine ⟨fun s v hb hv => ⟨fun hidle => ?_, fun hbusy => busyCommandIsDropped s v hbusy hb⟩, ?_, ?_⟩
  · refine ⟨_, (perform_cmdWrite hb v).trans (commandWrite_illegal_of_idle hidle hv), rfl, ?_⟩
    exact Bool.and_true s.ctrl.ie
  · exact ⟨_, rfl, by decide⟩
  · exact ⟨_, rfl, by decide⟩

/-! ## Acceptance -/

/-- An idle block accepts a command that runs a phase, with LASTOP at its OPCODE (30_encoding.md R92, R95). -/
theorem exec_run_of_idle {s : State} (h : s.status.busy = false) (op : RunOp) :
    exec (commandOf op) s = .next (accept op (s.noteOp (opcodeOf (commandOf op)))) := by
  rw [exec_eq, issue_of_idle h]
  cases op <;> rfl

/-- Settles O8: each acceptance of 30_encoding.md R95, with its choices by command made. -/
theorem acceptanceStartsTheFirstPhase : Obligations.AcceptanceStartsTheFirstPhase := fun _ hidle =>
  ⟨exec_run_of_idle hidle .convert, exec_run_of_idle hidle .scan, exec_run_of_idle hidle .frame⟩

end Sys2Proof.Machine
end

section
/-! SUPPORT. What the scanner's image functions compute: the luminance, the counts of the histogram, and the search for the
greatest between-class measure, and the extremes of a neighbourhood (40_scan.md R111 to R117). -/

namespace Sys2Proof.Machine

/-! ## The luminance -/

/-- The weighted sum of three bytes fits a byte (40_scan.md R111). -/
theorem lumaOfBgr_toNat (b g r : Byte) :
    (lumaOfBgr b g r).toNat = (4899 * r.toNat + 9617 * g.toNat + 1868 * b.toNat + 8192) / 2 ^ 14 := by
  have hb := b.isLt
  have hg := g.isLt
  have hr := r.isLt
  rw [lumaOfBgr, BitVec.toNat_ofNat]
  omega

/-- The weights add up to 2^14, so a grey pixel keeps its value (40_scan.md R111). -/
theorem lumaOfBgr_grey (v : Byte) : lumaOfBgr v v v = v := by
  apply BitVec.eq_of_toNat_eq
  rw [lumaOfBgr_toNat]
  omega

/-! ## Sums over the entries of a list -/

/-- The sum up to an entry, by positions. -/
theorem sumUpTo_eq_sum (h : List Nat) (t : Nat) : sumUpTo h t = ∑ v ∈ Finset.range (t + 1), h.getD v 0 := by
  induction h generalizing t with
  | nil => simp [sumUpTo]
  | cons x xs ih =>
    cases t with
    | zero => simp [sumUpTo]
    | succ t =>
      rw [Finset.sum_range_succ', Nat.add_comm _ (List.getD _ 0 0)]
      simp only [sumUpTo, ih, List.getD_cons_zero, List.getD_cons_succ]

/-- The sum of a list, by positions. -/
theorem sum_eq_sum_getD (h : List Nat) : h.sum = ∑ v ∈ Finset.range h.length, h.getD v 0 := by
  induction h with
  | nil => rfl
  | cons x xs ih =>
    rw [List.length_cons, Finset.sum_range_succ', add_comm]
    simp only [List.sum_cons, ih, List.getD_cons_zero, List.getD_cons_succ]

@[simp] theorem weighted_length (h : List Nat) (k : Nat) : (weighted h k).length = h.length := by
  induction h generalizing k with
  | nil => rfl
  | cons x xs ih => simp [weighted, ih]

theorem weighted_getD (h : List Nat) (k v : Nat) : (weighted h k).getD v 0 = (k + v) * h.getD v 0 := by
  induction h generalizing k v with
  | nil => simp [weighted]
  | cons x xs ih =>
    cases v with
    | zero => rfl
    | succ v =>
      simp only [weighted, List.getD_cons_succ, ih]
      congr 1
      omega

/-! ## The histogram -/

@[simp] theorem hist_length (y : Image) : (hist y).length = 256 := by simp [hist]

theorem hist_getElem? (y : Image) {v : Nat} (hv : v < 256) :
    (hist y)[v]? = some (y.px.countP fun b => decide (b.toNat = v)) := by
  simp [hist, hv]

theorem hist_getD (y : Image) {v : Nat} (hv : v < 256) :
    (hist y).getD v 0 = y.px.countP fun b => decide (b.toNat = v) := by
  rw [List.getD_eq_getElem?_getD, hist_getElem? y hv]
  rfl

/-- Each byte is counted at its own value: sums over the values are sums over the bytes. -/
theorem sum_mul_countP (g : Nat → Nat) (n : Nat) (l : List Byte) :
    ∑ v ∈ Finset.range n, g v * l.countP (fun b => decide (b.toNat = v))
      = ((l.filter fun b => decide (b.toNat < n)).map fun b => g b.toNat).sum := by
  induction l with
  | nil => simp
  | cons b bs ih =>
    have hb : ∑ v ∈ Finset.range n, g v * (if b.toNat = v then 1 else 0) = if b.toNat < n then g b.toNat else 0 := by
      simp
    simp only [List.countP_cons, decide_eq_true_eq, Nat.mul_add, Finset.sum_add_distrib, ih, hb, List.filter_cons]
    split
    · rw [List.map_cons, List.sum_cons, Nat.add_comm]
    · rfl

/-- `n0(t)` of a histogram: the pixels of value at most `t` (40_scan.md R113). -/
theorem otsuN0_hist (y : Image) {t : Nat} (ht : t < 256) :
    otsuN0 (hist y) t = (y.px.filter fun b => decide (b.toNat < t + 1)).length := by
  have h := sum_mul_countP (fun _ => 1) (t + 1) y.px
  simp only [Nat.one_mul, List.map_const', List.sum_replicate, smul_eq_mul, Nat.mul_one] at h
  rw [otsuN0, sumUpTo_eq_sum, ← h]
  exact Finset.sum_congr rfl fun v hv => hist_getD y (by rw [Finset.mem_range] at hv; omega)

/-- The sums of a histogram over all values, each entry weighted by `g` of its value (40_scan.md R112). -/
theorem sum_mul_hist (g : Nat → Nat) (y : Image) :
    ∑ v ∈ Finset.range 256, g v * (hist y).getD v 0 = (y.px.map fun b => g b.toNat).sum := by
  have h := sum_mul_countP g 256 y.px
  rw [List.filter_eq_self.mpr fun b _ => decide_eq_true b.isLt] at h
  rw [← h]
  exact Finset.sum_congr rfl fun v hv => by rw [hist_getD y (Finset.mem_range.mp hv)]

/-- The counts add up to the number of pixels (40_scan.md R112). -/
theorem hist_sum (y : Image) : (hist y).sum = y.px.length := by
  have h := sum_mul_hist (fun _ => 1) y
  simp only [Nat.one_mul, List.map_const', List.sum_replicate, smul_eq_mul, Nat.mul_one] at h
  rw [sum_eq_sum_getD, hist_length, h]

/-- A candidate has a pixel in each class (40_scan.md R113). -/
theorem otsuCand_iff {h : List Nat} {t : Nat} : otsuCand h t = true ↔ 0 < otsuN0 h t ∧ 0 < otsuN1 h t := by
  simp only [otsuCand, Bool.and_eq_true, decide_eq_true_eq]

/-- A threshold that splits the pixels of an image has one on either side (40_scan.md R113). -/
theorem otsuCand_hist {y : Image} {t : Nat} (ht : t < 256) (h : otsuCand (hist y) t = true) :
    (∃ b ∈ y.px, b.toNat ≤ t) ∧ ∃ b ∈ y.px, t < b.toNat := by
  rw [otsuCand_iff, otsuN1, hist_sum, otsuN0_hist y ht] at h
  obtain ⟨hlow, hhigh⟩ := h
  constructor
  · obtain ⟨b, hb⟩ := List.exists_mem_of_length_pos hlow
    rw [List.mem_filter, decide_eq_true_eq] at hb
    exact ⟨b, hb.1, by omega⟩
  · by_contra hnone
    push Not at hnone
    rw [List.filter_eq_self.mpr fun b hb => decide_eq_true (Nat.lt_succ_of_le (hnone b hb))] at hhigh
    omega

/-! ## The search for the greatest measure -/

/-- `F(t)` as an exact rational (40_scan.md R113). -/
def otsuF (h : List Nat) (t : Nat) : ℚ := (otsuNum h t : ℚ) / otsuDen h t

/-- The denominator of a candidate's measure is not 0. -/
theorem otsuDen_pos {h : List Nat} {t : Nat} (hc : otsuCand h t = true) : 0 < otsuDen h t := by
  obtain ⟨h0, h1⟩ := otsuCand_iff.mp hc
  exact Nat.mul_pos h0 h1

/-- The cross products compare the measures of two candidates. -/
theorem otsuF_lt_iff {h : List Nat} {t u : Nat} (ht : otsuCand h t = true) (hu : otsuCand h u = true) :
    otsuF h u < otsuF h t ↔ otsuNum h u * otsuDen h t < otsuNum h t * otsuDen h u := by
  have dt : (0 : ℚ) < otsuDen h t := Nat.cast_pos.mpr (otsuDen_pos ht)
  have du : (0 : ℚ) < otsuDen h u := Nat.cast_pos.mpr (otsuDen_pos hu)
  rw [otsuF, otsuF, div_lt_div_iff₀ du dt]
  exact_mod_cast Iff.rfl

/-- `t` is the least of the candidates below `n` whose measure is the greatest. -/
structure LeastMaximiser (h : List Nat) (n t : Nat) : Prop where
  below : t < n
  cand : otsuCand h t = true
  greatest : ∀ u < n, otsuCand h u = true → otsuF h u ≤ otsuF h t
  least : ∀ u < t, otsuCand h u = true → otsuF h u < otsuF h t

/-- What the search has found among the thresholds below `n`. -/
def OtsuBest (h : List Nat) (n : Nat) : Option (Nat × Nat × Nat) → Prop
  | none => ∀ t < n, otsuCand h t = false
  | some (t, num, den) => num = otsuNum h t ∧ den = otsuDen h t ∧ LeastMaximiser h n t

/-- One more threshold keeps the search right: a greater measure wins, and a tie stays with the lesser threshold. -/
theorem otsuBest_step {h : List Nat} {n : Nat} {best : Option (Nat × Nat × Nat)} (hb : OtsuBest h n best) :
    OtsuBest h (n + 1) (otsuBetter h best n) := by
  unfold otsuBetter
  cases hn : otsuCand h n with
  | false =>
    rw [if_neg Bool.false_ne_true]
    have below {u : Nat} (hu : u < n + 1) (hc : otsuCand h u = true) : u < n :=
      Nat.lt_of_le_of_ne (Nat.le_of_lt_succ hu) fun e => by
        rw [e, hn] at hc
        cases hc
    cases best with
    | none =>
      intro u hu
      by_contra hc
      exact hc (hb u (below hu (by simpa using hc)))
    | some b =>
      obtain ⟨hnum, hden, hmax⟩ := hb
      exact ⟨hnum, hden, Nat.lt_succ_of_lt hmax.below, hmax.cand, fun u hu hc => hmax.greatest u (below hu hc) hc,
        hmax.least⟩
  | true =>
    rw [if_pos rfl]
    cases best with
    | none =>
      have only {u : Nat} (hu : u < n) : otsuCand h u ≠ true := by simp [hb u hu]
      refine ⟨rfl, rfl, Nat.lt_succ_self n, hn, fun u hu hc => ?_, fun u hu hc => absurd hc (only hu)⟩
      obtain hu | rfl := Nat.lt_succ_iff_lt_or_eq.mp hu
      · exact absurd hc (only hu)
      · exact le_refl _
    | some b =>
      obtain ⟨t, num, den⟩ := b
      obtain ⟨rfl, rfl, hmax⟩ := hb
      have hcross := otsuF_lt_iff hn hmax.cand
      dsimp only
      split
      case isTrue hlt =>
        have above {u : Nat} (hu : u < n) (hc : otsuCand h u = true) : otsuF h u < otsuF h n :=
          lt_of_le_of_lt (hmax.greatest u hu hc) (hcross.mpr hlt)
        refine ⟨rfl, rfl, Nat.lt_succ_self n, hn, fun u hu hc => ?_, fun u hu hc => above hu hc⟩
        obtain hu | rfl := Nat.lt_succ_iff_lt_or_eq.mp hu
        · exact (above hu hc).le
        · exact le_refl _
      case isFalse hle =>
        refine ⟨rfl, rfl, Nat.lt_succ_of_lt hmax.below, hmax.cand, fun u hu hc => ?_, hmax.least⟩
        obtain hu | rfl := Nat.lt_succ_iff_lt_or_eq.mp hu
        · exact hmax.greatest u hu hc
        · exact not_lt.mp (hcross.not.mpr hle)

theorem otsuBest_range (h : List Nat) (n : Nat) : OtsuBest h n ((List.range n).foldl (otsuBetter h) none) := by
  induction n with
  | zero => exact fun t ht => absurd ht t.not_lt_zero
  | succ n ih =>
    rw [List.range_succ, List.foldl_append]
    exact otsuBest_step ih

/-- What `otsu` answers: 0 without a candidate, else the least maximiser (40_scan.md R113). -/
theorem otsu_cases (h : List Nat) :
    (otsu h = 0 ∧ ∀ t < 256, otsuCand h t = false) ∨ LeastMaximiser h 256 (otsu h) := by
  have hbest := otsuBest_range h 256
  unfold otsu
  split <;> rename_i he <;> rw [he] at hbest
  · exact .inl ⟨rfl, hbest⟩
  · exact .inr hbest.2.2

/-- The threshold of an image is below the greatest byte (40_scan.md R114). -/
theorem otsu_hist_lt (y : Image) : otsu (hist y) < 255 := by
  obtain ⟨h0, -⟩ | hmax := otsu_cases (hist y)
  · omega
  · obtain ⟨-, b, -, hb⟩ := otsuCand_hist hmax.below hmax.cand
    have := b.isLt
    omega

/-- `F(t)` in the terms of 40_scan.md R113, where no subtraction is cut off. -/
theorem otsuF_eq {h : List Nat} {t : Nat} (hn : otsuN0 h t ≤ h.sum) (hs : otsuS0 h t ≤ (weighted h 0).sum) :
    otsuF h t = ((otsuS0 h t : ℚ) * (h.sum - otsuN0 h t) - ((weighted h 0).sum - otsuS0 h t) * otsuN0 h t) ^ 2
      / (otsuN0 h t * (h.sum - otsuN0 h t)) := by
  rw [otsuF, otsuNum, otsuDen, otsuN1, otsuS1]
  generalize h.sum = n at hn ⊢
  generalize (weighted h 0).sum = s at hs ⊢
  push_cast [Nat.cast_natAbs, Nat.cast_sub hn, Nat.cast_sub hs]
  rw [sq_abs]

/-! ## The sums of the Otsu rule, by positions -/

theorem otsuS0_eq_sum (h : List Nat) (t : Nat) : otsuS0 h t = ∑ v ∈ Finset.range (t + 1), v * h.getD v 0 := by
  rw [otsuS0, sumUpTo_eq_sum]
  simp only [weighted_getD, Nat.zero_add]

section
variable {h : List Nat} (hlen : h.length = 256)
include hlen

theorem otsu_total : h.sum = ∑ v ∈ Finset.range 256, h.getD v 0 := by
  rw [sum_eq_sum_getD, hlen]

theorem otsu_weightedTotal : (weighted h 0).sum = ∑ v ∈ Finset.range 256, v * h.getD v 0 := by
  rw [sum_eq_sum_getD, weighted_length, hlen]
  simp only [weighted_getD, Nat.zero_add]

/-- The class of values at most `t` is part of the whole. -/
theorem otsu_partial_le {t : Nat} (ht : t < 256) : otsuN0 h t ≤ h.sum ∧ otsuS0 h t ≤ (weighted h 0).sum := by
  have hsub : Finset.range (t + 1) ⊆ Finset.range 256 := Finset.range_subset_range.mpr ht
  rw [otsu_total hlen, otsu_weightedTotal hlen, otsuS0_eq_sum, otsuN0, sumUpTo_eq_sum]
  exact ⟨Finset.sum_le_sum_of_subset hsub, Finset.sum_le_sum_of_subset hsub⟩

end

/-! ## Erosion, dilation and opening -/

/-- A pixel is in its own neighbourhood (40_scan.md R116). -/
theorem Image.pixel_mem_around {i : Image} {x y : Nat} (hx : x < i.w) (hy : y < i.h) : i.pixel x y ∈ i.around x y :=
  Image.mem_around.mpr ⟨x, y, hx, hy, by omega, by omega, by omega, by omega, rfl⟩

/-- The erosion at a pixel is the least value of its neighbourhood (40_scan.md R116). -/
theorem erode_pixel {i : Image} {x y : Nat} (hx : x < i.w) (hy : y < i.h) :
    (∀ b ∈ i.around x y, ((erode i).pixel x y).toNat ≤ b.toNat) ∧ (erode i).pixel x y ∈ i.around x y := by
  have hself := Image.pixel_mem_around hx hy
  rw [erode, Image.ofFn_pixel _ _ _ hx hy]
  obtain ⟨hle, hmem⟩ := foldl_byteMin (i.around x y) 255#8
  refine ⟨fun b hb => hle b (List.mem_cons_of_mem _ hb), ?_⟩
  obtain hstart | hmem := List.mem_cons.mp hmem
  · have htop := hle _ (List.mem_cons_of_mem _ hself)
    rw [hstart] at htop ⊢
    have hlt := (i.pixel x y).isLt
    have hfull : i.pixel x y = 255#8 := BitVec.eq_of_toNat_eq (Nat.le_antisymm (Nat.le_of_lt_succ hlt) htop)
    rwa [hfull] at hself
  · exact hmem

/-- The dilation at a pixel is the greatest value of its neighbourhood (40_scan.md R116). -/
theorem dilate_pixel {i : Image} {x y : Nat} (hx : x < i.w) (hy : y < i.h) :
    (∀ b ∈ i.around x y, b.toNat ≤ ((dilate i).pixel x y).toNat) ∧ (dilate i).pixel x y ∈ i.around x y := by
  have hself := Image.pixel_mem_around hx hy
  rw [dilate, Image.ofFn_pixel _ _ _ hx hy]
  obtain ⟨hle, hmem⟩ := foldl_byteMax (i.around x y) 0#8
  refine ⟨fun b hb => hle b (List.mem_cons_of_mem _ hb), ?_⟩
  obtain hstart | hmem := List.mem_cons.mp hmem
  · have hbot := hle _ (List.mem_cons_of_mem _ hself)
    rw [hstart] at hbot ⊢
    have hblank : i.pixel x y = 0#8 := BitVec.eq_of_toNat_eq (Nat.le_zero.mp hbot)
    rwa [hblank] at hself
  · exact hmem

/-- The opening is nowhere brighter: its value at a pixel is the erosion's at a neighbour, which has the pixel in its own
neighbourhood (40_scan.md R117). -/
theorem opening_le {i : Image} {x y : Nat} (hx : x < i.w) (hy : y < i.h) :
    ((opening i).pixel x y).toNat ≤ (i.pixel x y).toNat := by
  obtain ⟨-, hmem⟩ := dilate_pixel (i := erode i) hx hy
  obtain ⟨x', y', hx', hy', h1, h2, h3, h4, he⟩ := Image.mem_around.mp hmem
  rw [opening, ← he]
  exact (erode_pixel (i := i) hx' hy').1 _ (Image.mem_around.mpr ⟨x, y, hx, hy, h2, h1, h4, h3, rfl⟩)

end Sys2Proof.Machine
end

section
/-! PROOFS of the statements about the image functions (40_scan.md R111 to R117). -/

namespace Sys2Proof.Machine

/-- Settles O18: without a race the block reads what SRC holds, and the weighted sum fits a byte. -/
theorem lumaIsTheWeightedSum : Obligations.LumaIsTheWeightedSum := by
  refine ⟨fun s x y hsettled hx hy => ?_, lumaOfBgr_grey⟩
  have hpixel : s.luma.pixel x y = s.lumaAt x y := Image.ofFn_pixel _ _ _ hx hy
  refine ⟨⟨rfl, rfl⟩, fun h3 => ?_, fun h1 => ?_⟩
  · rw [hpixel, State.lumaAt, if_pos h3, lumaOfBgr_toNat]
    simp only [blockRead_of_settled hsettled, State.pixelAddr]
  · rw [hpixel, State.lumaAt, if_neg (by omega), blockRead_of_settled hsettled, State.pixelAddr, Nat.one_mul]

/-- Settles O19: each pixel is counted at its own value and no other. -/
theorem histogramCountsThePixels : Obligations.HistogramCountsThePixels := by
  intro y
  refine ⟨hist_length y, fun v hv => ?_, hist_sum y, fun hwf => ?_, sum_mul_hist (fun v => v) y⟩
  · rw [hist_getElem? y hv, List.countP_eq_length_filter]
  · rw [hist_sum]
    exact of_decide_eq_true hwf

/-- Settles O20: the fold over the thresholds keeps the least maximiser of those it has seen. -/
theorem otsuIsTheLeastMaximiser : Obligations.OtsuIsTheLeastMaximiser := by
  intro h hlen n s n0 s0 cand f
  have hn0 (t : Nat) : n0 t = otsuN0 h t := (sumUpTo_eq_sum h t).symm
  have hs0 (t : Nat) : s0 t = otsuS0 h t := (otsuS0_eq_sum h t).symm
  have hn : n = h.sum := (otsu_total hlen).symm
  have hs : s = (weighted h 0).sum := (otsu_weightedTotal hlen).symm
  have hcand (t : Nat) : cand t ↔ t < 256 ∧ otsuCand h t = true := by
    simp only [cand, hn, hn0, otsuCand_iff, otsuN1, gt_iff_lt]
  have hf {t : Nat} (ht : t < 256) : f t = otsuF h t := by
    obtain ⟨hnle, hsle⟩ := otsu_partial_le hlen ht
    simp only [f, hn, hs, hn0, hs0, otsuF_eq hnle hsle]
  simp only [hcand]
  obtain ⟨hzero, hnone⟩ | hmax := otsu_cases h
  · refine ⟨fun _ => hzero, fun ⟨t, ht, hc⟩ => ?_⟩
    exact absurd ((hnone t ht).symm.trans hc) nofun
  · refine ⟨fun hno => absurd ⟨hmax.below, hmax.cand⟩ (hno (otsu h)), fun _ => ⟨⟨hmax.below, hmax.cand⟩, ?_, ?_⟩⟩
    · intro u ⟨hu, hc⟩
      rw [hf hu, hf hmax.below]
      exact hmax.greatest u hu hc
    · intro u hlt ⟨hu, hc⟩
      rw [hf hu, hf hmax.below]
      exact hmax.least u hlt hc

/-- Settles O21: a threshold other than 0 has a pixel above it and one not above it. -/
theorem otsuStaysBelowTheCeiling : Obligations.OtsuStaysBelowTheCeiling := by
  intro y
  have hlt := otsu_hist_lt y
  refine ⟨by omega, hlt, fun ⟨v, hv⟩ => ?_⟩
  obtain ⟨hzero, -⟩ | hmax := otsu_cases (hist y)
  · exact hzero
  · obtain ⟨⟨b, hb, hlow⟩, c, hc, hhigh⟩ := otsuCand_hist hmax.below hmax.cand
    rw [hv b hb] at hlow
    rw [hv c hc] at hhigh
    omega

/-- Settles O22: binarization acts on each pixel alone. -/
theorem binarizeSplitsAtTheThreshold : Obligations.BinarizeSplitsAtTheThreshold := by
  intro y t hwf
  refine ⟨rfl, rfl, (binarize_wf y t).trans hwf, binarize_binary y t, fun a b _ _ => ?_, fun c hc => ?_⟩
  · exact List.getD_map y.px 0#8 (fun b => if b.toNat > t then 255#8 else 0#8)
  · obtain ⟨b, -, rfl⟩ := List.mem_map.mp hc
    exact if_neg (by have := b.isLt; omega)

/-- Settles O23: the folds over the neighbourhood are its extremes, for it is not empty. -/
theorem erosionAndDilationAreExtremes : Obligations.ErosionAndDilationAreExtremes := by
  intro i x y hx hy nb
  have around_of_nb {p : Nat × Nat} (h : nb p) : i.pixel p.1 p.2 ∈ i.around x y := by
    obtain ⟨h1, h2, h3, h4, h5, h6⟩ := h
    exact Image.mem_around.mpr ⟨p.1, p.2, h1, h2, h3, h4, h5, h6, rfl⟩
  have nb_of_around {b : Byte} (h : b ∈ i.around x y) : ∃ p, nb p ∧ b = i.pixel p.1 p.2 := by
    obtain ⟨x', y', h1, h2, h3, h4, h5, h6, rfl⟩ := Image.mem_around.mp h
    exact ⟨(x', y'), ⟨h1, h2, h3, h4, h5, h6⟩, rfl⟩
  obtain ⟨emin, emem⟩ := erode_pixel hx hy
  obtain ⟨dmax, dmem⟩ := dilate_pixel hx hy
  exact ⟨⟨hx, hy, by omega, by omega, by omega, by omega⟩, fun p hp => emin _ (around_of_nb hp), nb_of_around emem,
    fun p hp => dmax _ (around_of_nb hp), nb_of_around dmem⟩

/-- Settles O24: erosion and dilation keep a binary image binary, and the neighbourhood is symmetric. -/
theorem openingNeverBrightens : Obligations.OpeningNeverBrightens := fun i =>
  ⟨rfl, fun _ hbin => ⟨rfl, rfl, opening_wf i, opening_binary hbin, fun _ _ hx hy => opening_le hx hy⟩⟩

end Sys2Proof.Machine
end

section
/-! SUPPORT. The steps of the scan phase, one equation for each of their outcomes (40_scan.md R110, R120 to R130). -/

namespace Sys2Proof.Machine

/-- What the scan phase relies on of legal parameters (00_scope.md R5). -/
theorem Config.legal_bounds {c : Config} (h : c.legal = true) :
    0 < c.step ∧ c.resCap ≤ 3840 ∧ c.regBase % 4 = 0 := by
  simp only [Config.legal, Bool.and_eq_true, decide_eq_true_eq] at h
  omega

/-- With nothing on the agenda the engine moves (log 2). -/
theorem step_of_no_agenda {s : State} (h : s.agenda = []) : step s = engineStep s := by
  simp only [step, agentStep, h]

theorem engineStep_scanEntry {s : State} (h : s.fsm = .scanEntry) : engineStep s = scanEntry s := by
  simp only [engineStep, h]

theorem engineStep_scanBin {s : State} (h : s.fsm = .scanBin) : engineStep s = scanBin s := by
  simp only [engineStep, h]

theorem engineStep_scanWaitPlain {s : State} (h : s.fsm = .scanWaitPlain) : engineStep s = scanWaitPlain s := by
  simp only [engineStep, h]

theorem engineStep_scanWaitOpen {s : State} (h : s.fsm = .scanWaitOpen) : engineStep s = scanWaitOpen s := by
  simp only [engineStep, h]

/-! ## SCAN_ENTRY -/

section
variable {s : State}

/-- The format check of a scan phase is its first (40_scan.md R110). -/
theorem scanCheck_format (h : ¬(s.depth = 8 ∧ (s.channels = 1 ∨ s.channels = 3))) :
    s.scanCheck = some .unsupportedPixelFormat :=
  if_pos (by omega)

variable (hformat : s.depth = 8 ∧ (s.channels = 1 ∨ s.channels = 3))
include hformat

/-- The size check follows the format check (40_scan.md R110). -/
theorem scanCheck_size (h : ¬s.frameW * s.frameH ≤ s.cfg.scanMaxPixels) : s.scanCheck = some .scanTooLarge := by
  rw [State.scanCheck, if_neg (by omega), if_pos (Nat.lt_of_not_le h)]

/-- The source check is the last (40_scan.md R110). -/
theorem scanCheck_source (hfits : s.frameW * s.frameH ≤ s.cfg.scanMaxPixels) :
    s.scanCheck = if s.srcInside s.channels then none else some .srcRange := by
  rw [State.scanCheck, if_neg (by omega), if_neg (Nat.not_lt_of_le hfits)]
  cases s.srcInside s.channels <;> rfl

end

/-- A failing check is raised (40_scan.md R110). -/
theorem scanEntry_raises {s : State} {e : ErrCode} (h : s.scanCheck = some e) :
    scanEntry s = .next (raise .scanner e s) := by
  simp only [scanEntry, h]

/-- Past the checks the search starts at the Otsu threshold of the frame (40_scan.md R110). -/
theorem scanEntry_starts {s : State} (h : s.scanCheck = none) :
    scanEntry s = .next (startSearch (otsu (hist s.luma)) s.drawn) := by
  simp only [scanEntry, h]

/-! ## SCAN_BIN -/

/-- The state after SCAN_BIN on a settled frame (40_scan.md R120). -/
def State.binarized (s : State) : State :=
  { s with
    img := binarize s.frameLuma s.t
    decReq := some (binarize s.frameLuma s.t)
    scanCnt := { s.scanCnt with attempts := s.scanCnt.attempts + 1#16 }
    scanRes := { s.scanRes with thit := BitVec.ofNat 8 s.t }
    fsm := .scanWaitPlain
    draws := s.draws + 1 }

/-- SCAN_BIN past the prechecks, on a settled frame (40_scan.md R120). -/
theorem scanBin_of_settled {s : State} (hs : s.srcUnsettled = []) (hc : s.scanCheck = none) :
    scanBin s = .next s.binarized := by
  obtain ⟨-, -, -, hin⟩ := scanCheck_none hc
  rw [scanBin, if_pos hin, luma_of_settled hs]
  rfl

/-! ## The waits -/

/-- The state after a plain answer that is not found: the opened image is presented (40_scan.md R121). -/
def State.presentOpened (s : State) : State := { decRequest (opening s.img) (consume s) with fsm := .scanWaitOpen }

section
variable {s : State}

/-- Without a response a waiting block stays as it is (log 2). -/
theorem engineStep_of_blocked (hw : s.fsm.waiting = true) (h : s.decRsp = none) : engineStep s = .next s := by
  cases hf : s.fsm <;> rw [hf] at hw
  case scanWaitPlain => simp only [engineStep_scanWaitPlain hf, scanWaitPlain, h]
  case scanWaitOpen => simp only [engineStep_scanWaitOpen hf, scanWaitOpen, h]
  all_goals cases hw

variable {r : Response} (h : s.decRsp = some r)
include h

theorem scanWaitPlain_found (hr : found r = true) : scanWaitPlain s = .next (finishFound r false s) := by
  simp only [scanWaitPlain, h, hr, if_true]

theorem scanWaitPlain_missed (hr : found r = false) : scanWaitPlain s = .next s.presentOpened := by
  simp only [scanWaitPlain, h, hr, Bool.false_eq_true, if_false, State.presentOpened]

theorem scanWaitOpen_found (hr : found r = true) : scanWaitOpen s = .next (finishFound r true s) := by
  simp only [scanWaitOpen, h, hr, if_true]

theorem scanWaitOpen_missed (hr : found r = false) : scanWaitOpen s = .next (nextLevel (consume s)) := by
  simp only [scanWaitOpen, h, hr, Bool.false_eq_true, if_false]

end

/-- A response that is not found has another status or no byte (40_scan.md R128). -/
theorem not_found_iff {r : Response} : found r = false ↔ ¬(r.status = .ok ∧ r.bytes ≠ []) := by
  rw [← found_iff, Bool.not_eq_true]

/-! ## The end of the scan phase -/

/-- The scan phase of SCAN ends with its completion (40_scan.md R130, 60_exceptions.md R222). -/
theorem endScanPhase_scan {s : State} (hop : s.op = .scan) (hs : s.settled) :
    endScanPhase s = { s with status := s.status.complete s.err, fsm := .idle } := by
  rw [endScanPhase_else (by rw [hop]; decide), complete_of_settled hs]

/-- What a scan phase has recorded: the errors and the results. -/
def State.recorded (s : State) := (s.err, s.scanRes, s.convRes, s.res, s.resLen)

theorem endScanPhase_recorded (s : State) : (endScanPhase s).recorded = s.recorded := by
  unfold endScanPhase
  split <;> rfl

/-- The choice of the next threshold records nothing (40_scan.md R123). -/
theorem nextLevel_recorded (s : State) : (nextLevel s).recorded = s.recorded := by
  unfold nextLevel
  split <;> split
  · exact endScanPhase_recorded s
  · rfl
  · rfl
  · exact endScanPhase_recorded { s with t := s.t + s.cfg.step }

/-! ## The decoder -/

/-- The state after the decoder has answered `r` (40_scan.md R126). -/
def State.answered (r : Response) (s : State) : State := { s with decReq := none, decRsp := some r }

/-- The decoder answers a pending request when no response waits (40_scan.md R126). -/
theorem decoderAnswer_pending {s : State} {img : Image} (hreq : s.decReq = some img) (hrsp : s.decRsp = none)
    (r : Response) : decoderAnswer r s = s.answered r := by
  simp only [decoderAnswer, hreq, hrsp, State.answered]

/-- Any other answer is discarded (70_reset_and_hazards.md R262). -/
theorem decoderAnswer_discarded {s : State} (h : s.decReq = none ∨ s.decRsp ≠ none) (r : Response) :
    decoderAnswer r s = s := by
  unfold decoderAnswer
  split
  case h_1 hreq hrsp => simp [hreq, hrsp] at h
  all_goals rfl

end Sys2Proof.Machine
end

section
/-! PROOFS of the statements about the single steps of the scan phase and the decoder port (40_scan.md R110, R120 to R130). -/

namespace Sys2Proof.Machine

/-- Settles O25: the checks are tried in order, and the Otsu threshold of any image is below 255. -/
theorem scanEntryChecksInOrder : Obligations.ScanEntryChecksInOrder := by
  intro s hf ha w h ch format fits srcFits
  have hstep : step s = scanEntry s := (step_of_no_agenda ha).trans (engineStep_scanEntry hf)
  have hsrc : s.srcInside s.channels = true ↔ srcFits := by
    rw [srcInside_iff]
    simp only [srcFits, not_and, not_lt, gt_iff_lt]
    rfl
  rw [hstep]
  refine ⟨fun h1 => scanEntry_raises (scanCheck_format h1), fun h1 h2 => scanEntry_raises (scanCheck_size h1 h2),
    fun h1 h2 h3 => scanEntry_raises ?_, fun h1 h2 h3 => ⟨_, rfl, otsu_hist_lt s.luma, ?_⟩⟩
  · rw [scanCheck_source h1 h2, if_neg (hsrc.not.mpr h3)]
  · rw [scanEntry_starts (by rw [scanCheck_source h1 h2, if_pos (hsrc.mpr h3)])]
    generalize otsu (hist s.luma) = t0
    rfl

/-- Settles O26: the precheck keeps the read inside SRC, and the settled frame is what SRC holds. -/
theorem scanBinRequestsOneDecode : Obligations.ScanBinRequestsOneDecode := fun _ hf ha hs hc =>
  ((step_of_no_agenda ha).trans (engineStep_scanBin hf)).trans (scanBin_of_settled hs hc)

/-- The two ends of a scan phase that a step reaches, by the command (40_scan.md R130). -/
theorem step_ends_scan_phase {s u : State} (h : step s = .next (endScanPhase u)) (hs : u.settled) (hop : u.op = s.op) :
    (s.op = .scan → step s = .next { u with status := u.status.complete u.err, fsm := .idle })
    ∧ (s.op = .frame → step s = .next { u with status := { u.status with phase := .convert }, fsm := .convEntry }) :=
  ⟨fun ho => by rw [h, endScanPhase_scan (hop.trans ho) hs], fun ho => by rw [h, endScanPhase_frame (hop.trans ho)]⟩

/-- Settles O27: the wait's three outcomes, with the end of the phase by the command. -/
theorem plainAnswerEndsOrOpens : Obligations.PlainAnswerEndsOrOpens := by
  intro s hf ha hs
  have hstep := step_of_no_agenda ha
  have hwait := hstep.trans (engineStep_scanWaitPlain hf)
  refine ⟨fun h => hstep.trans (engineStep_of_blocked (by rw [hf]; rfl) h), fun r h => ?_⟩
  intro cnt len hit
  refine ⟨fun hr => ?_, fun hr => hwait.trans (scanWaitPlain_missed h (not_found_iff.mpr hr))⟩
  exact step_ends_scan_phase (u := hit) (hwait.trans (scanWaitPlain_found h (found_iff.mpr hr))) hs rfl

/-- Settles O28: the wait's outcomes, and the next threshold by the kind of the attempt. -/
theorem openedAnswerEndsOrGoesOn : Obligations.OpenedAnswerEndsOrGoesOn := by
  intro s hf ha hs
  have hstep := step_of_no_agenda ha
  have hwait := hstep.trans (engineStep_scanWaitOpen hf)
  refine ⟨fun h => hstep.trans (engineStep_of_blocked (by rw [hf]; rfl) h), fun r h => ?_⟩
  intro cnt len hit miss ended
  refine ⟨fun hr => ?_, fun hr => ?_⟩
  · exact step_ends_scan_phase (u := hit) (hwait.trans (scanWaitOpen_found h (found_iff.mpr hr))) hs rfl
  · replace hwait : step s = .next (nextLevel miss) := hwait.trans (scanWaitOpen_missed h (not_found_iff.mpr hr))
    refine ⟨fun hk ht => ?_, fun hk ht => ?_, fun hk ht => ?_, fun hk ht => ?_⟩
    · rw [hwait, nextLevel_initial (s := miss) hk ht]
      rfl
    · rw [nextLevel_initial_end (s := miss) hk ht] at hwait
      exact step_ends_scan_phase hwait hs rfl
    · rw [hwait, nextLevel_more (s := miss) hk ht]
      rfl
    · rw [nextLevel_end (s := miss) hk ht] at hwait
      exact step_ends_scan_phase hwait hs rfl

/-- Settles O29: a response that is not found leads to the opened image or the next threshold, and neither records. -/
theorem notFoundIsNeverAnError : Obligations.NotFoundIsNeverAnError := by
  refine ⟨fun r => by rw [found_iff, gt_iff_lt, List.length_pos_iff], fun s r hw hr hmiss => ?_⟩
  rw [gt_iff_lt, List.length_pos_iff, ← not_found_iff] at hmiss
  have hkept : ∃ t, engineStep s = .next t ∧ t.recorded = s.recorded := by
    cases hf : s.fsm <;> rw [hf] at hw
    case scanWaitPlain => exact ⟨_, (engineStep_scanWaitPlain hf).trans (scanWaitPlain_missed hr hmiss), rfl⟩
    case scanWaitOpen =>
      exact ⟨_, (engineStep_scanWaitOpen hf).trans (scanWaitOpen_missed hr hmiss), nextLevel_recorded (consume s)⟩
    all_goals cases hw
  obtain ⟨t, hstep, hrec⟩ := hkept
  simp only [State.recorded, Prod.mk.injEq] at hrec
  obtain ⟨herr, hscan, hconv, hres, hlen⟩ := hrec
  exact ⟨t, hstep, herr, by rw [hscan], hconv, by rw [hscan], hres, hlen⟩

/-- Settles O30: the capacity fits RES_LEN.LEN. -/
theorem storedResultIsTheCappedPrefix : Obligations.StoredResultIsTheCappedPrefix := by
  intro s r hl
  obtain ⟨-, hcap, -⟩ := Config.legal_bounds hl
  refine ⟨fun i => List.getElem?_take, ?_, ?_, ?_⟩
  · simp only [store_fields, BitVec.toNat_ofNat]
    omega
  · simp only [store_fields, List.length_take, Nat.min_comm]
  · simp only [store_fields, decide_eq_true_eq]

/-- Settles O31: the decoder acts only on a request without a response, and a reset empties both slots. -/
theorem decoderAnswersOnlyAPendingRequest : Obligations.DecoderAnswersOnlyAPendingRequest := by
  intro s r
  refine ⟨fun img hreq hrsp => congrArg Host.Outcome.next (decoderAnswer_pending hreq hrsp r),
    fun h => congrArg Host.Outcome.next (decoderAnswer_discarded h r), engineStep_of_blocked, fun landed => ?_⟩
  exact ⟨resetStep landed s, rfl, rfl, rfl, rfl, rfl,
    congrArg Host.Outcome.next (decoderAnswer_discarded (.inl rfl) r)⟩

end Sys2Proof.Machine
end

section
/-! SUPPORT. The search of SCAN as a run: the thresholds of its attempts, the steps of one attempt, and any number of attempts
that find nothing (40_scan.md R120 to R125, R131). -/

namespace Sys2Proof.Machine

/-! ## The thresholds of the attempts -/

/-- The threshold of the attempt after `k` others (40_scan.md R123): T0 twice, then each one by P_STEP more. -/
def levelAt (step t0 k : Nat) : Nat := t0 + (k - 1) * step

/-- From the second loop attempt on each threshold is the one before by P_STEP more (40_scan.md R123). -/
theorem levelAt_succ (step t0 k : Nat) : levelAt step t0 (k + 2) = levelAt step t0 (k + 1) + step := by
  simp only [levelAt, Nat.add_one_sub_one, Nat.succ_mul, Nat.add_assoc]

section
variable {step t0 : Nat} (ht : t0 < Config.tceil)
include ht

/-- The thresholds of a search, by the number of the attempt (40_scan.md R131). -/
theorem levels_getElem? {k : Nat} (hk : k < attemptBound step t0) :
    (levels step t0)[k]? = some (levelAt step t0 k) := by
  rw [levels, if_neg (Nat.not_le_of_lt ht)]
  cases k with
  | zero => simp [levelAt]
  | succ k =>
    have hk : k < attemptBound step t0 - 1 := by omega
    simp [levelAt, hk]

theorem levels_length : (levels step t0).length = attemptBound step t0 := by
  rw [levels, if_neg (Nat.not_le_of_lt ht)]
  simp [attemptBound, Nat.add_comm]

/-- The last threshold of a search that finds nothing (40_scan.md R131). -/
theorem levels_getLast? : (levels step t0).getLast? = some (levelAt step t0 (attemptBound step t0 - 1)) := by
  have hpos : 0 < attemptBound step t0 := Nat.lt_of_lt_of_le Nat.one_pos (Nat.le_add_right 1 _)
  rw [List.getLast?_eq_getElem?, levels_length ht, levels_getElem? ht (by omega)]

variable (hstep : 0 < step)
include hstep

/-- Another attempt follows exactly if its threshold is below the ceiling (40_scan.md R123, R124). -/
theorem lt_attemptBound_iff {k : Nat} : k + 1 < attemptBound step t0 ↔ levelAt step t0 (k + 1) < Config.tceil := by
  have hceil : (Config.tceil - t0) ⌈/⌉ step ≤ k ↔ Config.tceil - t0 ≤ step * k := ceilDiv_le_iff_le_mul hstep
  rw [Nat.ceilDiv_eq_add_pred_div, Nat.mul_comm] at hceil
  rw [attemptBound, levelAt, Nat.add_sub_cancel]
  omega

/-- A search makes two attempts at least: T0 is attempted twice (40_scan.md R123). -/
theorem two_le_attemptBound : 2 ≤ attemptBound step t0 :=
  (lt_attemptBound_iff ht hstep (k := 0)).mpr (by simpa [levelAt] using ht)

/-- Every attempt is made below the ceiling (40_scan.md R123). -/
theorem levelAt_lt {k : Nat} (hk : k < attemptBound step t0) : levelAt step t0 k < Config.tceil := by
  cases k with
  | zero => simpa [levelAt] using ht
  | succ k => exact (lt_attemptBound_iff ht hstep).mp hk

/-- The attempts fit their counter (10_state.md R35). -/
theorem attemptBound_le : attemptBound step t0 ≤ 256 := by
  by_contra hgt
  have hlevel := levelAt_lt ht hstep (Nat.lt_of_not_le hgt)
  have hmul := Nat.le_mul_of_pos_right 255 hstep
  simp only [levelAt, Config.tceil] at hlevel
  omega

end

/-! ## The steps of one attempt -/

/-- The decoder's answer to a pending request, as a step of a run (40_scan.md R126). -/
theorem runSteps_answer {s : State} {r : Response} {rest : List Event} {img : Image} (n : Nat)
    (ha : s.agenda = .decoder r :: rest) (hreq : s.decReq = some img) (hrsp : s.decRsp = none) :
    runSteps (n + 1) s = runSteps n ({ s with agenda := rest }.answered r) :=
  runSteps_event n ha (congrArg Host.Outcome.next
    (decoderAnswer_pending (s := { s with agenda := rest }) (img := img) hreq hrsp r))

/-- The events of the attempts: five each. -/
theorem length_attempts (answers : List (Response × Response)) :
    (answers.flatMap attemptEvents).length = 5 * answers.length := by
  induction answers with
  | nil => rfl
  | cons p ps ih =>
    rw [List.flatMap_cons, List.length_append, ih, List.length_cons, Nat.mul_succ, Nat.add_comm]
    rfl

/-- The block stands before an attempt on a settled frame past the prechecks, and the decoder port is empty. -/
structure State.AttemptReady (s : State) : Prop where
  fsm : s.fsm = .scanBin
  settled : s.srcUnsettled = []
  checked : s.scanCheck = none
  noResponse : s.decRsp = none

/-- The state in which the wait for the plain image finds the answer `p`, with the events `rest` to come. -/
def State.plainAnswered (s : State) (p : Response) (rest : List Event) : State :=
  { s with agenda := rest }.binarized.answered p

/-- The state in which the wait for the opened image finds the answer `q`, after the answer `p` on the plain one. -/
def State.openedAnswered (s : State) (p q : Response) (rest : List Event) : State :=
  (s.plainAnswered p rest).presentOpened.answered q

/-- The state in which the answer on the plain image is consumed (40_scan.md R120, R121). -/
def State.plainConsumed (s : State) (rest : List Event) : State :=
  { s with
    img := binarize s.frameLuma s.t
    decReq := none
    decRsp := none
    scanCnt := { attempts := s.scanCnt.attempts + 1#16, calls := s.scanCnt.calls + 1#16 }
    scanRes := { s.scanRes with thit := BitVec.ofNat 8 s.t }
    fsm := .scanWaitPlain
    draws := s.draws + 1
    agenda := rest }

/-- The state in which the answer on the opened image is consumed as well (40_scan.md R122). -/
def State.openedConsumed (s : State) (rest : List Event) : State :=
  { s with
    img := opening (binarize s.frameLuma s.t)
    decReq := none
    decRsp := none
    scanCnt := { attempts := s.scanCnt.attempts + 1#16, calls := s.scanCnt.calls + 1#16 + 1#16 }
    scanRes := { s.scanRes with thit := BitVec.ofNat 8 s.t }
    fsm := .scanWaitOpen
    draws := s.draws + 1
    agenda := rest }

theorem consume_plainAnswered (s : State) (p : Response) (rest : List Event) :
    consume (s.plainAnswered p rest) = s.plainConsumed rest := by
  dsimp only [consume, State.plainAnswered, State.answered, State.binarized]
  rfl

theorem consume_openedAnswered (s : State) (p q : Response) (rest : List Event) :
    consume (s.openedAnswered p q rest) = s.openedConsumed rest := by
  dsimp only [consume, State.openedAnswered, State.plainAnswered, State.presentOpened, State.answered, State.binarized,
    decRequest]
  rfl

section
variable {s : State} (hs : s.AttemptReady) {p q : Response} {rest : List Event} (n : Nat)
include hs

/-- An attempt up to the answer on its plain image (40_scan.md R120, R126). -/
theorem runSteps_plainAnswered (ha : s.agenda = .engine :: .decoder p :: rest) :
    runSteps (n + 2) s = runSteps n (s.plainAnswered p rest) := by
  let u : State := { s with agenda := .decoder p :: rest }
  have hbin : engineStep u = .next u.binarized :=
    (engineStep_scanBin (s := u) hs.fsm).trans (scanBin_of_settled hs.settled hs.checked)
  exact (runSteps_event (n + 1) ha hbin).trans (runSteps_answer (s := u.binarized) n rfl rfl hs.noResponse)

/-- An attempt up to the answer on its opened image (40_scan.md R121, R126). -/
theorem runSteps_openedAnswered (ha : s.agenda = .engine :: .decoder p :: .engine :: .decoder q :: rest)
    (hp : found p = false) : runSteps (n + 4) s = runSteps n (s.openedAnswered p q rest) := by
  let u : State := s.plainAnswered p (.decoder q :: rest)
  have hopen : engineStep u = .next u.presentOpened :=
    (engineStep_scanWaitPlain (s := u) rfl).trans (scanWaitPlain_missed rfl hp)
  calc runSteps (n + 4) s
    _ = runSteps (n + 2) (s.plainAnswered p (.engine :: .decoder q :: rest)) := runSteps_plainAnswered hs (n + 2) ha
    _ = runSteps (n + 1) u.presentOpened := runSteps_event (n + 1) rfl hopen
    _ = runSteps n (s.openedAnswered p q rest) := runSteps_answer (s := u.presentOpened) n rfl rfl rfl

/-- An attempt whose two answers find nothing goes on to the next threshold (40_scan.md R122). -/
theorem runSteps_missedAttempt (ha : s.agenda = attemptEvents (p, q) ++ rest) (hp : found p = false)
    (hq : found q = false) : runSteps (n + 5) s = runSteps n (nextLevel (s.openedConsumed rest)) := by
  let u : State := s.openedAnswered p q rest
  have hmiss : engineStep u = .next (nextLevel (consume u)) :=
    (engineStep_scanWaitOpen (s := u) rfl).trans (scanWaitOpen_missed rfl hq)
  rw [← consume_openedAnswered s p q rest]
  exact (runSteps_openedAnswered hs (n + 1) ha hp).trans (runSteps_event n rfl hmiss)

/-- An answer found on the plain image is stored and ends the search (40_scan.md R121). -/
theorem runSteps_plainFound (ha : s.agenda = .engine :: .decoder p :: .engine :: rest) (hp : found p = true) :
    runSteps (n + 3) s = runSteps n (endScanPhase (noteFound false (store p (s.plainConsumed rest)))) := by
  let u : State := s.plainAnswered p rest
  have hhit : engineStep u = .next (finishFound p false u) :=
    (engineStep_scanWaitPlain (s := u) rfl).trans (scanWaitPlain_found rfl hp)
  rw [← consume_plainAnswered s p rest]
  exact (runSteps_plainAnswered hs (n + 1) ha).trans (runSteps_event n rfl hhit)

/-- An answer found on the opened image is stored and ends the search (40_scan.md R122). -/
theorem runSteps_openedFound (ha : s.agenda = attemptEvents (p, q) ++ rest) (hp : found p = false)
    (hq : found q = true) :
    runSteps (n + 5) s = runSteps n (endScanPhase (noteFound true (store q (s.openedConsumed rest)))) := by
  let u : State := s.openedAnswered p q rest
  have hhit : engineStep u = .next (finishFound q true u) :=
    (engineStep_scanWaitOpen (s := u) rfl).trans (scanWaitOpen_found rfl hq)
  rw [← consume_openedAnswered s p q rest]
  exact (runSteps_openedAnswered hs (n + 1) ha hp).trans (runSteps_event n rfl hhit)

end

/-! ## From the CMD write to an attempt -/

/-- The state after the acceptance of SCAN by an idle block (30_encoding.md R95). -/
def State.scanAccepted (s : State) : State := accept .scan ({ s with reply := .written }.noteOp (opcodeOf .scan))

/-- A run that begins with the CMD write of SCAN goes on from its acceptance (30_encoding.md R92). -/
theorem runSteps_scan {s : State} (hidle : s.status.busy = false) (hb : s.cfg.regBase % 4 = 0) (n : Nat) :
    runSteps (n + 1) (s.withFetchWord 32 2) = runSteps n s.scanAccepted :=
  runSteps_command n hb (i := .scan) (by decide) (exec_run_of_idle (s := { s with reply := .written }) hidle .scan)

/-- `S.kind` in the attempt after `k` others (40_scan.md R123). -/
def kindAt : Nat → Kind
  | 0 => .initial
  | _ + 1 => .loop

/-- The counts after `k` attempts that found nothing: two calls each (40_scan.md R124). -/
def countsAfter (k : Nat) : ScanCnt := { attempts := BitVec.ofNat 16 k, calls := BitVec.ofNat 16 (2 * k) }

/-- One more attempt that finds nothing is counted once, and its two calls each (40_scan.md R120 to R122). -/
theorem countsAfter_succ (k : Nat) :
    countsAfter (k + 1)
      = { attempts := (countsAfter k).attempts + 1#16, calls := (countsAfter k).calls + 1#16 + 1#16 } := by
  simp only [countsAfter, ← BitVec.ofNat_add, Nat.mul_add, Nat.add_assoc, Nat.mul_one, Nat.reduceAdd]

/-- The counts fit their fields (10_state.md R35). -/
theorem countsAfter_toNat {k : Nat} (hk : k ≤ 256) :
    (countsAfter k).attempts.toNat = k ∧ (countsAfter k).calls.toNat = 2 * k := by
  simp only [countsAfter, BitVec.toNat_ofNat]
  omega

/-- The search of the accepted SCAN of `s` after `k` attempts that found nothing, before the next one. The last threshold
attempted, the image RAM and the counter of free values may be any. -/
def State.beforeAttempt (s : State) (t0 k : Nat) (thit : Byte) (img : Image) (draws : Nat) (rest : List Event) : State :=
  { s.scanAccepted with
    scanRes := { ScanRes.zero with t0 := BitVec.ofNat 8 t0, thit := thit }
    scanCnt := countsAfter k
    fsm := .scanBin
    t := levelAt s.cfg.step t0 k
    kind := kindAt k
    img := img
    decReq := none
    decRsp := none
    draws := draws
    agenda := rest }

/-- SCAN has completed after `k` attempts, all there are, that found nothing (40_scan.md R123, R130). -/
def State.searchExhausted (s : State) (t0 k : Nat) (img : Image) (draws : Nat) : State :=
  { s.beforeAttempt t0 k (BitVec.ofNat 8 (levelAt s.cfg.step t0 (k - 1))) img draws [] with
    t := levelAt s.cfg.step t0 (k - 1) + s.cfg.step
    kind := .loop
    status := s.scanAccepted.status.complete false
    fsm := .idle }

theorem beforeAttempt_settled {s : State} (hset : s.settled) (t0 k : Nat) (thit : Byte) (img : Image) (draws : Nat)
    (rest : List Event) : (s.beforeAttempt t0 k thit img draws rest).settled :=
  ⟨hset.1, hset.2⟩

/-- The search is ready for its next attempt, whichever it is. -/
theorem beforeAttempt_ready {s : State} (hset : s.settled) (hc : s.scanCheck = none) (t0 k : Nat) (thit : Byte)
    (img : Image) (draws : Nat) (rest : List Event) : (s.beforeAttempt t0 k thit img draws rest).AttemptReady :=
  ⟨rfl, hset.1, hc, rfl⟩

section
variable {s : State} (hrest : s.atRest) (hset : s.settled) (hc : s.scanCheck = none)
include hrest hset hc

/-- SCAN_ENTRY of an accepted SCAN that passes its prechecks leads to the first attempt (40_scan.md R110). -/
theorem engineStep_scanAccepted : engineStep s.scanAccepted
    = .next (s.beforeAttempt (otsu (hist s.frameLuma)) 0 0#8 s.img (s.draws + 1) s.agenda) := by
  obtain ⟨-, -, hreq, hrsp⟩ := hrest
  have hluma : s.scanAccepted.luma = s.frameLuma := luma_of_settled (s := s.scanAccepted) hset.1
  rw [engineStep_scanEntry (s := s.scanAccepted) rfl, scanEntry_starts (s := s.scanAccepted) hc, hluma]
  generalize otsu (hist s.frameLuma) = t0
  simp only [State.beforeAttempt, levelAt, Nat.zero_sub, Nat.zero_mul, Nat.add_zero]
  rw [← hreq, ← hrsp]
  rfl

/-- A SCAN that passes its prechecks comes to its first attempt in two steps (40_scan.md R110). -/
theorem runSteps_firstAttempt (hb : s.cfg.regBase % 4 = 0) (rest : List Event) (n : Nat) :
    runSteps (n + 2) ({ s with agenda := .engine :: rest }.withFetchWord 32 2)
      = runSteps n (s.beforeAttempt (otsu (hist s.frameLuma)) 0 0#8 s.img (s.draws + 1) rest) := by
  have ⟨_, hidle, _, _⟩ := hrest
  let u : State := { s with agenda := .engine :: rest }
  have hentry := engineStep_scanAccepted (s := { s with agenda := rest }) hrest hset hc
  exact (runSteps_scan (s := u) hidle hb (n + 1)).trans (runSteps_event (s := u.scanAccepted) n rfl hentry)

end

section
variable {s : State} {t0 : Nat} (ht : t0 < Config.tceil) (hstep : 0 < s.cfg.step) {k : Nat} (thit : Byte) (img : Image)
  (draws : Nat) (coming rest : List Event)

/-- The state before an attempt, once that attempt is missed: the counts are those before the next one. -/
theorem openedConsumed_beforeAttempt :
    (s.beforeAttempt t0 k thit img draws coming).openedConsumed rest
      = { s.beforeAttempt t0 (k + 1) (BitVec.ofNat 8 (levelAt s.cfg.step t0 k))
            (opening (binarize s.frameLuma (levelAt s.cfg.step t0 k))) (draws + 1) rest with
          t := levelAt s.cfg.step t0 k, kind := kindAt k, fsm := .scanWaitOpen } := by
  dsimp only [State.openedConsumed, State.beforeAttempt]
  rw [countsAfter_succ]
  rfl

/-- The next attempt is made at its threshold, by its kind (40_scan.md R123). -/
theorem nextAttempt_beforeAttempt {t : Nat} (hlevel : t = levelAt s.cfg.step t0 (k + 1)) (u : Nat) (kind : Kind) (f : Fsm) :
    nextAttempt t { s.beforeAttempt t0 (k + 1) thit img draws rest with t := u, kind := kind, fsm := f }
      = s.beforeAttempt t0 (k + 1) thit img draws rest := by
  rw [hlevel]
  rfl

include ht hstep

/-- After an attempt that finds nothing the next one follows, if it is below the bound (40_scan.md R123). -/
theorem nextLevel_openedConsumed (hk : k + 1 < attemptBound s.cfg.step t0) :
    nextLevel ((s.beforeAttempt t0 k thit img draws coming).openedConsumed rest)
      = s.beforeAttempt t0 (k + 1) (BitVec.ofNat 8 (levelAt s.cfg.step t0 k))
          (opening (binarize s.frameLuma (levelAt s.cfg.step t0 k))) (draws + 1) rest := by
  have hbelow := (lt_attemptBound_iff ht hstep).mp hk
  rw [openedConsumed_beforeAttempt]
  cases k with
  | zero =>
    have hbyte : (BitVec.ofNat 8 t0).toNat = t0 := (BitVec.toNat_ofNat t0 8).trans (Nat.mod_eq_of_lt (Nat.lt_succ_of_lt ht))
    rw [nextLevel_initial rfl (lt_of_eq_of_lt hbyte ht)]
    have hlevel : levelAt s.cfg.step t0 1 = t0 := by simp [levelAt]
    exact nextAttempt_beforeAttempt _ _ _ _ (hbyte.trans hlevel.symm) _ _ _
  | succ k =>
    rw [levelAt_succ] at hbelow
    rw [nextLevel_more rfl hbelow]
    exact nextAttempt_beforeAttempt _ _ _ _ (levelAt_succ ..).symm _ _ _

/-- After the last attempt the next threshold is at the ceiling, and SCAN completes (40_scan.md R123, R130). -/
theorem nextLevel_lastMissed (hset : s.settled) (hk : k + 2 = attemptBound s.cfg.step t0) :
    nextLevel ((s.beforeAttempt t0 (k + 1) thit img draws coming).openedConsumed [])
      = s.searchExhausted t0 (k + 2) (opening (binarize s.frameLuma (levelAt s.cfg.step t0 (k + 1)))) (draws + 1) := by
  have hceil := (lt_attemptBound_iff ht hstep (k := k + 1)).not.mp (by omega)
  rw [levelAt_succ, Nat.not_lt] at hceil
  rw [openedConsumed_beforeAttempt, nextLevel_end rfl hceil]
  exact endScanPhase_scan rfl hset

end

section
variable {s : State} {t0 : Nat} (hset : s.settled) (hc : s.scanCheck = none) (hstep : 0 < s.cfg.step)
  (ht : t0 < Config.tceil)
include hset hc hstep ht

/-- After an attempt that finds nothing another one follows, if it is below the bound (40_scan.md R123). -/
theorem runSteps_nextAttempt {k : Nat} (hk : k + 1 < attemptBound s.cfg.step t0) {p : Response × Response}
    (hp : found p.1 = false ∧ found p.2 = false) (thit : Byte) (img : Image) (draws : Nat) (rest : List Event) :
    ∃ thit' img', ∀ n, runSteps (n + 5) (s.beforeAttempt t0 k thit img draws (attemptEvents p ++ rest))
      = runSteps n (s.beforeAttempt t0 (k + 1) thit' img' (draws + 1) rest) := by
  let u : State := s.beforeAttempt t0 k thit img draws (attemptEvents p ++ rest)
  refine ⟨BitVec.ofNat 8 u.t, opening (binarize u.frameLuma u.t), fun n => ?_⟩
  rw [runSteps_missedAttempt (s := u) (beforeAttempt_ready hset hc ..) n rfl hp.1 hp.2,
    nextLevel_openedConsumed ht hstep thit img draws _ rest hk]
  rfl

/-- Any number of attempts that find nothing, below the bound (40_scan.md R124). -/
theorem runSteps_missedAttempts {answers : List (Response × Response)}
    (hmiss : ∀ p ∈ answers, found p.1 = false ∧ found p.2 = false) {k : Nat}
    (hk : k + answers.length < attemptBound s.cfg.step t0) (thit : Byte) (img : Image) (draws : Nat)
    (rest : List Event) :
    ∃ thit' img' draws', ∀ n,
      runSteps (n + 5 * answers.length) (s.beforeAttempt t0 k thit img draws (answers.flatMap attemptEvents ++ rest))
        = runSteps n (s.beforeAttempt t0 (k + answers.length) thit' img' draws' rest) := by
  induction answers generalizing k thit img draws with
  | nil => exact ⟨thit, img, draws, fun n => rfl⟩
  | cons p ps ih =>
    rw [List.length_cons, ← Nat.add_assoc, Nat.add_right_comm] at hk
    obtain ⟨hp, hps⟩ := List.forall_mem_cons.mp hmiss
    obtain ⟨thit1, img1, h1⟩ := runSteps_nextAttempt hset hc hstep ht (k := k) (by omega) hp thit img draws
      (ps.flatMap attemptEvents ++ rest)
    obtain ⟨thit2, img2, draws2, h2⟩ := ih hps hk thit1 img1 (draws + 1)
    refine ⟨thit2, img2, draws2, fun n => ?_⟩
    rw [List.length_cons, ← Nat.add_assoc, Nat.add_right_comm k, Nat.mul_succ, ← Nat.add_assoc, List.flatMap_cons,
      List.append_assoc, h1, h2]

/-- As many attempts as the bound, all of which find nothing, end the search (40_scan.md R124). -/
theorem runSteps_exhaustedSearch {answers : List (Response × Response)}
    (hmiss : ∀ p ∈ answers, found p.1 = false ∧ found p.2 = false)
    (hlen : answers.length = attemptBound s.cfg.step t0) (thit : Byte) (img : Image) (draws : Nat) :
    ∃ img' draws', runSteps (5 * answers.length) (s.beforeAttempt t0 0 thit img draws (answers.flatMap attemptEvents))
      = .next (s.searchExhausted t0 answers.length img' draws') := by
  have htwo := two_le_attemptBound ht hstep
  obtain rfl | ⟨missed, p, rfl⟩ := List.eq_nil_or_concat' answers
  · rw [List.length_nil] at hlen
    omega
  obtain ⟨hmissed, hp⟩ := List.forall_mem_append.mp hmiss
  obtain ⟨hp1, hp2⟩ := hp p (List.mem_singleton_self p)
  rw [List.length_append, List.length_singleton] at hlen ⊢
  obtain ⟨k, hk⟩ : ∃ k, missed.length = k + 1 := ⟨missed.length - 1, by omega⟩
  obtain ⟨thit1, img1, draws1, hrun⟩ := runSteps_missedAttempts hset hc hstep ht hmissed (k := 0) (by omega) thit img
    draws (attemptEvents p ++ [])
  refine ⟨opening (binarize s.frameLuma (levelAt s.cfg.step t0 (k + 1))), draws1 + 1, ?_⟩
  rw [Nat.mul_succ, Nat.add_comm, List.flatMap_append, List.flatMap_singleton, ← List.append_nil (attemptEvents p), hrun 5,
    runSteps_missedAttempt (beforeAttempt_ready hset hc ..) 0 rfl hp1 hp2, Nat.zero_add, hk,
    nextLevel_lastMissed ht hstep thit1 img1 draws1 _ hset (by omega)]
  rfl

end

/-- SCAN has completed with the answer `r`, found in the attempt after `k` others; `opened` says on which image (40_scan.md
R121, R122, R125). -/
def State.searchFound (s : State) (t0 k : Nat) (r : Response) (opened : Bool) (img : Image) (draws : Nat) :
    State :=
  { s.beforeAttempt t0 k 0#8 img draws [] with
    status := s.scanAccepted.status.complete false
    scanRes := { found := true, opened := opened, serr := .none, t0 := BitVec.ofNat 8 t0
                 thit := BitVec.ofNat 8 (levelAt s.cfg.step t0 k) }
    scanCnt := { attempts := BitVec.ofNat 16 (k + 1), calls := BitVec.ofNat 16 (2 * k + if opened then 2 else 1) }
    res := r.bytes.take s.cfg.resCap
    resLen := { len := BitVec.ofNat 16 (min r.bytes.length s.cfg.resCap), trunc := decide (r.bytes.length > s.cfg.resCap) }
    fsm := .idle }

/-- The counts and the length of the result fit their fields (10_state.md R35, R36). -/
theorem searchFound_counts (s : State) (t0 : Nat) {k : Nat} (r : Response) (opened : Bool) (img : Image) (draws : Nat)
    (hk : k < 256) (hcap : s.cfg.resCap ≤ 3840) :
    (s.searchFound t0 k r opened img draws).scanCnt.attempts.toNat = k + 1
    ∧ (s.searchFound t0 k r opened img draws).scanCnt.calls.toNat = 2 * k + (if opened then 2 else 1)
    ∧ (s.searchFound t0 k r opened img draws).resLen.len.toNat = min r.bytes.length s.cfg.resCap := by
  have hcalls : (if opened then 2 else 1) ≤ 2 := by split <;> omega
  simp only [State.searchFound, BitVec.toNat_ofNat]
  omega

/-- The steps of an attempt that finds `r`: on the plain image, or on the opened one after the answer `plain`. -/
def lastEvents (plain r : Response) (opened : Bool) : List Event :=
  if opened then attemptEvents (plain, r) else [.engine, .decoder r, .engine]

/-- A stored result ends the scan phase of SCAN with its completion (40_scan.md R121, R122, R130). -/
theorem endScanPhase_stored {s : State} (hop : s.op = .scan) (hset : s.settled) (r : Response) (opened : Bool) :
    endScanPhase (noteFound opened (store r s))
      = { noteFound opened (store r s) with status := s.status.complete s.err, fsm := .idle } :=
  endScanPhase_scan (s := noteFound opened (store r s)) hop hset

theorem plainConsumed_settled {s : State} (hset : s.settled) (rest : List Event) : (s.plainConsumed rest).settled :=
  hset

theorem openedConsumed_settled {s : State} (hset : s.settled) (rest : List Event) : (s.openedConsumed rest).settled :=
  hset

section
variable {s : State} (hset : s.settled) (hc : s.scanCheck = none) {r : Response} (hr : found r = true) {plain : Response}
  (t0 k : Nat) (thit : Byte) (img : Image) (draws : Nat)
include hset hc hr

/-- An answer found on the plain image completes SCAN (40_scan.md R121). -/
theorem runSteps_completedByPlain :
    runSteps 3 (s.beforeAttempt t0 k thit img draws [.engine, .decoder r, .engine])
      = .next (s.searchFound t0 k r false (binarize s.frameLuma (levelAt s.cfg.step t0 k)) (draws + 1)) := by
  let u : State := s.beforeAttempt t0 k thit img draws [.engine, .decoder r, .engine]
  have hend := endScanPhase_stored (s := u.plainConsumed []) rfl
    (plainConsumed_settled (beforeAttempt_settled hset ..) []) r false
  rw [runSteps_plainFound (s := u) (beforeAttempt_ready hset hc ..) 0 rfl hr, runSteps_zero, hend]
  dsimp only [u, State.plainConsumed, State.searchFound, State.beforeAttempt, noteFound, store, countsAfter]
  rw [← BitVec.ofNat_add, ← BitVec.ofNat_add]
  rfl

/-- An answer found on the opened image completes SCAN (40_scan.md R122). -/
theorem runSteps_completedByOpened (hplain : found plain = false) :
    runSteps 5 (s.beforeAttempt t0 k thit img draws (attemptEvents (plain, r)))
      = .next (s.searchFound t0 k r true (opening (binarize s.frameLuma (levelAt s.cfg.step t0 k))) (draws + 1)) := by
  let u : State := s.beforeAttempt t0 k thit img draws (attemptEvents (plain, r))
  have hend := endScanPhase_stored (s := u.openedConsumed []) rfl
    (openedConsumed_settled (beforeAttempt_settled hset ..) []) r true
  rw [runSteps_openedFound (s := u) (beforeAttempt_ready hset hc ..) 0 rfl hplain hr, runSteps_zero, hend]
  dsimp only [u, State.openedConsumed, State.searchFound, State.beforeAttempt, noteFound, store, countsAfter]
  rw [← BitVec.ofNat_add, ← BitVec.ofNat_add, ← BitVec.ofNat_add]
  rfl

/-- The attempt whose answer `r` is found, on either image, completes SCAN (40_scan.md R125). -/
theorem runSteps_lastAttempt (hplain : found plain = false) (opened : Bool) :
    ∃ img' draws', runSteps (lastEvents plain r opened).length
        (s.beforeAttempt t0 k thit img draws (lastEvents plain r opened))
      = .next (s.searchFound t0 k r opened img' draws') := by
  cases opened with
  | false => exact ⟨_, _, runSteps_completedByPlain hset hc hr t0 k thit img draws⟩
  | true => exact ⟨_, _, runSteps_completedByOpened hset hc hr t0 k thit img draws hplain⟩

end

end Sys2Proof.Machine
end

section
/-! PROOFS of the statements about a whole SCAN (40_scan.md R124, R125, R131, 60_exceptions.md R223). -/

namespace Sys2Proof.Machine

/-- Settles O34: the acceptance, and the raise at SCAN_ENTRY. -/
theorem scanErrorMakesNoCall : Obligations.ScanErrorMakesNoCall := by
  intro s e hrest hset ha hb hc
  obtain ⟨-, hidle, -, -⟩ := hrest
  have hraise : engineStep s.scanAccepted = .next (raise .scanner e s.scanAccepted) :=
    (engineStep_scanEntry (s := s.scanAccepted) rfl).trans (scanEntry_raises hc)
  rw [runSteps_scan hidle hb, runSteps_engine 0 (s := s.scanAccepted) ha hraise, runSteps_zero, raise]
  exact congrArg Host.Outcome.next (endScanPhase_scan rfl hset)

/-- Settles O32: all attempts but the last go on to another, and the next threshold of the last is at the ceiling. -/
theorem searchThatFindsNothing : Obligations.SearchThatFindsNothing := by
  intro s answers hrest hset ha hl hc hmiss t0 hlen start
  obtain ⟨hstep, -, hb⟩ := Config.legal_bounds hl
  have ht : t0 < Config.tceil := otsu_hist_lt s.frameLuma
  have hfirst (n : Nat) : runSteps (n + 2) start
      = runSteps n (s.beforeAttempt t0 0 0#8 s.img (s.draws + 1) (answers.flatMap attemptEvents)) :=
    runSteps_firstAttempt hrest hset hc hb _ n
  clear_value t0
  obtain ⟨img, draws, hrun⟩ := runSteps_exhaustedSearch hset hc hstep ht hmiss hlen 0#8 s.img (s.draws + 1)
  have hsteps : start.agenda.length = 5 * answers.length + 2 :=
    congrArg (· + 2) (length_attempts answers)
  obtain ⟨hattempts, hcalls⟩ := countsAfter_toNat (hlen.trans_le (attemptBound_le ht hstep))
  have hend : runSteps start.agenda.length start = .next (s.searchExhausted t0 answers.length img draws) := by
    rw [hsteps]
    exact (hfirst _).trans hrun
  refine ⟨_, hend, rfl, rfl, rfl, ?_, hattempts.trans hlen, hcalls.trans (congrArg (2 * ·) hattempts.symm),
    rfl, rfl, rfl, rfl, rfl, rfl, rfl, rfl, rfl, rfl, rfl, rfl⟩
  rw [levels_getLast? ht, ← hlen]
  rfl

/-- Settles O33: the attempts before go on to another, and the answer found ends the next one. -/
theorem firstMatchEndsTheSearch : Obligations.FirstMatchEndsTheSearch := by
  intro s answers plain r opened hrest hset ha hl hc hmiss hplain hr t0 hlen last start
  obtain ⟨hstep, hcap, hb⟩ := Config.legal_bounds hl
  have ht : t0 < Config.tceil := otsu_hist_lt s.frameLuma
  have hfirst (n : Nat) : runSteps (n + 2) start
      = runSteps n (s.beforeAttempt t0 0 0#8 s.img (s.draws + 1)
          (answers.flatMap attemptEvents ++ lastEvents plain r opened)) :=
    runSteps_firstAttempt hrest hset hc hb _ n
  clear_value t0
  obtain ⟨thit, img, draws, hrun⟩ := runSteps_missedAttempts hset hc hstep ht hmiss (k := 0) (by omega) 0#8 s.img
    (s.draws + 1) (lastEvents plain r opened)
  rw [Nat.zero_add] at hrun
  obtain ⟨img', draws', hlast⟩ := runSteps_lastAttempt hset hc hr t0 answers.length thit img draws hplain opened
  have hsteps : start.agenda.length = (lastEvents plain r opened).length + 5 * answers.length + 2 := by
    rw [Nat.add_comm (List.length _), ← length_attempts, ← List.length_append]
    rfl
  have hend : runSteps start.agenda.length start = .next (s.searchFound t0 answers.length r opened img' draws') := by
    rw [hsteps, hfirst, hrun, hlast]
  obtain ⟨hattempts, hcalls, hres⟩ := searchFound_counts s t0 r opened img' draws'
    (hlen.trans_le (attemptBound_le ht hstep)) hcap
  refine ⟨_, hend, rfl, rfl, rfl, rfl, rfl, ?_, hattempts, hcalls, rfl, hres, rfl, rfl, rfl⟩
  rw [List.getD_eq_getElem?_getD, levels_getElem? ht hlen]
  rfl

end Sys2Proof.Machine
end

section
/-! SUPPORT. The convert phase: the bytes of a pixel and of a row, the outcomes of CONV_ENTRY and CONV_ROW, and CONVERT as a
run over the rows of a frame (41_convert.md R160 to R170). -/

namespace Sys2Proof.Machine

/-! ## The bytes of a pixel and of a row -/

/-- The packed word as a number: no channel's bits leave the word (41_convert.md R164). -/
theorem pack565_toNat (b g r : Byte) :
    (pack565 b g r).toNat = ((r.toNat >>> 3) <<< 11) ||| ((g.toNat >>> 2) <<< 5) ||| (b.toNat >>> 3) := by
  have hbyte (v : Byte) : v.toNat % 2 ^ 16 = v.toNat := Nat.mod_eq_of_lt (v.isLt.trans (by decide))
  have hred : r.toNat >>> 3 <<< 11 < 2 ^ 16 := by
    rw [Nat.shiftLeft_eq, Nat.shiftRight_eq_div_pow]
    omega
  have hgreen : g.toNat >>> 2 <<< 5 < 2 ^ 16 := by
    rw [Nat.shiftLeft_eq, Nat.shiftRight_eq_div_pow]
    omega
  simp only [pack565, BitVec.toNat_or, BitVec.toNat_shiftLeft, BitVec.toNat_ushiftRight, BitVec.toNat_setWidth, hbyte,
    Nat.mod_eq_of_lt hred, Nat.mod_eq_of_lt hgreen]

/-- The high bits of a byte as a number. -/
theorem extractLsb'_toNat_of_byte (v : Byte) {start len : Nat} (h : 8 ≤ start + len) :
    (v.extractLsb' start len).toNat = v.toNat >>> start := by
  rw [BitVec.extractLsb'_toNat, Nat.mod_eq_of_lt]
  rw [Nat.shiftRight_eq_div_pow, Nat.div_lt_iff_lt_mul (Nat.two_pow_pos start), ← Nat.pow_add, Nat.add_comm]
  exact v.isLt.trans_le (Nat.pow_le_pow_right (by decide) h)

/-- The packed word is its three fields side by side, each the most significant bits of its channel (41_convert.md R164). -/
theorem pack565_eq_append (b g r : Byte) :
    pack565 b g r = r.extractLsb' 3 5 ++ g.extractLsb' 2 6 ++ b.extractLsb' 3 5 := by
  apply BitVec.eq_of_toNat_eq
  rw [pack565_toNat, BitVec.toNat_append, BitVec.toNat_append, Nat.shiftLeft_or_distrib, ← Nat.shiftLeft_add]
  simp (disch := decide) only [extractLsb'_toNat_of_byte, Nat.reduceAdd]

open BitVec (extractLsb'_append_eq_of_le extractLsb'_append_eq_of_add_le extractLsb'_eq_self) in
/-- Where each channel stands in the packed word (41_convert.md R164). -/
theorem pack565_fields (b g r : Byte) :
    (pack565 b g r).extractLsb' 11 5 = r.extractLsb' 3 5 ∧ (pack565 b g r).extractLsb' 5 6 = g.extractLsb' 2 6
      ∧ (pack565 b g r).extractLsb' 0 5 = b.extractLsb' 3 5 := by
  rw [pack565_eq_append]
  simp (disch := decide) only [extractLsb'_append_eq_of_le, extractLsb'_append_eq_of_add_le, extractLsb'_eq_self,
    Nat.reduceSub, and_self]

/-- The bytes of pixel `x` in a row are those of the pixel, in order (41_convert.md R164, R165). -/
theorem frameRow_getElem? {s : State} {n : Nat} (hn : n = if s.bpp = 16 then 2 else 4) (r : Nat) {x j : Nat}
    (hx : x < s.frameW) (hj : j < n) :
    (s.frameRow r)[n * x + j]? = (pixelBytes s.bpp (s.src.read (s.pixelAddr 3 x r)) (s.src.read (s.pixelAddr 3 x r + 1))
      (s.src.read (s.pixelAddr 3 x r + 2)))[j]? :=
  getElem?_pieces s.frameW n _ (fun _ _ => hn ▸ pixelBytes_length ..) hx hj

/-- A row without pixels has no byte (41_convert.md R168). -/
theorem frameRow_of_no_pixel {s : State} (h : s.frameW = 0) (r : Nat) : s.frameRow r = [] := by
  rw [State.frameRow, h, List.range_zero, List.flatMap_nil]

/-- Rows without pixels leave FB as it is (41_convert.md R168). -/
theorem fbAfterRows_of_no_pixel {s : State} (h : s.frameW = 0) (n : Nat) : s.fbAfterRows n = s.fb := by
  induction n with
  | zero => rfl
  | succ n ih => rw [State.fbAfterRows, frameRow_of_no_pixel h, ih, Memory.writeBytes]

/-! ## CONV_ENTRY -/

theorem engineStep_convEntry {s : State} (h : s.fsm = .convEntry) : engineStep s = convEntry s := by
  simp only [engineStep, h]

section
variable {s : State}

/-- The format check of a convert phase is its first (41_convert.md R160). -/
theorem convertCheck_format (h : ¬(s.channels = 3 ∧ s.depth = 8)) :
    s.convertCheck = some .unsupportedPixelFormat :=
  if_pos (by omega)

variable (hformat : s.channels = 3 ∧ s.depth = 8)
include hformat

/-- The depth check follows the format check (41_convert.md R160). -/
theorem convertCheck_depth (h : ¬(s.bpp = 16 ∨ s.bpp = 32)) : s.convertCheck = some .unsupportedFbDepth := by
  rw [State.convertCheck, if_neg (by omega), if_pos (not_or.mp h)]

variable (hdepth : s.bpp = 16 ∨ s.bpp = 32)
include hdepth

/-- The width check follows the depth check (41_convert.md R160). -/
theorem convertCheck_width (h : s.ctrl.wchk = true ∧ s.frameW > s.vwidth) :
    s.convertCheck = some .frameWiderThanDevice := by
  rw [State.convertCheck, if_neg (by omega), if_neg (by omega), if_pos h]

variable (hwidth : ¬(s.ctrl.wchk = true ∧ s.frameW > s.vwidth))
include hwidth

/-- The range checks are the last, FB before SRC (41_convert.md R160). -/
theorem convertCheck_ranges :
    s.convertCheck = if s.fbInside then if s.srcInside 3 then none else some .srcRange else some .fbRange := by
  rw [State.convertCheck, if_neg (by omega), if_neg (by omega), if_neg hwidth]
  cases s.fbInside <;> cases s.srcInside 3 <;> rfl

/-- A frame without pixels lies in any range (41_convert.md R168). -/
theorem convertCheck_of_no_pixel (h : s.frameW = 0 ∨ s.frameH = 0) : s.convertCheck = none := by
  have hfb : s.fbInside = true := fbInside_iff.mpr (by omega)
  have hsrc : s.srcInside 3 = true := srcInside_iff.mpr (by omega)
  rw [convertCheck_ranges hformat hdepth hwidth, if_pos hfb, if_pos hsrc]

end

/-- A failing check is raised (41_convert.md R160). -/
theorem convEntry_raises {s : State} {e : ErrCode} (h : s.convertCheck = some e) :
    convEntry s = .next (raise .converter e s) := by
  simp only [convEntry, h]

/-- Past the checks a frame without rows completes the command (41_convert.md R160, R168). -/
theorem convEntry_no_row {s : State} (h : s.convertCheck = none) (h0 : s.frameH = 0) :
    convEntry s = .next (complete { s with row := 0 }) := by
  simp only [convEntry, h, h0, if_true, endConvertPhase]

/-- Past the checks the rows begin at row 0 (41_convert.md R160). -/
theorem convEntry_rows {s : State} (h : s.convertCheck = none) (h0 : s.frameH ≠ 0) :
    convEntry s = .next { s with row := 0, fsm := .convRow } := by
  simp only [convEntry, h, h0, if_false]

/-! ## CONV_ROW -/

theorem engineStep_convRow {s : State} (h : s.fsm = .convRow) : engineStep s = convRow s := by
  simp only [engineStep, h]

/-- A row that is done has its bytes at its offset, and every other byte of FB is as before (41_convert.md R166). -/
theorem rowDone_read {s : State} (hf : s.fb.wf = true) (hb : s.bpp = 16 ∨ s.bpp = 32) (r a : Nat) :
    (s.rowDone r).fb.read a = if s.rowOffset r ≤ a ∧ a < s.rowOffset r + s.frameW * s.bytesPerPixel
      then (s.frameRow r).getD (a - s.rowOffset r) 0#8 else s.fb.read a := by
  rw [State.rowDone, Memory.read_writeBytes hf, frameRow_length hb, State.rowLength]

/-! ## CONVERT as a run -/

/-- The state after the acceptance of CONVERT by an idle block (30_encoding.md R95). -/
def State.convertAccepted (s : State) : State := accept .convert ({ s with reply := .written }.noteOp (opcodeOf .convert))

/-- A run that begins with the CMD write of CONVERT goes on from its acceptance (30_encoding.md R92). -/
theorem runSteps_convert {s : State} (hidle : s.status.busy = false) (hb : s.cfg.regBase % 4 = 0) (n : Nat) :
    runSteps (n + 1) (s.withFetchWord 32 1) = runSteps n s.convertAccepted :=
  runSteps_command n hb (i := .convert) (by decide) (exec_run_of_idle (s := { s with reply := .written }) hidle .convert)

/-- The accepted CONVERT of `s` once `k` rows are written, before row `k` (41_convert.md R166). -/
def State.beforeRow (s : State) (k : Nat) : State :=
  { s.convertAccepted with
    fb := s.fbAfterRows k
    convRes := { cerr := .none, rows := BitVec.ofNat 16 k }
    fsm := .convRow
    row := k
    draws := s.draws + k }

/-- CONVERT of `s` has completed after all rows, with `S.row` at the last one (41_convert.md R167, R170). -/
def State.converted (s : State) : State :=
  { s.convertAccepted with
    fb := s.fbAfterRows s.frameH
    convRes := { cerr := .none, rows := BitVec.ofNat 16 s.frameH }
    status := s.convertAccepted.status.complete false
    fsm := .idle
    row := s.frameH - 1
    draws := s.draws + s.frameH }

/-- ROWS of a complete CONVERT is the height of the frame (41_convert.md R167). -/
theorem converted_convRes (s : State) : s.converted.convRes = { cerr := .none, rows := s.frameSize.h } := by
  rw [State.converted, State.frameH, BitVec.ofNat_toNat, BitVec.setWidth_eq]

section
variable {s : State} (hset : s.settled) (hc : s.convertCheck = none)
include hset hc

/-- A row before the last one is followed by the next (41_convert.md R166). -/
theorem engineStep_beforeRow {k : Nat} (hk : k + 1 < s.frameH) :
    engineStep (s.beforeRow k) = .next (s.beforeRow (k + 1)) :=
  (engineStep_convRow (s := s.beforeRow k) rfl).trans (convRow_more (s := s.beforeRow k) hset hc hk)

/-- The last row completes the command (41_convert.md R166, R167). -/
theorem engineStep_lastRow {k : Nat} (hk : s.frameH = k + 1) : engineStep (s.beforeRow k) = .next s.converted := by
  rw [engineStep_convRow (s := s.beforeRow k) rfl, convRow_last (s := s.beforeRow k) hset hc hk.symm]
  simp only [State.converted, hk]
  rfl

variable (ha : s.agenda = [])
include ha

/-- The rows before the last one are a step each (41_convert.md R166). -/
theorem runSteps_rows {k : Nat} (hk : k < s.frameH) (n : Nat) :
    runSteps (n + k) (s.beforeRow 0) = runSteps n (s.beforeRow k) := by
  induction k generalizing n with
  | zero => rfl
  | succ k ih =>
    rw [← Nat.add_assoc, Nat.add_right_comm, ih (by omega),
      runSteps_engine n (s := s.beforeRow k) ha (engineStep_beforeRow hset hc hk)]

/-- From its acceptance CONVERT takes a step for its entry and one for each row (41_convert.md R160, R166, R170). -/
theorem runSteps_convertAccepted : runSteps (s.frameH + 1) s.convertAccepted = .next s.converted := by
  have hentry := engineStep_convEntry (s := s.convertAccepted) rfl
  cases hk : s.frameH with
  | zero =>
    have hend : engineStep s.convertAccepted = .next s.converted := by
      rw [hentry, convEntry_no_row (s := s.convertAccepted) hc hk,
        complete_of_settled (s := { s.convertAccepted with row := 0 }) hset]
      simp only [State.converted, hk]
      rfl
    exact runSteps_engine 0 (s := s.convertAccepted) ha hend
  | succ k =>
    have hrows : engineStep s.convertAccepted = .next (s.beforeRow 0) :=
      hentry.trans (convEntry_rows (s := s.convertAccepted) hc (hk.trans_ne k.succ_ne_zero))
    rw [runSteps_engine (k + 1) (s := s.convertAccepted) ha hrows, Nat.add_comm,
      runSteps_rows hset hc ha (by omega),
      runSteps_engine 0 (s := s.beforeRow k) ha (engineStep_lastRow hset hc hk), runSteps_zero]

end

end Sys2Proof.Machine
end

section
/-! PROOFS of the statements about the convert phase and CONVERT (41_convert.md). -/

namespace Sys2Proof.Machine

/-- Settles O10: the checks are tried in order, and past them the phase begins its rows or ends. -/
theorem convEntryChecksInOrder : Obligations.ConvEntryChecksInOrder := by
  intro s hf ha w h vw bpp format depth width fbFits srcFits
  have hfb : s.fbInside = true ↔ fbFits := by
    rw [fbInside_iff]
    simp only [fbFits, not_and, not_lt, gt_iff_lt]
    rfl
  have hsrc : s.srcInside 3 = true ↔ srcFits := by
    rw [srcInside_iff, State.srcEnd, Nat.mul_comm s.frameW]
    simp only [srcFits, not_and, not_lt, gt_iff_lt]
    rfl
  have hpass (h1 : format) (h2 : depth) (h3 : width) (h4 : fbFits) (h5 : srcFits) : s.convertCheck = none := by
    rw [convertCheck_ranges h1 h2 h3, if_pos (hfb.mpr h4), if_pos (hsrc.mpr h5)]
  rw [(step_of_no_agenda ha).trans (engineStep_convEntry hf)]
  refine ⟨fun h1 => convEntry_raises (convertCheck_format h1), fun h1 h2 => convEntry_raises (convertCheck_depth h1 h2),
    fun h1 h2 h3 => convEntry_raises (convertCheck_width h1 h2 (not_not.mp h3)),
    fun h1 h2 h3 h4 => convEntry_raises ?_, fun h1 h2 h3 h4 h5 => convEntry_raises ?_,
    fun h1 h2 h3 h4 h5 => convEntry_no_row (hpass h1 h2 h3 h4 h5),
    fun h1 h2 h3 h4 h5 => convEntry_rows (hpass h1 h2 h3 h4 h5)⟩
  · rw [convertCheck_ranges h1 h2 h3, if_neg (hfb.not.mpr h4)]
  · rw [convertCheck_ranges h1 h2 h3, if_pos (hfb.mpr h4), if_neg (hsrc.not.mpr h5)]

/-- Settles O11: the row is done, and then the next one follows or the command completes. -/
theorem convRowWritesExactlyOneRow : Obligations.ConvRowWritesExactlyOneRow := by
  intro s hf ha hset hwf hc hr
  obtain ⟨-, -, hb, -, -, -⟩ := convertCheck_none hc
  have hstep : step s = convRow s := (step_of_no_agenda ha).trans (engineStep_convRow hf)
  have hread := rowDone_read hwf hb s.row
  rcases Nat.lt_or_eq_of_le (Nat.succ_le_of_lt hr) with hmore | hlast
  · exact ⟨_, hstep.trans (convRow_more hset hc hmore), hread, rfl, fun _ => ⟨rfl, hf, rfl⟩,
      fun hlast => absurd hlast (Nat.ne_of_lt hmore), rfl⟩
  · exact ⟨_, hstep.trans (convRow_last hset hc hlast), hread, rfl, fun hmore => absurd hlast (Nat.ne_of_lt hmore),
      fun _ => ⟨rfl, rfl, rfl⟩, rfl⟩

/-- Settles O12: the packed word is its three fields side by side, and a row its pixels. -/
theorem packed565Layout : Obligations.Packed565Layout := by
  refine ⟨fun b g r => ⟨pack565_toNat b g r, pack565_fields b g r⟩, fun s r hbpp => ?_⟩
  replace hbpp : s.bpp = 16 := hbpp
  refine ⟨?_, fun x hx => ?_⟩
  · rw [frameRow_length (.inl hbpp), State.rowLength, State.bytesPerPixel, hbpp, Nat.mul_comm]
  · have hpixel (j : Nat) (hj : j < 2) := frameRow_getElem? (n := 2) (by rw [hbpp]; rfl) r hx hj
    rw [hbpp] at hpixel
    exact ⟨hpixel 0 (by decide), hpixel 1 (by decide)⟩

/-- Settles O13: a row is its pixels of four bytes each. -/
theorem padded32Layout : Obligations.Padded32Layout := by
  intro s r hbpp
  replace hbpp : s.bpp = 32 := hbpp
  refine ⟨?_, fun x hx => ?_⟩
  · rw [frameRow_length (.inr hbpp), State.rowLength, State.bytesPerPixel, hbpp, Nat.mul_comm]
  · have hpixel (j : Nat) (hj : j < 4) := frameRow_getElem? (n := 4) (by rw [hbpp]; rfl) r hx hj
    rw [hbpp] at hpixel
    exact ⟨hpixel 0 (by decide), hpixel 1 (by decide), hpixel 2 (by decide), hpixel 3 (by decide)⟩

/-- Settles O15: the acceptance, the entry and one step a row. -/
theorem convertWritesTheWholeFrame : Obligations.ConvertWritesTheWholeFrame := by
  intro s hrest hset ha hb _ hc
  obtain ⟨-, hidle, -, -⟩ := hrest
  exact ⟨_, (runSteps_convert hidle hb _).trans (runSteps_convertAccepted hset hc ha), rfl, converted_convRes s, rfl, rfl,
    rfl⟩

/-- Settles O16: the acceptance, and the raise at CONV_ENTRY. -/
theorem convertErrorWritesNothing : Obligations.ConvertErrorWritesNothing := by
  intro s e hrest hset ha hb hc
  obtain ⟨-, hidle, -, -⟩ := hrest
  have hraise : engineStep s.convertAccepted = .next (raise .converter e s.convertAccepted) :=
    (engineStep_convEntry (s := s.convertAccepted) rfl).trans (convEntry_raises hc)
  rw [runSteps_convert hidle hb, runSteps_engine 0 (s := s.convertAccepted) ha hraise, runSteps_zero, raise]
  exact congrArg Host.Outcome.next (complete_of_settled hset)

/-- Settles O17: without a pixel no range check fails and no row has a byte; a raise is that of any CONVERT. -/
theorem zeroSizeFramesConvertNothing : Obligations.ZeroSizeFramesConvertNothing := by
  intro s hrest hset ha hb hwf hsize
  have herror {e : ErrCode} (hc : s.convertCheck = some e) :
      ∃ t, runSteps 2 (s.withFetchWord 32 1) = .next t ∧ t.convRes.cerr = e ∧ t.fb = s.fb :=
    ⟨_, convertErrorWritesNothing s e hrest hset ha hb hc, rfl, rfl⟩
  refine ⟨fun ⟨hch, hd, hbpp⟩ hwidth => ?_, fun hformat => herror (convertCheck_format (by omega)),
    fun hformat hbpp => herror (convertCheck_depth hformat (by omega))⟩
  have hpass : ¬(s.ctrl.wchk = true ∧ s.frameW > s.vwidth) := fun ⟨hon, hwide⟩ =>
    hwidth.elim (fun hoff => absurd hon (by rw [hoff]; decide)) (Nat.not_le_of_lt hwide)
  have hc : s.convertCheck = none := convertCheck_of_no_pixel ⟨hch, hd⟩ hbpp hpass hsize
  have hfb : s.fbAfterRows s.frameH = s.fb := by
    rcases hsize with hw | hh
    · exact fbAfterRows_of_no_pixel hw s.frameH
    · rw [hh, State.fbAfterRows]
  obtain ⟨t, hrun, hfbt, hres, hstatus, hidle, ht⟩ := convertWritesTheWholeFrame s hrest hset ha hb hwf hc
  exact ⟨t, hrun, hidle, by rw [hstatus], hres, hfbt.trans hfb, by rw [ht]⟩

end Sys2Proof.Machine
end

section
/-! SUPPORT. The convert phase as a run from any state at its entry, whichever command it belongs to and whether a scan phase
before it raised (41_convert.md R160 to R167); and FRAME from its CMD write to that entry (42_control.md R201). -/

namespace Sys2Proof.Machine

/-! ## The convert phase of any command -/

/-- The state once the first `k` rows of its settled frame are written and counted (41_convert.md R166). -/
def State.rowsWritten (s : State) (k : Nat) : State :=
  { s with
    fb := s.fbAfterRows k
    convRes := { s.convRes with rows := BitVec.ofNat 16 k }
    draws := s.draws + k }

/-- The convert phase of `s` before row `k` (41_convert.md R166). -/
def State.atRow (s : State) (k : Nat) : State := { s.rowsWritten k with fsm := .convRow, row := k }

/-- The convert phase of `s` after its last row: the command is complete, and `S.err` says whether a phase of it raised
(41_convert.md R167, 60_exceptions.md R222). -/
def State.allRowsWritten (s : State) : State :=
  { s.rowsWritten s.frameH with status := s.status.complete s.err, fsm := .idle, row := s.frameH - 1 }

/-- A phase that has counted no row yet has written none. -/
theorem rowsWritten_zero {s : State} (h : s.convRes.rows = 0#16) : s.rowsWritten 0 = s := by
  simp only [State.rowsWritten, State.fbAfterRows, ← h, Nat.add_zero]

/-- ROWS of a finished convert phase is the height of the frame (41_convert.md R167). -/
theorem allRowsWritten_convRes (s : State) :
    s.allRowsWritten.convRes = { cerr := s.convRes.cerr, rows := s.frameSize.h } := by
  rw [State.allRowsWritten, State.rowsWritten, State.frameH, BitVec.ofNat_toNat, BitVec.setWidth_eq]

section
variable {s : State} (hset : s.settled) (hc : s.convertCheck = none) (ha : s.agenda = [])
include hset hc ha

/-- From any row on, the convert phase takes one step for each row that is left (41_convert.md R166). -/
theorem runSteps_rowsLeft (n : Nat) {k : Nat} (hk : k + (n + 1) = s.frameH) :
    runSteps (n + 1) (s.atRow k) = .next s.allRowsWritten := by
  induction n generalizing k with
  | zero =>
    have hlast : engineStep (s.atRow k) = .next s.allRowsWritten := by
      rw [engineStep_convRow (s := s.atRow k) rfl, convRow_last (s := s.atRow k) hset hc hk, State.allRowsWritten, ← hk]
      rfl
    exact runSteps_engine 0 (s := s.atRow k) ha hlast
  | succ n ih =>
    have hmore : engineStep (s.atRow k) = .next (s.atRow (k + 1)) :=
      (engineStep_convRow (s := s.atRow k) rfl).trans
        (convRow_more (s := s.atRow k) hset hc (show k + 1 < s.frameH by omega))
    rw [runSteps_engine (n + 1) (s := s.atRow k) ha hmore]
    exact ih (by omega)

/-- From its entry, past the prechecks, a convert phase takes a step for its entry and one for each row (41_convert.md R160,
R166, R167). -/
theorem runSteps_convertPhase (hf : s.fsm = .convEntry) (hrows : s.convRes.rows = 0#16) :
    runSteps (s.frameH + 1) s = .next s.allRowsWritten := by
  have hentry := engineStep_convEntry hf
  have hnone := rowsWritten_zero hrows
  cases hk : s.frameH with
  | zero =>
    have hend : engineStep s = .next s.allRowsWritten := by
      rw [hentry, convEntry_no_row hc hk, complete_of_settled (s := { s with row := 0 }) hset, State.allRowsWritten, hk,
        hnone]
    exact runSteps_engine 0 ha hend
  | succ n =>
    have hfirst : engineStep s = .next (s.atRow 0) := by
      rw [hentry, convEntry_rows hc (hk.trans_ne n.succ_ne_zero), State.atRow, hnone]
    rw [runSteps_engine (n + 1) ha hfirst]
    exact runSteps_rowsLeft hset hc ha n (by omega)

end

/-! ## FRAME up to its convert phase -/

/-- The state after the acceptance of FRAME by an idle block (30_encoding.md R95). -/
def State.frameAccepted (s : State) : State := accept .frame ({ s with reply := .written }.noteOp (opcodeOf .frame))

/-- A run that begins with the CMD write of FRAME goes on from its acceptance (30_encoding.md R92). -/
theorem runSteps_frame {s : State} (hidle : s.status.busy = false) (hb : s.cfg.regBase % 4 = 0) (n : Nat) :
    runSteps (n + 1) (s.withFetchWord 32 3) = runSteps n s.frameAccepted :=
  runSteps_command n hb (i := .frame) (by decide) (exec_run_of_idle (s := { s with reply := .written }) hidle .frame)

/-- The accepted FRAME of `s` once its scan phase has raised `e`: the convert phase is next (40_scan.md R130,
60_exceptions.md R221). -/
def State.frameScanRaised (s : State) (e : ErrCode) : State :=
  { s.frameAccepted with
    scanRes := { ScanRes.zero with serr := e }
    err := true
    status := { s.frameAccepted.status with phase := .convert }
    fsm := .convEntry }

/-- FRAME whose frame fails a scan precheck comes to its convert phase in two steps (40_scan.md R110, R130). -/
theorem runSteps_frameScanRaised {s : State} {e : ErrCode} (hrest : s.atRest) (ha : s.agenda = [])
    (hb : s.cfg.regBase % 4 = 0) (hc : s.scanCheck = some e) (n : Nat) :
    runSteps (n + 2) (s.withFetchWord 32 3) = runSteps n (s.frameScanRaised e) := by
  obtain ⟨-, hidle, -, -⟩ := hrest
  have hraise : engineStep s.frameAccepted = .next (s.frameScanRaised e) :=
    (engineStep_scanEntry (s := s.frameAccepted) rfl).trans (scanEntry_raises (s := s.frameAccepted) hc)
  rw [runSteps_frame hidle hb, runSteps_engine n (s := s.frameAccepted) ha hraise]

/-- The accepted FRAME of `s` before its first attempt, at the Otsu threshold `t0` (40_scan.md R110). -/
def State.frameSearch (s : State) (t0 : Nat) (rest : List Event) : State :=
  startSearch t0 { s.frameAccepted with draws := s.draws + 1, agenda := rest }

/-- The accepted FRAME of `s` once its first answer `r` is found, on the plain image: the convert phase is next (40_scan.md
R121, R130). -/
def State.frameFound (s : State) (t0 : Nat) (r : Response) : State :=
  { s.frameAccepted with
    status := { s.frameAccepted.status with phase := .convert }
    scanRes := { found := true, opened := false, serr := .none, t0 := BitVec.ofNat 8 t0, thit := BitVec.ofNat 8 t0 }
    scanCnt := { attempts := 1#16, calls := 1#16 }
    res := r.bytes.take s.cfg.resCap
    resLen := { len := BitVec.ofNat 16 (min r.bytes.length s.cfg.resCap), trunc := decide (r.bytes.length > s.cfg.resCap) }
    fsm := .convEntry
    t := t0
    kind := .initial
    img := binarize s.frameLuma t0
    decReq := none
    decRsp := none
    draws := s.draws + 1 + 1
    agenda := [] }

/-- FRAME past the scan prechecks, its first answer found, comes to its convert phase in five steps (40_scan.md R110, R120,
R121, R130). -/
theorem runSteps_frameFound {s : State} {r : Response} (hrest : s.atRest) (hset : s.settled)
    (hb : s.cfg.regBase % 4 = 0) (hc : s.scanCheck = none) (hr : found r = true) (n : Nat) :
    runSteps (n + 5) ({ s with agenda := [.engine, .engine, .decoder r, .engine] }.withFetchWord 32 3)
      = runSteps n (s.frameFound (otsu (hist s.frameLuma)) r) := by
  obtain ⟨-, hidle, -, hrsp⟩ := hrest
  let u : State := { s with agenda := [.engine, .engine, .decoder r, .engine] }
  let v : State := { s.frameAccepted with agenda := [.engine, .decoder r, .engine] }
  have hluma : v.luma = s.frameLuma := luma_of_settled (s := v) hset.1
  have hentry : engineStep v = .next (s.frameSearch (otsu (hist s.frameLuma)) v.agenda) := by
    rw [engineStep_scanEntry (s := v) rfl, scanEntry_starts (s := v) hc, hluma]
    rfl
  generalize otsu (hist s.frameLuma) = t0 at hentry ⊢
  have hend : endScanPhase (noteFound false (store r ((s.frameSearch t0 v.agenda).plainConsumed []))) = s.frameFound t0 r :=
    endScanPhase_frame rfl
  have hready : (s.frameSearch t0 v.agenda).AttemptReady := ⟨rfl, hset.1, hc, hrsp⟩
  calc runSteps (n + 5) (u.withFetchWord 32 3)
    _ = runSteps (n + 4) u.frameAccepted := runSteps_frame (s := u) hidle hb (n + 4)
    _ = runSteps (n + 3) (s.frameSearch t0 v.agenda) := runSteps_event (s := u.frameAccepted) (n + 3) rfl hentry
    _ = runSteps n (s.frameFound t0 r) := hend ▸ runSteps_plainFound hready n rfl hr

end Sys2Proof.Machine
end

section
/-! PROOFS of the statements about NOP and FRAME (42_control.md). -/

namespace Sys2Proof.Machine

/-- Settles O35: the attempt whose answer is found, and the convert phase after it. -/
theorem frameScansThenConverts : Obligations.FrameScansThenConverts := by
  intro s r hrest hset _ hl _ hscan hconv hr start
  obtain ⟨-, -, hb⟩ := Config.legal_bounds hl
  have hsearch : runSteps (5 + (s.frameH + 1)) start
      = runSteps (s.frameH + 1) (s.frameFound (otsu (hist s.frameLuma)) r) := by
    rw [Nat.add_comm]
    exact runSteps_frameFound hrest hset hb hscan hr _
  generalize otsu (hist s.frameLuma) = t0 at hsearch
  have hphase := runSteps_convertPhase (s := s.frameFound t0 r) hset hconv rfl rfl rfl
  have hfb := fbAfterRows_congr (s := s) (t := s.frameFound t0 r) rfl rfl rfl rfl rfl rfl s.frameH
  exact ⟨_, hsearch.trans hphase, rfl, rfl, hfb, allRowsWritten_convRes _, rfl, rfl, rfl, rfl, rfl, rfl⟩

/-- Settles O36: the raise at SCAN_ENTRY, and then the convert phase or the raise at CONV_ENTRY. -/
theorem frameConvertsAfterAScanError : Obligations.FrameConvertsAfterAScanError := by
  intro s e hrest hset ha hl _ hscan
  obtain ⟨-, -, hb⟩ := Config.legal_bounds hl
  have hraised := runSteps_frameScanRaised hrest ha hb hscan
  refine ⟨fun hconv => ?_, fun e' hconv => ?_⟩
  · have hphase := runSteps_convertPhase (s := s.frameScanRaised e) hset hconv ha rfl rfl
    have hfb := fbAfterRows_congr (s := s) (t := s.frameScanRaised e) rfl rfl rfl rfl rfl rfl s.frameH
    exact ⟨_, (hraised (s.frameH + 1)).trans hphase, rfl, rfl, allRowsWritten_convRes _, hfb, rfl, rfl, rfl, rfl⟩
  · have hraise : engineStep (s.frameScanRaised e) = .next (raise .converter e' (s.frameScanRaised e)) :=
      (engineStep_convEntry (s := s.frameScanRaised e) rfl).trans (convEntry_raises (s := s.frameScanRaised e) hconv)
    exact ⟨_, (hraised 1).trans (runSteps_engine 0 (s := s.frameScanRaised e) ha hraise),
      rfl, rfl, rfl, rfl, rfl, rfl, rfl⟩

/-- Settles O6: the idle sequencer completes NOP, the busy one drops it. -/
theorem nopCompletesAtOnce : Obligations.NopCompletesAtOnce := by
  refine ⟨fun s => ⟨fun hidle => ?_, fun hbusy => ?_⟩, ?_⟩
  · refine ⟨_, ?_, rfl, Bool.and_true s.ctrl.ie⟩
    rw [exec_eq, issue_of_idle hidle]
    rfl
  · rw [exec_eq, issue_of_busy hbusy, overrun, Status.overrun]
  · exact ⟨_, rfl, by decide⟩

end Sys2Proof.Machine
end

section
/-! SUPPORT. The measure of what a command has still to do, from one engine step to the next (60_exceptions.md R241, 40_scan.md
R124). -/

namespace Sys2Proof.Machine

/-! ## The attempts left -/

/-- A search from a higher threshold makes no more attempts (40_scan.md R124). -/
theorem attemptBound_anti (step : Nat) {t u : Nat} (h : t ≤ u) : attemptBound step u ≤ attemptBound step t := by
  have hdiv : (Config.tceil - u + step - 1) / step ≤ (Config.tceil - t + step - 1) / step :=
    Nat.div_le_div_right (by omega)
  simp only [attemptBound]
  omega

/-- A search from a threshold that is one step higher makes one attempt less (40_scan.md R123, R124). -/
theorem attemptBound_add_step {step t : Nat} (hstep : 0 < step) (h : t + step < Config.tceil) :
    attemptBound step (t + step) + 1 = attemptBound step t := by
  have hsum : Config.tceil - t + step - 1 = Config.tceil - (t + step) + step - 1 + step := by omega
  rw [attemptBound, attemptBound, hsum, Nat.add_div_right _ hstep, Nat.add_assoc]

section
variable {s : State}

/-- Before the loop a whole search from T0 is left. -/
theorem attemptsLeft_initial (h : s.kind = .initial) : s.attemptsLeft = attemptBound s.cfg.step s.scanRes.t0.toNat := by
  simp only [State.attemptsLeft, h, attemptBound]

/-- In the loop a search from the current threshold is left, but for its second attempt at that threshold. -/
theorem attemptsLeft_loop (h : s.kind = .loop) : s.attemptsLeft + 1 = attemptBound s.cfg.step s.t := by
  simp only [State.attemptsLeft, h, attemptBound, Nat.add_comm]

/-- A running search has an attempt left, its current one. -/
theorem attemptsLeft_pos (hi : Inv s) (hf : s.fsm.searching = true) : 0 < s.attemptsLeft := by
  obtain ⟨hstep, -, -⟩ := Config.legal_bounds hi.legal
  obtain ⟨-, -, ht0, -⟩ := hi.counts
  cases hk : s.kind with
  | initial =>
    have htwo := two_le_attemptBound ht0 hstep
    rw [attemptsLeft_initial hk]
    omega
  | loop =>
    have htwo := two_le_attemptBound (hi.searchPosition hf).belowCeiling hstep
    have hleft := attemptsLeft_loop hk
    omega

/-! ## The ends of the phases -/

/-- After a scan phase at most the convert phase is left (40_scan.md R130). -/
theorem endScanPhase_stepsLeft_le (s : State) : (endScanPhase s).stepsLeft ≤ s.convertSteps := by
  by_cases ho : s.op = .frame
  · have hleft : (endScanPhase s).stepsLeft = 1 + s.frameH := by rw [endScanPhase_frame ho]; rfl
    have hconv : s.convertSteps = 2 + s.frameH := by simp only [State.convertSteps, ho, opConverts, if_true]
    omega
  · rw [endScanPhase_else ho]
    exact Nat.zero_le _

/-- The next attempt of a search, or the end of its phase, is nearer to the end of the command than the last step of the current
attempt (40_scan.md R123). -/
theorem nextLevel_stepsLeft_lt (hstep : 0 < s.cfg.step) (ht0 : s.scanRes.t0.toNat < Config.tceil)
    (hleft : 0 < s.attemptsLeft) : (nextLevel s).stepsLeft < 3 * s.attemptsLeft - 1 + s.convertSteps := by
  have hnext : ∀ t, (nextAttempt t s).stepsLeft + 2 = 3 * attemptBound s.cfg.step t + s.convertSteps := fun t => by
    have hloop : (nextAttempt t s).attemptsLeft + 1 = attemptBound s.cfg.step t := attemptsLeft_loop rfl
    have hsteps : (nextAttempt t s).stepsLeft = 1 + 3 * (nextAttempt t s).attemptsLeft + s.convertSteps := rfl
    omega
  cases hk : s.kind with
  | initial =>
    rw [nextLevel_initial hk ht0, attemptsLeft_initial hk]
    have := hnext s.scanRes.t0.toNat
    omega
  | loop =>
    have hloop := attemptsLeft_loop hk
    by_cases hmore : s.t + s.cfg.step < Config.tceil
    · rw [nextLevel_more hk hmore]
      have := hnext (s.t + s.cfg.step)
      have := attemptBound_add_step hstep hmore
      omega
    · rw [nextLevel_end hk (Nat.le_of_not_lt hmore)]
      have hend : _ ≤ s.convertSteps := endScanPhase_stepsLeft_le { s with t := s.t + s.cfg.step }
      omega

/-! ## The steps of the engine -/

variable {t : State}

/-- SCAN_ENTRY leaves less than a search from threshold 0 (40_scan.md R110). -/
theorem scanEntry_stepsLeft_lt (hf : s.fsm = .scanEntry) (h : scanEntry s = .next t) : t.stepsLeft < s.stepsLeft := by
  have hs : s.stepsLeft = 2 + 3 * attemptBound s.cfg.step 0 + s.convertSteps := by simp only [State.stepsLeft, hf]
  cases hc : s.scanCheck with
  | some e =>
    cases (scanEntry_raises hc).symm.trans h
    have hend : (raise .scanner e s).stepsLeft ≤ s.convertSteps := endScanPhase_stepsLeft_le _
    omega
  | none =>
    cases (scanEntry_starts hc).symm.trans h
    generalize otsu (hist s.luma) = t0
    have ht : (startSearch t0 s.drawn).stepsLeft
        = 1 + 3 * attemptBound s.cfg.step (BitVec.ofNat 8 t0).toNat + s.convertSteps := rfl
    have := attemptBound_anti s.cfg.step (Nat.zero_le (BitVec.ofNat 8 t0).toNat)
    omega

/-- SCAN_BIN begins the attempt's own steps (40_scan.md R120). -/
theorem scanBin_stepsLeft_lt (hf : s.fsm = .scanBin) (h : scanBin s = .next t) : t.stepsLeft < s.stepsLeft := by
  have hs : s.stepsLeft = 1 + 3 * s.attemptsLeft + s.convertSteps := by simp only [State.stepsLeft, hf]
  unfold scanBin at h
  split at h <;> cases h
  have ht : State.stepsLeft { decRequest (binarize s.luma s.t) (countAttempt s.drawn) with fsm := .scanWaitPlain }
      = 3 * s.attemptsLeft + s.convertSteps := rfl
  omega

/-- A consumed plain answer leaves the opened image, or the end of the phase (40_scan.md R121). -/
theorem scanWaitPlain_stepsLeft_lt (hf : s.fsm = .scanWaitPlain) (hleft : 0 < s.attemptsLeft) {r : Response}
    (hr : s.decRsp = some r) (h : scanWaitPlain s = .next t) : t.stepsLeft < s.stepsLeft := by
  have hs : s.stepsLeft = 3 * s.attemptsLeft + s.convertSteps := by simp only [State.stepsLeft, hf]
  cases hfound : found r with
  | true =>
    cases (scanWaitPlain_found hr hfound).symm.trans h
    have hend : (finishFound r false s).stepsLeft ≤ s.convertSteps := endScanPhase_stepsLeft_le _
    omega
  | false =>
    cases (scanWaitPlain_missed hr hfound).symm.trans h
    have ht : s.presentOpened.stepsLeft = 3 * s.attemptsLeft - 1 + s.convertSteps := rfl
    omega

/-- A consumed answer of an opened image leaves the attempts after it, or the end of the phase (40_scan.md R122). -/
theorem scanWaitOpen_stepsLeft_lt (hi : Inv s) (hf : s.fsm = .scanWaitOpen) (hleft : 0 < s.attemptsLeft) {r : Response}
    (hr : s.decRsp = some r) (h : scanWaitOpen s = .next t) : t.stepsLeft < s.stepsLeft := by
  have hs : s.stepsLeft = 3 * s.attemptsLeft - 1 + s.convertSteps := by simp only [State.stepsLeft, hf]
  cases hfound : found r with
  | true =>
    cases (scanWaitOpen_found hr hfound).symm.trans h
    have hend : (finishFound r true s).stepsLeft ≤ s.convertSteps := endScanPhase_stepsLeft_le _
    omega
  | false =>
    cases (scanWaitOpen_missed hr hfound).symm.trans h
    obtain ⟨hstep, -, -⟩ := Config.legal_bounds hi.legal
    obtain ⟨-, -, ht0, -⟩ := hi.counts
    rw [hs]
    exact nextLevel_stepsLeft_lt (s := consume s) hstep ht0 hleft

/-- CONV_ENTRY leaves the rows of the frame at most (41_convert.md R160). -/
theorem convEntry_stepsLeft_lt (hf : s.fsm = .convEntry) (h : convEntry s = .next t) : t.stepsLeft < s.stepsLeft := by
  have hs : s.stepsLeft = 1 + s.frameH := by simp only [State.stepsLeft, hf]
  suffices hle : t.stepsLeft ≤ s.frameH by omega
  cases hc : s.convertCheck with
  | some e =>
    cases (convEntry_raises hc).symm.trans h
    exact Nat.zero_le _
  | none =>
    by_cases h0 : s.frameH = 0
    · cases (convEntry_no_row hc h0).symm.trans h
      exact Nat.zero_le _
    · cases (convEntry_rows hc h0).symm.trans h
      exact Nat.le_refl _

/-- CONV_ROW leaves the rows after its own (41_convert.md R166). -/
theorem convRow_stepsLeft_lt (hf : s.fsm = .convRow) (hrow : s.row < s.frameH) (h : convRow s = .next t) :
    t.stepsLeft < s.stepsLeft := by
  have hs : s.stepsLeft = s.frameH - s.row := by simp only [State.stepsLeft, hf]
  have hfinish : ∀ u : State, u.fsm = .convRow → u.frameH = s.frameH →
      (finishRow s.row u).stepsLeft ≤ s.frameH - (s.row + 1) := fun u hu hH => by
    by_cases hmore : s.row + 1 < u.frameH
    · rw [finishRow_more hmore, ← hH]
      simp only [State.stepsLeft, hu]
      rfl
    · rw [finishRow_last hmore]
      exact Nat.zero_le _
  unfold convRow at h
  split at h
  · cases h
  · split at h <;> cases h
    have := hfinish (countRow s.row (s.writeRow s.row).drawn) hf rfl
    omega

end

/-! ## Acknowledgement -/

/-- The flags after an acknowledgement: 0 where the bit of the word is 1, else as before (60_exceptions.md R226). -/
theorem Status.acknowledge_flags (v : Word) (st : Status) :
    (st.acknowledge v).done = (if v.getLsbD 1 then false else st.done)
      ∧ (st.acknowledge v).err = (if v.getLsbD 2 then false else st.err)
      ∧ (st.acknowledge v).ill = (if v.getLsbD 3 then false else st.ill)
      ∧ (st.acknowledge v).ovr = (if v.getLsbD 4 then false else st.ovr) := by
  simp [Status.acknowledge, Bool.and_comm]

end Sys2Proof.Machine
end

section
/-! PROOFS of the statements about errors, acknowledgement, the interrupt line and progress (60_exceptions.md). -/

namespace Sys2Proof.Machine

/-- Settles O56: the step at each position of the engine; a wait that is not blocked has an answer to consume. -/
theorem everyEngineStepShortensTheCommand : Obligations.EveryEngineStepShortensTheCommand := by
  intro s t hi hidle hb h
  have hanswer : s.fsm.waiting = true → ∃ r, s.decRsp = some r := fun hw => by
    simpa [State.blocked, hw, Option.ne_none_iff_exists'] using hb
  have hleft := attemptsLeft_pos hi
  cases hf : s.fsm with
  | idle => exact absurd hf hidle
  | scanEntry => exact scanEntry_stepsLeft_lt hf ((engineStep_scanEntry hf).symm.trans h)
  | scanBin => exact scanBin_stepsLeft_lt hf ((engineStep_scanBin hf).symm.trans h)
  | scanWaitPlain =>
    obtain ⟨r, hr⟩ := hanswer (by rw [hf]; rfl)
    exact scanWaitPlain_stepsLeft_lt hf (hleft (by rw [hf]; rfl)) hr ((engineStep_scanWaitPlain hf).symm.trans h)
  | scanWaitOpen =>
    obtain ⟨r, hr⟩ := hanswer (by rw [hf]; rfl)
    exact scanWaitOpen_stepsLeft_lt hi hf (hleft (by rw [hf]; rfl)) hr ((engineStep_scanWaitOpen hf).symm.trans h)
  | convEntry => exact convEntry_stepsLeft_lt hf ((engineStep_convEntry hf).symm.trans h)
  | convRow => exact convRow_stepsLeft_lt hf (hi.rowsInOrder hf).1 ((engineStep_convRow hf).symm.trans h)

/-- Settles O9: a raise records its code and ends its phase, by completion or, in FRAME's scan phase, by the convert phase. -/
theorem raiseRecordsTheCodeAndEndsThePhase : Obligations.RaiseRecordsTheCodeAndEndsThePhase := by
  intro s e hs
  exact ⟨complete_of_settled (by exact hs), fun ho => endScanPhase_scan (by exact ho) (by exact hs),
    fun ho => endScanPhase_frame (by exact ho)⟩

/-- Settles O57: an idle engine has no step, and a waiting one has none without an answer; nor has the machine when its agenda is
empty. -/
theorem idleOrWaitingBlockHasNoStep : Obligations.IdleOrWaitingBlockHasNoStep := by
  intro s hs
  have hengine : engineStep s = .next s := by
    rcases hs with hidle | hblocked
    · simp only [engineStep, hidle]
    · obtain ⟨hw, hr⟩ : s.fsm.waiting = true ∧ s.decRsp = none := by simpa [State.blocked] using hblocked
      exact engineStep_of_blocked hw hr
  exact ⟨hengine, fun ha => (step_of_no_agenda ha).trans hengine⟩

/-- Settles O40: the write reaches STATUS, whose four write-one-to-clear flags follow the bits of the word. -/
theorem statusWriteClearsTheOnes : Obligations.StatusWriteClearsTheOnes := by
  intro s v hb
  have hwrite := perform_regWrite hb (off := 0x004) rfl (by decide) (by decide) v
  obtain ⟨hdone, herr, hill, hovr⟩ := s.status.acknowledge_flags v
  exact ⟨_, hwrite, hdone, herr, hill, hovr, rfl, rfl, rfl, rfl⟩

/-- Settles O45: the line is IE and DONE, and each operation leaves IE and sets, clears or keeps DONE, or writes IE. -/
theorem interruptFollowsEnableAndDone : Obligations.InterruptFollowsEnableAndDone := by
  intro s
  have hset : (s.ctrl.ie && true) = s.ctrl.ie := Bool.and_true _
  have hclear : (s.ctrl.ie && false) = false := Bool.and_false _
  refine ⟨by simp only [State.irq, Bool.and_eq_true], hset, hset, hset, fun _ => hclear, fun v hv => ?_, fun v hv => ?_, rfl⟩
  · obtain ⟨hdone, -⟩ := s.status.acknowledge_flags v
    rw [State.irq, acknowledge, hdone, if_pos hv, Bool.and_false]
  · rw [State.irq, writeCtrl, hv, Bool.true_and]

end Sys2Proof.Machine
end

section
/-! SUPPORT. The reset event: the block's registers and FB after it, and the raise of a phase error right after a command's
acceptance (70_reset_and_hazards.md R260 to R263). -/

namespace Sys2Proof.Machine

/-! ## The reset event -/

/-- A reset is the block's, on what the row write it falls inside has left in FB (70_reset_and_hazards.md R260, R261). -/
theorem resetStep_eq (landed : List Bool) (s : State) :
    resetStep landed s = (resetBlock s).drawn.withMemories s.src (s.cutRow landed).fb := by
  obtain ⟨m, h⟩ := cutRow_eq s landed
  rw [resetStep, h]
  rfl

/-- Without a result every result byte reads 0 (10_state.md R39). -/
theorem resWord_of_no_result {s : State} (h : s.res = []) (k : Nat) : s.resWord k = 0#32 := by
  simp only [State.resWord, State.resByte, h, List.getD_nil]
  exact ite_self _

/-- The registers whose words are put together from fields read their reset values after a reset
(70_reset_and_hazards.md R260). -/
theorem reset_words :
    State.reset.readReg .ctrl = 0x00000002#32 ∧ State.reset.readReg .status = 0#32 ∧ State.reset.readReg .frameSize = 0#32
      ∧ State.reset.readReg .srcFmt = 0#32 ∧ State.reset.readReg .fbGeom = 0#32 ∧ State.reset.readReg .convRes = 0#32
      ∧ State.reset.readReg .scanRes = 0#32 ∧ State.reset.readReg .scanCnt = 0#32 ∧ State.reset.readReg .resLen = 0#32 := by
  decide

/-! ## A reset inside a row write -/

/-- Outside a row write there is nothing to cut (70_reset_and_hazards.md R261). -/
theorem cutRow_outside {s : State} (h : s.fsm ≠ .convRow) (landed : List Bool) : s.cutRow landed = s :=
  if_neg fun hrow => h hrow.1

/-- The bytes a row write of `new` at offset `o` leaves when only some have landed (70_reset_and_hazards.md R261). -/
def tornBytes (fb : Memory) (o : Nat) (landed : List Bool) (new : List Byte) : List Byte :=
  new.mapIdx fun k b => if landed.getD k false then b else fb.read (o + k)

/-- A torn write leaves the new byte where it has landed and the old one elsewhere (70_reset_and_hazards.md R261). -/
theorem read_writeBytes_torn {fb : Memory} (hf : fb.wf = true) (o : Nat) (landed : List Bool) (new : List Byte) (a : Nat) :
    (fb.writeBytes o (tornBytes fb o landed new)).read a =
      if o ≤ a ∧ a < o + new.length ∧ landed.getD (a - o) false = true then new.getD (a - o) 0#8 else fb.read a := by
  rw [Memory.read_writeBytes hf, tornBytes, List.length_mapIdx]
  by_cases hin : o ≤ a ∧ a < o + new.length
  · obtain ⟨hle, hlt⟩ := hin
    have hk : a - o < new.length := by omega
    simp [hle, hlt, hk, List.getD_eq_getElem?_getD]
  · rw [if_neg hin, if_neg fun h => hin ⟨h.1, h.2.1⟩]

/-- A reset at CONV_ROW of a checked frame tears the write of the row, where no host write contends (70_reset_and_hazards.md
R261). -/
theorem cutRow_fb {s : State} (hf : s.fsm = .convRow) (hset : s.settled) (hc : s.convertCheck = none)
    (hr : s.row < s.frameH) (landed : List Bool) :
    (s.cutRow landed).fb
      = s.fb.writeBytes (s.rowOffset s.row) (tornBytes s.fb (s.rowOffset s.row) landed (s.frameRow s.row)) := by
  obtain ⟨hsrc, hfb⟩ := hset
  simp only [State.cutRow, if_pos (And.intro hf (row_inside hc hr)), blockBytes_of_settled hfb, rowBytes_of_settled hsrc,
    tornBytes]

/-! ## A phase error right after the acceptance -/

section
variable {s : State} {e : ErrCode} (hidle : s.status.busy = false) (ha : s.agenda = []) (hb : s.cfg.regBase % 4 = 0)
include hidle ha hb

/-- CONVERT of a frame that fails a precheck raises its code in the second step (41_convert.md R160). -/
theorem runSteps_convertRaised (hc : s.convertCheck = some e) :
    runSteps 2 (s.withFetchWord 32 1) = .next (raise .converter e s.convertAccepted) := by
  have hraise : engineStep s.convertAccepted = .next (raise .converter e s.convertAccepted) :=
    (engineStep_convEntry (s := s.convertAccepted) rfl).trans (convEntry_raises hc)
  rw [runSteps_convert hidle hb, runSteps_engine 0 (s := s.convertAccepted) ha hraise, runSteps_zero]

/-- SCAN of a frame that fails a precheck raises its code in the second step (40_scan.md R110). -/
theorem runSteps_scanRaised (hc : s.scanCheck = some e) :
    runSteps 2 (s.withFetchWord 32 2) = .next (raise .scanner e s.scanAccepted) := by
  have hraise : engineStep s.scanAccepted = .next (raise .scanner e s.scanAccepted) :=
    (engineStep_scanEntry (s := s.scanAccepted) rfl).trans (scanEntry_raises hc)
  rw [runSteps_scan hidle hb, runSteps_engine 0 (s := s.scanAccepted) ha hraise, runSteps_zero]

end

/-- STATUS after a reset and one command with a phase error: DONE, ERR and the command's OPCODE (10_state.md R26,
60_exceptions.md R222). -/
theorem failed_status_words :
    (Status.complete true { State.reset.status with lastop := opcodeOf .convert }).word = 0x00001006#32
      ∧ (Status.complete true { State.reset.status with lastop := opcodeOf .scan }).word = 0x00002006#32
      ∧ (Status.complete true { State.reset.status with lastop := opcodeOf .frame }).word = 0x00003006#32 := by
  decide

/-- CONV_RES and SCAN_RES of a phase that found the pixel format unsupported (10_state.md R33, R34, 60_exceptions.md
R220). -/
theorem format_error_words :
    ({ ConvRes.zero with cerr := .unsupportedPixelFormat } : ConvRes).word = 0x00000001#32
      ∧ ({ ScanRes.zero with serr := .unsupportedPixelFormat } : ScanRes).word = 0x00000010#32 := by
  decide

/-- FRAME of a frame that fails a precheck of each phase raises the codes in its second and third step (42_control.md R201,
60_exceptions.md R224). -/
theorem runSteps_frameRaised {s : State} {e e' : ErrCode} (hrest : s.atRest) (ha : s.agenda = [])
    (hb : s.cfg.regBase % 4 = 0) (hscan : s.scanCheck = some e) (hconv : s.convertCheck = some e') :
    runSteps 3 (s.withFetchWord 32 3) = .next (raise .converter e' (s.frameScanRaised e)) := by
  have hraise : engineStep (s.frameScanRaised e) = .next (raise .converter e' (s.frameScanRaised e)) :=
    (engineStep_convEntry (s := s.frameScanRaised e) rfl).trans (convEntry_raises (s := s.frameScanRaised e) hconv)
  exact (runSteps_frameScanRaised hrest ha hb hscan 1).trans (runSteps_engine 0 (s := s.frameScanRaised e) ha hraise)

end Sys2Proof.Machine
end

section
/-! PROOFS of the statements about reset (70_reset_and_hazards.md §1). -/

namespace Sys2Proof.Machine

/-- Settles O47: a reset changes FB only by tearing the row write it falls inside. -/
theorem resetLeavesTheMemories : Obligations.ResetLeavesTheMemories := by
  intro s landed
  refine ⟨_, congrArg Host.Outcome.next (resetStep_eq landed s), rfl, fun hf => ?_, fun hf hwf hset hc hr a => ?_⟩
  · rw [State.withMemories, cutRow_outside hf landed]
  · obtain ⟨-, -, hb, -⟩ := convertCheck_none hc
    rw [State.withMemories, cutRow_fb hf hset hc hr landed, read_writeBytes_torn hwf, frameRow_length hb, State.rowLength]

/-- Settles O46: the block's reset is the same from any state, and no register shows what has landed in FB. -/
theorem resetSetsEveryRegister : Obligations.ResetSetsEveryRegister := by
  intro s landed
  obtain ⟨hctrl, hstatus, hframe, hfmt, hgeom, hconv, hscan, hcnt, hlen⟩ := reset_words
  exact ⟨_, congrArg Host.Outcome.next (resetStep_eq landed s), hctrl, hstatus, rfl, rfl, hframe, hfmt, hgeom, hconv, hscan,
    hcnt, hlen, resWord_of_no_result rfl, rfl, rfl, rfl, rfl, rfl, rfl, rfl, rfl, rfl, rfl, rfl, rfl, rfl⟩

/-- Settles O48: the block is at rest, and SRC_FMT at 0 fails the format check of each phase. -/
theorem unconfiguredCommandsRaiseFormatError : Obligations.UnconfiguredCommandsRaiseFormatError := by
  intro s landed ha hb
  let t : State := (resetBlock s).drawn.withMemories s.src (s.cutRow landed).fb
  have hrest : t.atRest := ⟨rfl, rfl, rfl, rfl⟩
  have hformat : t.channels = 0 ∧ t.depth = 0 := ⟨rfl, rfl⟩
  have hconv : t.convertCheck = some .unsupportedPixelFormat := convertCheck_format (by omega)
  have hscan : t.scanCheck = some .unsupportedPixelFormat := scanCheck_format (by omega)
  obtain ⟨-, -, -, -, -, -, -, hcnt, -⟩ := reset_words
  obtain ⟨hcerr, hserr⟩ := format_error_words
  obtain ⟨hconverted, hscanned, hframed⟩ := failed_status_words
  exact ⟨t, congrArg Host.Outcome.next (resetStep_eq landed s), rfl, rfl, rfl, rfl,
    ⟨_, runSteps_convertRaised (s := t) rfl ha hb hconv, hcerr, hconverted⟩,
    ⟨_, runSteps_scanRaised (s := t) rfl ha hb hscan, hserr, hcnt, hscanned⟩,
    ⟨_, runSteps_frameRaised hrest ha hb hscan hconv, hserr, hcerr, hframed⟩⟩

end Sys2Proof.Machine
end

section
/-! SUPPORT. The invariant of Safety, cut into what holds wherever the engine stands, what holds all through a phase, and
what each position of the engine adds. -/

namespace Sys2Proof.Machine

/-! ## What holds wherever the engine stands -/

/-- The part of the invariant that does not ask where the engine stands: the parameters, the memories, the image RAM, the
result, the counts and the records of the races. -/
structure DataInv (s : State) : Prop where
  legal : s.cfg.legal = true
  srcCanonical : s.src.wf = true
  srcInSpace : ∀ c ∈ s.src, c.1 < s.cfg.srcSize
  fbCanonical : s.fb.wf = true
  fbInSpace : ∀ c ∈ s.fb, c.1 < s.cfg.fbSize
  image : s.img.wf = true ∧ s.img.binary = true ∧ s.img.px.length ≤ s.cfg.scanMaxPixels
  result : s.res.length ≤ s.cfg.resCap ∧ s.resLen.len.toNat = s.res.length ∧ s.scanRes.found = decide (s.res ≠ [])
    ∧ (s.resLen.trunc = true → s.res.length = s.cfg.resCap) ∧ (s.scanRes.opened = true → s.scanRes.found = true)
  counts : s.scanCnt.attempts.toNat ≤ attemptBound s.cfg.step s.scanRes.t0.toNat
    ∧ s.scanCnt.calls.toNat ≤ 2 * s.scanCnt.attempts.toNat ∧ s.scanRes.t0.toNat < Config.tceil
    ∧ s.scanRes.thit.toNat < Config.tceil
  thresholdRange : s.t < Config.tceil + s.cfg.step
  rowRange : s.row < 2 ^ 16
  raceKeys : keysRising s.srcUnsettled = true ∧ keysRising s.fbRace = true

/-- The decoder port is empty (40_scan.md R126). -/
def State.PortEmpty (s : State) : Prop := s.decReq = none ∧ s.decRsp = none

/-- STATUS while phase `p` of a command runs (30_encoding.md R95, 10_state.md R26). -/
structure Status.Running (st : Status) (p : Phase) : Prop where
  busy : st.busy = true
  phase : st.phase = p
  flags : st.done = false ∧ st.err = false ∧ st.ill = false

/-- What holds at every position of a running scan phase. -/
structure State.ScanPhase (s : State) : Prop where
  running : s.status.Running .scan
  scans : opScans s.op = true
  noError : s.err = false ∧ s.scanRes.serr = .none
  convertUntouched : opConverts s.op = true → s.convRes = ConvRes.zero
  nothingFound : s.scanRes.found = false ∧ s.resLen = ResLen.zero
  noRace : s.fbRace = []

/-- What holds at every position of a running convert phase. -/
structure State.ConvertPhase (s : State) : Prop where
  running : s.status.Running .convert
  converts : opConverts s.op = true
  errors : s.err = (opScans s.op && decide (s.scanRes.serr ≠ .none))
  noConvertError : s.convRes.cerr = .none
  portEmpty : s.PortEmpty

/-! ## From the invariant -/

/-- A position in a convert phase is at its entry or at a row. -/
theorem converting_position {f : Fsm} (h : f.converting = true) :
    f ≠ .idle ∧ f.scanning = false ∧ f.searching = false ∧ f.waiting = false ∧ f.phase = .convert
      ∧ (f ≠ .convRow → f = .convEntry) := by
  revert h
  cases f <;> decide

theorem scanning_position {f : Fsm} (h : f.scanning = true) :
    f ≠ .idle ∧ f ≠ .convRow ∧ f.converting = false ∧ f.phase = .scan := by
  revert h
  cases f <;> decide

section
variable {s : State} (hi : Inv s)
include hi

theorem Inv.data : DataInv s := { hi with }

/-- What the invariant says of an idle block. -/
theorem Inv.idle_facts (hf : s.fsm = .idle) :
    s.status.busy = false ∧ s.status.phase = .idle ∧ s.PortEmpty ∧ s.fbRace = [] :=
  ⟨by rw [hi.busy, hf]; rfl, by rw [hi.phase, hf]; rfl, hi.portQuiet (by rw [hf]; rfl), hi.raceWindow (by rw [hf]; rfl)⟩

/-- A block that is not busy is idle (10_state.md R26). -/
theorem Inv.idle_of_not_busy (hb : s.status.busy = false) : s.fsm = .idle := by
  simpa [hb] using hi.busy

theorem Inv.running (hf : s.fsm ≠ .idle) : s.status.Running s.fsm.phase :=
  { busy := by simpa [hf] using hi.busy, phase := hi.phase, flags := hi.runningFlags hf }

theorem Inv.scanPhase (hf : s.fsm.scanning = true) : s.ScanPhase := by
  obtain ⟨hidle, hrow, hconv, hphase⟩ := scanning_position hf
  have hserr := hi.noErrorYet.1 hf
  exact
    { running := hphase ▸ hi.running hidle
      scans := hi.phaseOfCommand.1 hf
      noError := ⟨by simpa [hserr] using hi.errors hidle, hserr⟩
      convertUntouched := hi.rowsNone hidle hrow
      nothingFound := hi.nothingFound hf
      noRace := hi.raceWindow hconv }

theorem Inv.convertPhase (hf : s.fsm.converting = true) : s.ConvertPhase := by
  obtain ⟨hidle, -, -, hwait, hphase, -⟩ := converting_position hf
  have hop := hi.phaseOfCommand.2 hf
  exact
    { running := hphase ▸ hi.running hidle
      converts := hop
      errors := hi.errors hidle
      noConvertError := hi.noErrorYet.2 hidle hop
      portEmpty := hi.portQuiet hwait }

theorem Inv.search (hf : s.fsm.searching = true) : s.ScanPhase ∧ s.scanCheck = none ∧ s.SearchPosition :=
  ⟨hi.scanPhase (by revert hf; cases s.fsm <;> decide), hi.searchChecked hf, hi.searchPosition hf⟩

/-- With an answer in the port its request is gone (40_scan.md R126). -/
theorem Inv.decReq_of_answered (hw : s.fsm.waiting = true) {r : Response} (hr : s.decRsp = some r) : s.decReq = none := by
  obtain ⟨-, hnone⟩ | ⟨hreq, -⟩ := hi.portOpen hw
  · exact absurd (hnone.symm.trans hr) nofun
  · exact hreq

end

/-! ## To the invariant, position by position -/

section
variable {s : State} (hd : DataInv s)
include hd

/-- An idle engine asks for nothing of the command that is over. -/
theorem DataInv.atIdle (hf : s.fsm = .idle) (hbusy : s.status.busy = false) (hphase : s.status.phase = .idle)
    (hport : s.PortEmpty) (hrace : s.fbRace = []) : Inv s := by
  cases s
  cases hf
  exact
    { hd with
      busy := hbusy
      phase := hphase
      runningFlags := fun h => absurd rfl h
      phaseOfCommand := ⟨nofun, nofun⟩
      errors := fun h => absurd rfl h
      noErrorYet := ⟨nofun, fun h => absurd rfl h⟩
      portQuiet := fun _ => hport
      portOpen := nofun
      imageOfFrame := nofun
      nothingFound := nofun
      scanStart := nofun
      searchChecked := nofun
      searchPosition := nofun
      rowsChecked := nofun
      rowsInOrder := nofun
      rowsNone := fun h => absurd rfl h
      raceWindow := fun _ => hrace }

/-- In a convert phase: what its position adds on CONV_RES and the rows. -/
theorem DataInv.inConvertPhase (hf : s.fsm.converting = true) (hp : s.ConvertPhase)
    (hentry : s.fsm = .convEntry → s.convRes = ConvRes.zero)
    (hrow : s.fsm = .convRow → s.convertCheck = none ∧ s.row < s.frameH ∧ s.convRes.rows.toNat = s.row) : Inv s := by
  obtain ⟨hidle, hscan, hsearch, hwait, hphase, hplace⟩ := converting_position hf
  exact
    { hd with
      busy := by simp [hp.running.busy, hidle]
      phase := by rw [hp.running.phase, hphase]
      runningFlags := fun _ => hp.running.flags
      phaseOfCommand := ⟨by rw [hscan]; exact nofun, fun _ => hp.converts⟩
      errors := fun _ => hp.errors
      noErrorYet := ⟨by rw [hscan]; exact nofun, fun _ _ => hp.noConvertError⟩
      portQuiet := fun _ => hp.portEmpty
      portOpen := by rw [hwait]; exact nofun
      imageOfFrame := by rw [hwait]; exact nofun
      nothingFound := by rw [hscan]; exact nofun
      scanStart := fun h => absurd (h ▸ hf) nofun
      searchChecked := by rw [hsearch]; exact nofun
      searchPosition := by rw [hsearch]; exact nofun
      rowsChecked := fun h => (hrow h).1
      rowsInOrder := fun h => (hrow h).2
      rowsNone := fun _ hnot _ => hentry (hplace hnot)
      raceWindow := fun h => absurd (hf.symm.trans h) nofun }

variable (hp : s.ScanPhase)
include hp

/-- In a scan phase: what its position adds on the port, the image and the search. -/
theorem DataInv.inScanPhase (hf : s.fsm.scanning = true) (hquiet : s.fsm.waiting = false → s.PortEmpty)
    (hwait : s.fsm.waiting = true →
      ((s.decReq = some s.img ∧ s.decRsp = none) ∨ (s.decReq = none ∧ s.decRsp.isSome = true))
        ∧ s.img.w = s.frameW ∧ s.img.h = s.frameH)
    (hstart : s.fsm = .scanEntry → s.scanCnt = ScanCnt.zero ∧ s.scanRes = ScanRes.zero)
    (hsearch : s.fsm.searching = true → s.scanCheck = none ∧ s.SearchPosition) : Inv s := by
  obtain ⟨hidle, hrow, hconv, hphase⟩ := scanning_position hf
  exact
    { hd with
      busy := by simp [hp.running.busy, hidle]
      phase := by rw [hp.running.phase, hphase]
      runningFlags := fun _ => hp.running.flags
      phaseOfCommand := ⟨fun _ => hp.scans, by rw [hconv]; exact nofun⟩
      errors := fun _ => by simp [hp.noError]
      noErrorYet := ⟨fun _ => hp.noError.2, fun _ ho => by rw [hp.convertUntouched ho]; rfl⟩
      portQuiet := hquiet
      portOpen := fun h => (hwait h).1
      imageOfFrame := fun h => (hwait h).2
      nothingFound := fun _ => hp.nothingFound
      scanStart := hstart
      searchChecked := fun h => (hsearch h).1
      searchPosition := fun h => (hsearch h).2
      rowsChecked := fun h => absurd h hrow
      rowsInOrder := fun h => absurd h hrow
      rowsNone := fun _ _ => hp.convertUntouched
      raceWindow := fun _ => hp.noRace }

end

end Sys2Proof.Machine
end

section
/-! SUPPORT. The invariant through the operations that all agents' steps share: the records of the races, the completion, the
acceptance and the reset of the block. -/

namespace Sys2Proof.Machine

/-! ## The records of the races -/

theorem keysRising_filter {β : Type} {l : List (Nat × β)} (h : keysRising l = true) (p : Nat × β → Bool) :
    keysRising (l.filter p) = true := by
  simp only [keysRising, decide_eq_true_eq] at h ⊢
  exact h.filter p

theorem keysRising_map {β γ : Type} {l : List (Nat × β)} (h : keysRising l = true) {f : Nat × β → Nat × γ}
    (hf : ∀ p, (f p).1 = p.1) : keysRising (l.map f) = true := by
  simp only [keysRising, decide_eq_true_eq, List.pairwise_map, hf] at h ⊢
  exact h

/-! ## The ends of a command -/

/-- A completion leaves the data alone and drops the records of races that end with the command (60_exceptions.md R222). -/
theorem DataInv.complete {s : State} (hd : DataInv s) (hport : s.PortEmpty) : Inv (complete s) := by
  have hd' : DataInv (Machine.complete s) := { hd with raceKeys := ⟨keysRising_filter hd.raceKeys.1 _, rfl⟩ }
  exact hd'.atIdle rfl rfl rfl hport rfl

/-- At the end of a scan phase the command completes, or FRAME goes on to its convert phase with `S.err` and SERR as they are
(40_scan.md R130). -/
theorem DataInv.endScanPhase {s : State} (hd : DataInv s) (hrun : s.status.Running .scan)
    (herr : s.err = decide (s.scanRes.serr ≠ .none)) (hconv : opConverts s.op = true → s.convRes = ConvRes.zero)
    (hport : s.PortEmpty) : Inv (endScanPhase s) := by
  by_cases ho : s.op = .frame
  · have hd' : DataInv (Machine.endScanPhase s) := by rw [endScanPhase_frame ho]; exact { hd with }
    have hboth : opScans s.op = true ∧ opConverts s.op = true := by rw [ho]; exact ⟨rfl, rfl⟩
    rw [endScanPhase_frame ho] at hd' ⊢
    have hzero := hconv hboth.2
    refine hd'.inConvertPhase rfl ?_ (fun _ => hzero) nofun
    exact ⟨⟨hrun.busy, rfl, hrun.flags⟩, hboth.2, by rw [hboth.1, Bool.true_and]; exact herr,
      congrArg ConvRes.cerr hzero, hport⟩
  · rw [endScanPhase_else ho]
    exact hd.complete hport

/-! ## The starts of a command -/

/-- A threshold of 0 is below the ceiling. -/
theorem tceil_pos : 0 < Config.tceil := by decide

/-- Cleared results and counts are in their ranges (30_encoding.md R95). -/
theorem DataInv.clearScan {s : State} (hd : DataInv s) :
    DataInv { s with scanRes := ScanRes.zero, scanCnt := ScanCnt.zero, resLen := ResLen.zero, res := [] } :=
  { hd with
    result := ⟨Nat.zero_le _, rfl, rfl, nofun, nofun⟩
    counts := ⟨Nat.zero_le _, Nat.le_refl _, tceil_pos, tceil_pos⟩ }

/-- A reset keeps the parameters and the memories and sets the rest (70_reset_and_hazards.md R260). -/
theorem DataInv.resetBlock {s : State} (hd : DataInv s) : Inv (resetBlock s) := by
  have hd' : DataInv (Machine.resetBlock s) :=
    { hd.clearScan with
      image := ⟨rfl, rfl, Nat.zero_le _⟩
      thresholdRange := Nat.lt_of_lt_of_le tceil_pos (Nat.le_add_right _ _)
      rowRange := Nat.two_pow_pos 16
      raceKeys := ⟨keysRising_filter hd.raceKeys.1 _, rfl⟩ }
  exact hd'.atIdle rfl rfl rfl ⟨rfl, rfl⟩ rfl

/-- The acceptance of a command by an idle block is the start of its first phase (30_encoding.md R95). -/
theorem Inv.accept {s : State} (hi : Inv s) (hf : s.fsm = .idle) (op : RunOp) : Inv (accept op s) := by
  obtain ⟨-, -, hport, hrace⟩ := hi.idle_facts hf
  have hconv : ∀ op, opConverts op = true → (Machine.accept op s).convRes = ConvRes.zero := fun op ho => if_pos ho
  cases op with
  | convert =>
    exact DataInv.inConvertPhase { hi.data with } rfl ⟨⟨rfl, rfl, rfl, rfl, rfl⟩, rfl, rfl, rfl, hport⟩
      (fun _ => hconv _ rfl) nofun
  | scan | frame =>
    refine DataInv.inScanPhase { hi.data.clearScan with } ?_ rfl (fun _ => hport) nofun (fun _ => ⟨rfl, rfl⟩) nofun
    exact ⟨⟨rfl, rfl, rfl, rfl, rfl⟩, rfl, ⟨rfl, rfl⟩, hconv _, ⟨rfl, rfl⟩, hrace⟩

end Sys2Proof.Machine
end

section
/-! SUPPORT. The invariant through the engine's steps in a scan phase (40_scan.md). -/

namespace Sys2Proof.Machine

/-- The state after SCAN_BIN has presented the image `y`, with ATTEMPTS at `n` and THIT at `hit` (40_scan.md R120). -/
def State.presentBinary (y : Image) (n : Half) (hit : Byte) (s : State) : State :=
  { s with
    img := y, decReq := some y, scanCnt := { s.scanCnt with attempts := n }, scanRes := { s.scanRes with thit := hit }
    fsm := .scanWaitPlain, draws := s.draws + 1 }

/-! ## The counts of a search -/

/-- The result buffer holds a byte at least (00_scope.md R5). -/
theorem Config.resCap_pos {c : Config} (h : c.legal = true) : 0 < c.resCap := by
  simp only [Config.legal, Bool.and_eq_true, decide_eq_true_eq] at h
  omega

/-- A count below its field's top goes up by one (log 16). -/
theorem toNat_add_one {c : Half} {n : Nat} (h : c.toNat ≤ n) (hn : n < 65535) : (c + 1#16).toNat = c.toNat + 1 := by
  rw [BitVec.toNat_add, BitVec.toNat_ofNat]
  omega

theorem toNat_ofNat_threshold {t : Nat} (h : t < Config.tceil) : (BitVec.ofNat 8 t).toNat = t := by
  rw [BitVec.toNat_ofNat]
  exact Nat.mod_eq_of_lt (Nat.lt_trans h (by decide))

/-- The attempt a search is making is one of those R124 allows. -/
theorem State.SearchPosition.begun_le {s : State} (hp : s.SearchPosition) (hstep : 0 < s.cfg.step)
    (ht0 : s.scanRes.t0.toNat < Config.tceil) : s.attemptsBegun ≤ attemptBound s.cfg.step s.scanRes.t0.toNat := by
  obtain ⟨-, hone, -⟩ | ⟨-, htwo, ht⟩ := hp.threshold
  · have := two_le_attemptBound ht0 hstep
    omega
  · obtain ⟨k, hk⟩ := Nat.exists_eq_add_of_le' htwo
    have hlevel : levelAt s.cfg.step s.scanRes.t0.toNat (k + 1) < Config.tceil := by
      have := hp.belowCeiling
      rwa [ht, hk] at this
    have := (lt_attemptBound_iff ht0 hstep).mpr hlevel
    omega

/-- A failing check has a code (40_scan.md R110). -/
theorem scanCheck_ne_none {s : State} {e : ErrCode} (h : s.scanCheck = some e) : e ≠ .none := by
  unfold State.scanCheck at h
  repeat' split at h
  all_goals cases h
  all_goals decide

section
variable {s : State} (hi : Inv s)
include hi

/-- The counters of a running search fit their fields (10_state.md R35). -/
theorem Inv.counts_fit : s.scanCnt.attempts.toNat ≤ 256 ∧ s.scanCnt.calls.toNat ≤ 512 := by
  obtain ⟨hstep, -, -⟩ := Config.legal_bounds hi.legal
  obtain ⟨hattempts, hcalls, ht0, -⟩ := hi.counts
  have := attemptBound_le ht0 hstep
  omega

/-! ## SCAN_ENTRY -/

/-- SCAN_ENTRY starts the search at a threshold below the ceiling, with no attempt begun but the initial one (40_scan.md
R110). -/
theorem Inv.startSearch (hf : s.fsm = .scanEntry) (hc : s.scanCheck = none) {t0 : Nat} (ht : t0 < Config.tceil) :
    Inv (startSearch t0 s.drawn) := by
  obtain ⟨hcnt, -⟩ := hi.scanStart hf
  obtain ⟨-, -, -, hthit⟩ := hi.counts
  have hzero : s.scanCnt.attempts.toNat = 0 ∧ s.scanCnt.calls.toNat = 0 := by rw [hcnt]; exact ⟨rfl, rfl⟩
  obtain ⟨hattempts, hcalls⟩ := hzero
  have hp := hi.scanPhase (by rw [hf]; rfl)
  have hbyte := toNat_ofNat_threshold ht
  have hd : DataInv (Machine.startSearch t0 s.drawn) :=
    { hi.data with
      counts := ⟨hattempts.trans_le (Nat.zero_le _), hcalls.trans_le (Nat.zero_le _), hbyte.trans_lt ht, hthit⟩
      thresholdRange := Nat.lt_of_lt_of_le ht (Nat.le_add_right _ _) }
  have hpos : (Machine.startSearch t0 s.drawn).SearchPosition :=
    { belowCeiling := ht
      threshold := .inl ⟨rfl, congrArg (· + 1) hattempts, hbyte.symm⟩
      calls := show s.scanCnt.calls.toNat + 0 = 2 * s.scanCnt.attempts.toNat by omega
      hit := nofun }
  exact hd.inScanPhase { hp with } rfl (fun _ => hi.portQuiet (by rw [hf]; rfl)) nofun nofun fun _ => ⟨hc, hpos⟩

/-- A failing check ends the scan phase with its code (40_scan.md R110, 60_exceptions.md R221). -/
theorem Inv.scanRaise (hf : s.fsm = .scanEntry) {e : ErrCode} (hc : s.scanCheck = some e) : Inv (raise .scanner e s) := by
  have hp := hi.scanPhase (by rw [hf]; rfl)
  exact DataInv.endScanPhase { hi.data with } hp.running (decide_eq_true (scanCheck_ne_none hc)).symm hp.convertUntouched
    (hi.portQuiet (by rw [hf]; rfl))

theorem Inv.scanEntry (hf : s.fsm = .scanEntry) {t : State} (h : scanEntry s = .next t) : Inv t := by
  cases hc : s.scanCheck with
  | some e =>
    cases (scanEntry_raises hc).symm.trans h
    exact hi.scanRaise hf hc
  | none =>
    cases (scanEntry_starts hc).symm.trans h
    exact hi.startSearch hf hc (otsu_hist_lt s.luma)

/-! ## SCAN_BIN -/

/-- SCAN_BIN counts the attempt it begins, and with it two calls to come (40_scan.md R120). -/
theorem Inv.presentBinary (hf : s.fsm = .scanBin) {y : Image} (hy : y.wf = true ∧ y.binary = true)
    (hw : y.w = s.frameW) (hh : y.h = s.frameH) {n : Half} (hn : n.toNat = s.scanCnt.attempts.toNat + 1) {hit : Byte}
    (hhit : hit.toNat = s.t) : Inv (s.presentBinary y n hit) := by
  obtain ⟨hp, hc, hs⟩ := hi.search (by rw [hf]; rfl)
  obtain ⟨hstep, -, -⟩ := Config.legal_bounds hi.legal
  obtain ⟨-, -, hsize, -⟩ := scanCheck_none hc
  obtain ⟨-, hcalls, ht0, -⟩ := hi.counts
  have hbegun : s.attemptsBegun = n.toNat := by simp [State.attemptsBegun, hf, hn]
  have hdone : s.scanCnt.calls.toNat = 2 * s.scanCnt.attempts.toNat := by simpa [hf] using hs.calls
  have hlen : y.px.length = y.w * y.h := of_decide_eq_true hy.1
  rw [hw, hh] at hlen
  have hthreshold := hs.threshold
  rw [hbegun] at hthreshold
  have hd : DataInv (s.presentBinary y n hit) :=
    { hi.data with
      image := ⟨hy.1, hy.2, hlen.trans_le hsize⟩
      counts := ⟨hbegun.symm.trans_le (hs.begun_le hstep ht0), show s.scanCnt.calls.toNat ≤ 2 * n.toNat by omega, ht0,
        hhit.trans_lt hs.belowCeiling⟩ }
  have hpos : (s.presentBinary y n hit).SearchPosition :=
    { belowCeiling := hs.belowCeiling
      threshold := hthreshold
      calls := show s.scanCnt.calls.toNat + 2 = 2 * n.toNat by omega
      hit := fun _ => hhit }
  have hrsp : s.decRsp = none := (hi.portQuiet (by rw [hf]; rfl)).2
  exact hd.inScanPhase { hp with } rfl nofun (fun _ => ⟨.inl ⟨rfl, hrsp⟩, hw, hh⟩) nofun fun _ => ⟨hc, hpos⟩

theorem Inv.scanBin (hf : s.fsm = .scanBin) {t : State} (h : scanBin s = .next t) : Inv t := by
  obtain ⟨-, hc, hs⟩ := hi.search (by rw [hf]; rfl)
  obtain ⟨-, -, -, hin⟩ := scanCheck_none hc
  cases (if_pos hin).symm.trans h
  exact hi.presentBinary hf ⟨(binarize_wf _ _).trans (Image.ofFn_wf ..), binarize_binary _ _⟩ rfl rfl
    (toNat_add_one hi.counts_fit.1 (by decide)) (toNat_ofNat_threshold hs.belowCeiling)

end

end Sys2Proof.Machine
end

section
/-! SUPPORT. The invariant through the waits of a search: an answer found, an answer that is not, and the next threshold
(40_scan.md R121 to R130). -/

namespace Sys2Proof.Machine

/-- The state after a response is taken from the port, with CALLS at `n` (40_scan.md R121, R122). -/
def State.responseTaken (n : Half) (s : State) : State := { s with decRsp := none, scanCnt := { s.scanCnt with calls := n } }

/-- An opened image is as binary and as large as the one before (40_scan.md R117). -/
theorem DataInv.opened {s : State} (hd : DataInv s) : DataInv { s with img := opening s.img } := by
  obtain ⟨hwf, hbin, hsize⟩ := hd.image
  have hlen : s.img.px.length = s.img.w * s.img.h := of_decide_eq_true hwf
  exact { hd with image := ⟨opening_wf _, opening_binary hbin, (opening_length _).trans hlen.symm |>.trans_le hsize⟩ }

/-- A found response is stored up to the capacity, which holds a byte at least (40_scan.md R127, R128). -/
theorem DataInv.stored {s : State} (hd : DataInv s) {r : Response} (hr : found r = true) (opened : Bool) :
    DataInv (noteFound opened (store r s)) := by
  obtain ⟨-, hne⟩ := found_iff.mp hr
  obtain ⟨-, hcap, -⟩ := Config.legal_bounds hd.legal
  have hpos := Config.resCap_pos hd.legal
  have hlen : (r.bytes.take s.cfg.resCap).length = min s.cfg.resCap r.bytes.length := List.length_take
  have hsome : r.bytes.take s.cfg.resCap ≠ [] := by simp [hne, Nat.ne_of_gt hpos]
  exact
    { hd with
      result := ⟨by simp, by simp; omega, (decide_eq_true hsome).symm, by simp; omega, fun _ => rfl⟩ }

/-- A wait for the decoder is a position of the search, which is part of the scan phase. -/
theorem waiting_position {f : Fsm} (h : f.waiting = true) : f.searching = true ∧ f.scanning = true := by
  revert h
  cases f <;> decide

/-- A scan phase that has not raised has no error of either kind. -/
theorem State.ScanPhase.err_eq {s : State} (hp : s.ScanPhase) : s.err = decide (s.scanRes.serr ≠ .none) := by
  simp [hp.noError]

section
variable {s : State} (hi : Inv s)
include hi

/-- A waiting search has a call of its attempt to come (40_scan.md R121, R122). -/
theorem Inv.calls_left (hw : s.fsm.waiting = true) : s.scanCnt.calls.toNat < 2 * s.scanCnt.attempts.toNat := by
  have hcalls := (hi.searchPosition (waiting_position hw).1).calls
  cases hf : s.fsm <;> rw [hf] at hw hcalls
  case scanWaitPlain | scanWaitOpen => simp only at hcalls; omega
  all_goals cases hw

/-- The threshold of a waiting search is that of the last attempt counted (40_scan.md R123). -/
theorem Inv.threshold_waiting (hw : s.fsm.waiting = true) :
    (s.kind = .initial ∧ s.scanCnt.attempts.toNat = 1 ∧ s.t = s.scanRes.t0.toNat)
      ∨ (s.kind = .loop ∧ 2 ≤ s.scanCnt.attempts.toNat
        ∧ s.t = s.scanRes.t0.toNat + (s.scanCnt.attempts.toNat - 2) * s.cfg.step) := by
  have hcounted : s.fsm ≠ .scanBin := fun hf => by rw [hf] at hw; cases hw
  have hbegun : s.attemptsBegun = s.scanCnt.attempts.toNat := by rw [State.attemptsBegun, if_neg hcounted, Nat.add_zero]
  exact hbegun ▸ (hi.searchPosition (waiting_position hw).1).threshold

/-- A consumed response is taken and counted as one more call (40_scan.md R121, R122). -/
theorem Inv.consume_eq : ∃ n : Half, n.toNat = s.scanCnt.calls.toNat + 1 ∧ consume s = s.responseTaken n :=
  ⟨_, toNat_add_one hi.counts_fit.2 (by decide), rfl⟩

/-- A taken response is a call of the attempt in progress (40_scan.md R121, R122). -/
theorem Inv.responseTaken (hw : s.fsm.waiting = true) {n : Half} (hn : n.toNat = s.scanCnt.calls.toNat + 1) :
    DataInv (s.responseTaken n) := by
  obtain ⟨hattempts, -, ht0, hthit⟩ := hi.counts
  exact { hi.data with counts := ⟨hattempts, hn.trans_le (hi.calls_left hw), ht0, hthit⟩ }

/-- A plain answer that is not found leaves one call of the attempt to come (40_scan.md R121). -/
theorem Inv.presentOpened (hf : s.fsm = .scanWaitPlain) : Inv s.presentOpened := by
  have hw : s.fsm.waiting = true := by rw [hf]; rfl
  obtain ⟨hp, hc, hs⟩ := hi.search (by rw [hf]; rfl)
  have hcalls : s.scanCnt.calls.toNat + 2 = 2 * s.scanCnt.attempts.toNat := by simpa [hf] using hs.calls
  obtain ⟨n, hn, he⟩ := hi.consume_eq
  rw [State.presentOpened, he]
  refine DataInv.inScanPhase { (hi.responseTaken hw hn).opened with } { hp with } rfl nofun
    (fun _ => ⟨.inl ⟨rfl, rfl⟩, hi.imageOfFrame hw⟩) nofun fun _ => ⟨hc, ?_⟩
  exact
    { belowCeiling := hs.belowCeiling
      threshold := hi.threshold_waiting hw
      calls := show n.toNat + 1 = 2 * s.scanCnt.attempts.toNat by omega
      hit := fun _ => hs.hit hw }

variable {r : Response} (hr : s.decRsp = some r)
include hr

/-- A found response ends the scan phase without an error (40_scan.md R121, R122). -/
theorem Inv.finishFound (hw : s.fsm.waiting = true) (hfound : found r = true) (opened : Bool) :
    Inv (finishFound r opened s) := by
  have hp := hi.scanPhase (waiting_position hw).2
  obtain ⟨n, hn, he⟩ := hi.consume_eq
  rw [Machine.finishFound, he]
  exact ((hi.responseTaken hw hn).stored hfound opened).endScanPhase hp.running hp.err_eq
    hp.convertUntouched ⟨hi.decReq_of_answered hw hr, rfl⟩

/-- The attempt after one that has found nothing is a loop attempt, by as many steps above T0 as loop attempts are done
(40_scan.md R123). -/
theorem Inv.nextAttempt (hf : s.fsm = .scanWaitOpen) {t : Nat} (ht : t < Config.tceil)
    (hlevel : t = s.scanRes.t0.toNat + (s.scanCnt.attempts.toNat - 1) * s.cfg.step) : Inv (nextAttempt t (consume s)) := by
  have hw : s.fsm.waiting = true := by rw [hf]; rfl
  obtain ⟨hp, hc, hs⟩ := hi.search (by rw [hf]; rfl)
  have hcalls : s.scanCnt.calls.toNat + 1 = 2 * s.scanCnt.attempts.toNat := by simpa [hf] using hs.calls
  obtain ⟨n, hn, he⟩ := hi.consume_eq
  have hd := hi.responseTaken hw hn
  rw [he]
  refine DataInv.inScanPhase { hd with thresholdRange := Nat.lt_of_lt_of_le ht (Nat.le_add_right _ _) } { hp with } rfl
    (fun _ => ⟨hi.decReq_of_answered hw hr, rfl⟩) nofun nofun fun _ => ⟨hc, ?_⟩
  exact
    { belowCeiling := ht
      threshold := .inr ⟨rfl, show 2 ≤ s.scanCnt.attempts.toNat + 1 by omega, hlevel⟩
      calls := show n.toNat + 0 = 2 * s.scanCnt.attempts.toNat by omega
      hit := nofun }

/-- An answer of an opened image that is not found leads to the next threshold, or ends the scan phase (40_scan.md R122,
R123). -/
theorem Inv.nextLevel (hf : s.fsm = .scanWaitOpen) : Inv (nextLevel (consume s)) := by
  have hw : s.fsm.waiting = true := by rw [hf]; rfl
  obtain ⟨hk, hone, -⟩ | ⟨hk, htwo, ht⟩ := hi.threshold_waiting hw
  · obtain ⟨-, -, ht0, -⟩ := hi.counts
    rw [nextLevel_initial (s := consume s) hk ht0]
    exact hi.nextAttempt hr hf ht0 (by simp [hone])
  · by_cases hmore : s.t + s.cfg.step < Config.tceil
    · rw [nextLevel_more (s := consume s) hk hmore]
      refine hi.nextAttempt hr hf hmore ?_
      have hloop : s.scanCnt.attempts.toNat - 1 = s.scanCnt.attempts.toNat - 2 + 1 := by omega
      show s.t + s.cfg.step = _
      rw [ht, hloop, Nat.succ_mul, Nat.add_assoc]
    · obtain ⟨hp, -, hs⟩ := hi.search (by rw [hf]; rfl)
      obtain ⟨n, hn, he⟩ := hi.consume_eq
      rw [nextLevel_end (s := consume s) hk (Nat.le_of_not_lt hmore), he]
      exact DataInv.endScanPhase
        { hi.responseTaken hw hn with thresholdRange := Nat.add_lt_add_right hs.belowCeiling _ } hp.running hp.err_eq
        hp.convertUntouched ⟨hi.decReq_of_answered hw hr, rfl⟩

end

section
variable {s t : State} (hi : Inv s)
include hi

theorem Inv.scanWaitPlain (hf : s.fsm = .scanWaitPlain) (h : scanWaitPlain s = .next t) : Inv t := by
  cases hr : s.decRsp with
  | none =>
    simp only [Machine.scanWaitPlain, hr] at h
    cases h
    exact hi
  | some r =>
    cases hfound : found r with
    | true =>
      cases (scanWaitPlain_found hr hfound).symm.trans h
      exact hi.finishFound hr (by rw [hf]; rfl) hfound false
    | false =>
      cases (scanWaitPlain_missed hr hfound).symm.trans h
      exact hi.presentOpened hf

theorem Inv.scanWaitOpen (hf : s.fsm = .scanWaitOpen) (h : scanWaitOpen s = .next t) : Inv t := by
  cases hr : s.decRsp with
  | none =>
    simp only [Machine.scanWaitOpen, hr] at h
    cases h
    exact hi
  | some r =>
    cases hfound : found r with
    | true =>
      cases (scanWaitOpen_found hr hfound).symm.trans h
      exact hi.finishFound hr (by rw [hf]; rfl) hfound true
    | false =>
      cases (scanWaitOpen_missed hr hfound).symm.trans h
      exact hi.nextLevel hr hf

end

end Sys2Proof.Machine
end

section
/-! SUPPORT. The invariant through the engine's steps in a convert phase (41_convert.md). -/

namespace Sys2Proof.Machine

/-! ## Other memories -/

/-- A memory is in its canonical form and inside its space (20_memory.md R60). -/
def Memory.Within (m : Memory) (size : Nat) : Prop := m.wf = true ∧ ∀ c ∈ m, c.1 < size

/-- Bytes written inside the space leave the memory inside it (20_memory.md R60, R63). -/
theorem Memory.Within.writeBytes {m : Memory} {size o : Nat} {l : List Byte} (hm : m.Within size)
    (h : insideSpace size o l.length = true) : (m.writeBytes o l).Within size := by
  refine ⟨Memory.wf_writeBytes hm.1 o l, fun c hc => ?_⟩
  obtain hin | hc := Memory.mem_writeBytes hc
  · have := insideSpace_iff.mp h
    omega
  · exact hm.2 c hc

section
variable {s : State} (hi : Inv s)
include hi

theorem Inv.srcWithin : s.src.Within s.cfg.srcSize := ⟨hi.srcCanonical, hi.srcInSpace⟩

theorem Inv.fbWithin : s.fb.Within s.cfg.fbSize := ⟨hi.fbCanonical, hi.fbInSpace⟩

/-- The invariant asks of the memories that they are inside their spaces, and of the races that they are in their windows. -/
theorem Inv.onMemories {src fb : Memory} {u : List (Nat × Bool)} {r : List (Nat × Contest)}
    (hsrc : src.Within s.cfg.srcSize) (hfb : fb.Within s.cfg.fbSize) (hrace : s.fsm.converting = false → r = [])
    (hkeys : keysRising u = true ∧ keysRising r = true) :
    Inv { s with src := src, fb := fb, srcUnsettled := u, fbRace := r } :=
  { hi with
    srcCanonical := hsrc.1
    srcInSpace := hsrc.2
    fbCanonical := hfb.1
    fbInSpace := hfb.2
    searchPosition := fun h => { hi.searchPosition h with }
    raceWindow := hrace
    raceKeys := hkeys }

/-- The invariant asks nothing of the agenda, the free values, and what the host and the display last read. -/
theorem Inv.ownFields (a : List Event) (d : Nat) (r : Reply) (l : List Byte) :
    Inv { s with agenda := a, draws := d, reply := r, displaySeen := l } :=
  { hi with searchPosition := fun h => { hi.searchPosition h with } }

/-! ## CONV_ENTRY -/

/-- Past the checks the rows begin, with none counted (41_convert.md R160). -/
theorem Inv.rowsBegin (hf : s.fsm = .convEntry) (hc : s.convertCheck = none) (h0 : s.frameH ≠ 0) :
    Inv { s with row := 0, fsm := .convRow } := by
  have hp := hi.convertPhase (by rw [hf]; rfl)
  have hzero : s.convRes = ConvRes.zero :=
    hi.rowsNone (by rw [hf]; exact nofun) (by rw [hf]; exact nofun) hp.converts
  exact DataInv.inConvertPhase { hi.data with rowRange := Nat.two_pow_pos 16 } rfl { hp with } nofun
    fun _ => ⟨hc, Nat.pos_of_ne_zero h0, congrArg (fun c => c.rows.toNat) hzero⟩

theorem Inv.convEntry (hf : s.fsm = .convEntry) {t : State} (h : convEntry s = .next t) : Inv t := by
  have hport : s.PortEmpty := (hi.convertPhase (by rw [hf]; rfl)).portEmpty
  cases hc : s.convertCheck with
  | some e =>
    cases (convEntry_raises hc).symm.trans h
    exact DataInv.complete { hi.data with } hport
  | none =>
    by_cases h0 : s.frameH = 0
    · cases (convEntry_no_row hc h0).symm.trans h
      exact DataInv.complete { hi.data with rowRange := Nat.two_pow_pos 16 } hport
    · cases (convEntry_rows hc h0).symm.trans h
      exact hi.rowsBegin hf hc h0

/-! ## CONV_ROW -/

/-- A row that is written is counted, and the next one follows or the command completes (41_convert.md R166). -/
theorem Inv.finishRow (hf : s.fsm = .convRow) : Inv (finishRow s.row (countRow s.row s)) := by
  by_cases hmore : s.row + 1 < s.frameH
  · have hrow : s.row + 1 < 2 ^ 16 := Nat.lt_trans hmore s.frameSize.h.isLt
    rw [finishRow_more (s := countRow s.row s) hmore]
    exact
      { hi with
        searchPosition := fun h => { hi.searchPosition h with }
        rowsInOrder := fun _ => ⟨hmore, Nat.mod_eq_of_lt hrow⟩
        rowsNone := fun _ h => absurd hf h
        rowRange := hrow }
  · rw [finishRow_last (s := countRow s.row s) hmore]
    exact DataInv.complete { hi.data with } (hi.convertPhase (by rw [hf]; rfl)).portEmpty

/-- The row write of a convert phase (41_convert.md R166). -/
theorem Inv.writeRow (hf : s.fsm = .convRow) (hw : s.rowWritable s.row = true) : Inv (s.writeRow s.row) := by
  have hfb := hi.fbWithin.writeBytes (l := s.blockBytes (s.rowOffset s.row) (s.rowBytes s.row))
    (by rw [blockBytes_length]; exact hw)
  exact hi.onMemories hi.srcWithin hfb (by rw [hf]; exact nofun)
    ⟨hi.raceKeys.1, keysRising_map hi.raceKeys.2 fun _ => rfl⟩

theorem Inv.convRow (hf : s.fsm = .convRow) {t : State} (h : convRow s = .next t) : Inv t := by
  obtain ⟨hread, hwrite⟩ := row_inside (hi.rowsChecked hf) (hi.rowsInOrder hf).1
  have ht : t = Machine.finishRow s.row (countRow s.row (s.writeRow s.row).drawn) := by
    rw [Machine.convRow, hread, hwrite] at h
    exact (Host.Outcome.next.inj h).symm
  rw [ht]
  exact ((hi.writeRow hf hwrite).ownFields _ _ _ _).finishRow hf

end

/-- The engine's step keeps the invariant, at each of its positions. -/
theorem Inv.engineStep {s t : State} (hi : Inv s) (h : engineStep s = .next t) : Inv t := by
  cases hf : s.fsm with
  | idle => exact engineStep_of_idle h hf ▸ hi
  | scanEntry => exact hi.scanEntry hf ((engineStep_scanEntry hf).symm.trans h)
  | scanBin => exact hi.scanBin hf ((engineStep_scanBin hf).symm.trans h)
  | scanWaitPlain => exact hi.scanWaitPlain hf ((engineStep_scanWaitPlain hf).symm.trans h)
  | scanWaitOpen => exact hi.scanWaitOpen hf ((engineStep_scanWaitOpen hf).symm.trans h)
  | convEntry => exact hi.convEntry hf ((engineStep_convEntry hf).symm.trans h)
  | convRow => exact hi.convRow hf ((engineStep_convRow hf).symm.trans h)

end Sys2Proof.Machine
end

section
/-! SUPPORT. The invariant through the steps of the host, the decoder and the reset (60_exceptions.md R240). -/

namespace Sys2Proof.Machine

/-- With an event next on the agenda the step performs it (60_exceptions.md R240). -/
theorem step_of_event {s : State} {e : Event} {rest : List Event} (ha : s.agenda = e :: rest) :
    step s = perform e { s with agenda := rest } := by
  simp only [step, agentStep, ha]

/-- The records of the host's SRC writes list each byte once. -/
theorem writeSrc_keysRising {s : State} (h : keysRising s.srcUnsettled = true) (a : Nat) (l : List Byte) :
    keysRising (s.writeSrc a l).srcUnsettled = true := by
  induction l generalizing s a with
  | nil => exact h
  | cons b bs ih => exact ih (keysRising_putKey h a false) (a + 1)

section
variable {s : State} (hi : Inv s)
include hi

/-! ## Registers -/

/-- The configuration of an idle block is the host's to choose (10_state.md R41). -/
theorem Inv.configured (hf : s.fsm = .idle) (c : Ctrl) (base stride : Word) (f : FrameSize) (m : SrcFmt) (g : FbGeom) :
    Inv { s with ctrl := c, srcBase := base, srcStride := stride, frameSize := f, srcFmt := m, fbGeom := g } := by
  obtain ⟨hbusy, hphase, hport, hrace⟩ := hi.idle_facts hf
  exact DataInv.atIdle { hi.data with } hf hbusy hphase hport hrace

/-- The flags of a completed command and LASTOP are free while the block is idle (10_state.md R26). -/
theorem Inv.idleFlags (hf : s.fsm = .idle) (done err ill : Bool) (op : BitVec 4) :
    Inv { s with status := { s.status with done := done, err := err, ill := ill, lastop := op } } := by
  obtain ⟨hbusy, hphase, hport, hrace⟩ := hi.idle_facts hf
  exact DataInv.atIdle { hi.data with } hf hbusy hphase hport hrace

/-- An overrun sets no flag that the invariant speaks of (30_encoding.md R94). -/
theorem Inv.overrun : Inv (overrun s) := { hi with searchPosition := fun h => { hi.searchPosition h with } }

/-- An acknowledgement sets no flag (60_exceptions.md R226). -/
theorem Inv.acknowledge (v : Word) : Inv (acknowledge v s) :=
  { hi with
    runningFlags := fun h => by
      obtain ⟨hdone, herr, hill⟩ := hi.runningFlags h
      simp [Status.acknowledge, hdone, herr, hill]
    searchPosition := fun h => { hi.searchPosition h with } }

/-- WCHK keeps its value while the block is busy (10_state.md R41). -/
theorem Inv.writeCtrl (v : Word) : Inv (writeCtrl v s) := by
  cases hb : s.status.busy with
  | false => exact hi.configured (hi.idle_of_not_busy hb) _ _ _ _ _ _
  | true =>
    have hkept : Machine.writeCtrl v s = { s with ctrl := { ie := v.getLsbD 0, wchk := s.ctrl.wchk } } := by
      simp only [Machine.writeCtrl, hb, if_true]
    rw [hkept]
    exact { hi with searchPosition := fun h => { hi.searchPosition h with } }

theorem Inv.writeReg (v : Word) (r : Reg) : Inv (s.writeReg v r) := by
  have config : ∀ u : State, (s.fsm = .idle → Inv u) → Inv (writeConfig u s) := fun u hu => by
    unfold writeConfig
    split
    · exact hi.overrun
    · exact hu (hi.idle_of_not_busy (Bool.eq_false_of_not_eq_true ‹_›))
  cases r
  case ctrl => exact hi.writeCtrl v
  case status => exact hi.acknowledge v
  case srcBase | srcStride | frameSize | srcFmt | fbGeom => exact config _ fun hf => hi.configured hf _ _ _ _ _ _
  all_goals exact hi

/-- Whatever a word written to CMD does, it starts a command of an idle block or changes flags (30_encoding.md R92 to R95). -/
theorem CommandTaken.inv {v : Word} {t : State} (h : CommandTaken v s t) : Inv t := by
  cases h with
  | dropped => exact hi.overrun
  | nop hb => exact hi.idleFlags (hi.idle_of_not_busy hb) _ _ _ _
  | run op hb =>
    have hf := hi.idle_of_not_busy hb
    have hnoted : Inv (s.noteOp (opcodeOf (commandOf op))) := hi.idleFlags hf _ _ _ _
    exact hnoted.accept hf op
  | illegal hb => exact hi.idleFlags (hi.idle_of_not_busy hb) _ _ _ _

theorem Inv.hostStore {addr size : Nat} {v : Word} {t : State} (h : hostStore addr size v s = .next t) : Inv t := by
  have hreply : ∀ r, Inv { s with reply := r } := fun r => hi.ownFields _ _ _ _
  obtain ⟨r, he⟩ | ⟨-, -, ⟨r, -, -, he⟩ | ⟨-, he⟩⟩ := hostStore_cases addr size v s
  · cases he.symm.trans h
    exact hreply r
  · cases he.symm.trans h
    exact (hreply .written).writeReg v r
  · exact (commandWrite_taken (he.symm.trans h)).inv (hreply .written)

theorem Inv.hostLoad (addr size : Nat) : Inv (hostLoad addr size s) := by
  unfold Machine.hostLoad
  repeat' split
  all_goals exact hi.ownFields _ _ _ _

/-! ## SRC and FB -/

/-- A host write inside SRC (20_memory.md R60, R73). -/
theorem Inv.writeSrc {a : Nat} {l : List Byte} (h : insideSpace s.cfg.srcSize a l.length = true) : Inv (s.writeSrc a l) := by
  rw [writeSrc_eq]
  exact hi.onMemories (writeSrc_src s a l ▸ hi.srcWithin.writeBytes h) hi.fbWithin hi.raceWindow
    ⟨writeSrc_keysRising hi.raceKeys.1 a l, hi.raceKeys.2⟩

/-- A barrier keeps the addresses of the records, or drops them all (20_memory.md R73). -/
theorem Inv.syncSrc : Inv s.syncSrc := by
  have hkeys : keysRising s.syncSrc.srcUnsettled = true := by
    simp only [State.syncSrc_fields]
    split
    · exact keysRising_map hi.raceKeys.1 fun _ => rfl
    · rfl
  exact hi.onMemories hi.srcWithin hi.fbWithin hi.raceWindow ⟨hkeys, hi.raceKeys.2⟩

/-- A host write of one byte inside FB contends only with a convert phase that runs (20_memory.md R75). -/
theorem Inv.hostWriteByte {o : Nat} (h : o < s.cfg.fbSize) (k : Nat) (b : Byte) : Inv (s.hostWriteByte o k b) := by
  have hfb : ∀ c, (s.fb.write o c).Within s.cfg.fbSize := fun c =>
    hi.fbWithin.writeBytes (l := [c]) (insideSpace_iff.mpr (.inr h))
  unfold State.hostWriteByte
  split
  · rename_i hc
    have hconv : s.fsm.converting = true := by
      revert hc
      simp only [State.converting]
      cases s.fsm <;> decide
    exact hi.onMemories hi.srcWithin (hfb _) (fun h => absurd (hconv.symm.trans h) nofun)
      ⟨hi.raceKeys.1, keysRising_putKey hi.raceKeys.2 _ _⟩
  · exact hi.onMemories hi.srcWithin (hfb b) hi.raceWindow hi.raceKeys

end

theorem Inv.hostWrite {s : State} (hi : Inv s) {o : Nat} {l : List Byte} (h : insideSpace s.cfg.fbSize o l.length = true)
    (k : Nat) : Inv (s.hostWrite o k l) := by
  induction l generalizing s o k with
  | nil => exact hi
  | cons b bs ih =>
    have hin : o + (bs.length + 1) ≤ s.cfg.fbSize := (insideSpace_iff.mp h).resolve_left nofun
    obtain ⟨m, r, he⟩ := hostWriteByte_eq s o k b
    refine ih (hi.hostWriteByte (by omega) k b) (insideSpace_iff.mpr (.inr ?_)) (k + 1)
    rw [he]
    show o + 1 + bs.length ≤ s.cfg.fbSize
    omega

section
variable {s : State} (hi : Inv s)
include hi

/-! ## The decoder and the reset -/

/-- The decoder answers a request of the wait the engine stands at (40_scan.md R126). -/
theorem Inv.decoderAnswer (r : Response) : Inv (decoderAnswer r s) := by
  by_cases hp : s.decReq = none ∨ s.decRsp ≠ none
  · rw [decoderAnswer_discarded hp]
    exact hi
  · obtain ⟨hreq, hrsp⟩ := not_or.mp hp
    obtain ⟨img, himg⟩ := Option.ne_none_iff_exists'.mp hreq
    rw [decoderAnswer_pending himg (Classical.not_not.mp hrsp)]
    exact
      { hi with
        portQuiet := fun hw => absurd (hi.portQuiet hw).1 hreq
        portOpen := fun _ => .inr ⟨rfl, rfl⟩
        searchPosition := fun h => { hi.searchPosition h with } }

/-- A reset inside a row write leaves FB inside its space (70_reset_and_hazards.md R261). -/
theorem Inv.cutRow (landed : List Bool) : Inv (s.cutRow landed) := by
  unfold State.cutRow
  split
  · rename_i h
    obtain ⟨-, -, hw⟩ := h
    have hfb := hi.fbWithin.writeBytes
      (l := tornBytes s.fb (s.rowOffset s.row) landed (s.blockBytes (s.rowOffset s.row) (s.rowBytes s.row)))
      (by rw [tornBytes, List.length_mapIdx, blockBytes_length]; exact hw)
    exact hi.onMemories hi.srcWithin hfb hi.raceWindow hi.raceKeys
  · exact hi

theorem Inv.resetStep (landed : List Bool) : Inv (resetStep landed s) :=
  (hi.cutRow landed).data.resetBlock.ownFields _ _ _ _

/-- Every event of the agenda keeps the invariant (60_exceptions.md R240). -/
theorem Inv.perform {e : Event} {t : State} (h : perform e s = .next t) : Inv t := by
  cases e with
  | regRead addr size => cases h; exact hi.hostLoad addr size
  | regWrite addr size v => exact hi.hostStore h
  | srcRead a n | fbRead a n | display a n =>
    simp only [Machine.perform] at h
    split at h <;> cases h
    exact hi.ownFields _ _ _ _
  | srcWrite a bytes =>
    simp only [Machine.perform] at h
    split at h <;> cases h
    exact (hi.writeSrc ‹_›).ownFields _ _ _ _
  | srcSync => cases h; exact hi.syncSrc
  | fbWrite o bytes =>
    simp only [Machine.perform] at h
    split at h <;> cases h
    exact (hi.hostWrite ‹_› 0).ownFields _ _ _ _
  | decoder r => cases h; exact hi.decoderAnswer r
  | reset landed => cases h; exact hi.resetStep landed
  | engine => exact hi.engineStep h

end

end Sys2Proof.Machine
end

section
/-! PROOFS of the statements about the invariant of the machine (60_exceptions.md §6, 70_reset_and_hazards.md §1). -/

namespace Sys2Proof.Machine

/-- Settles O53: the registers, memories and counts of reset are in their ranges, and the engine is idle. -/
theorem resetStateIsSafe : Obligations.ResetStateIsSafe := by
  have hd : DataInv State.reset := by constructor <;> decide
  exact hd.atIdle rfl rfl rfl ⟨rfl, rfl⟩ rfl

/-- Settles O54: the engine's step keeps the invariant at each of its positions, and so does each event of the agenda. -/
theorem everyStepKeepsTheInvariant : Obligations.EveryStepKeepsTheInvariant := by
  intro s t hi h
  cases ha : s.agenda with
  | nil => exact hi.engineStep ((step_of_no_agenda ha).symm.trans h)
  | cons e rest =>
    exact (hi.ownFields rest _ _ _).perform ((step_of_event ha).symm.trans h)

end Sys2Proof.Machine
end

section
/-! SUPPORT. What a written word leaves in an idle block's configuration, what the events leave of SRC and FB, and the step
of a CMD write (10_state.md §2, 20_memory.md §1, 30_encoding.md §2). -/

namespace Sys2Proof.Machine

/-! ## The configuration of an idle block -/

/-- A register that keeps its fields of a written word reads back as that word without its reserved bits (10_state.md R23). -/
theorem words_of_written_fields (v : Word) :
    ({ ie := v.getLsbD 0, wchk := v.getLsbD 1 } : Ctrl).word = v &&& 0x00000003#32
      ∧ ({ w := v.extractLsb' 0 16, h := v.extractLsb' 16 16 } : FrameSize).word = v &&& 0xFFFFFFFF#32
      ∧ ({ channels := v.extractLsb' 0 8, depth := v.extractLsb' 8 8 } : SrcFmt).word = v &&& 0x0000FFFF#32
      ∧ ({ vwidth := v.extractLsb' 0 16, bpp := v.extractLsb' 16 8 } : FbGeom).word = v &&& 0x00FFFFFF#32 := by
  refine ⟨?_, ?_, ?_, ?_⟩
  all_goals
    ext i hi
    simp only [← BitVec.getLsbD_eq_getElem, Ctrl.word_bit, FrameSize.word_bit, SrcFmt.word_bit, FbGeom.word_bit,
      BitVec.getLsbD_append, BitVec.getLsbD_and]
    interval_cases i <;> simp

/-- An idle block takes a write to its configuration (10_state.md R41). -/
theorem writeConfig_of_idle {s : State} (h : s.status.busy = false) (u : State) : writeConfig u s = u := by
  rw [writeConfig, h]
  rfl

theorem writeCtrl_of_idle {s : State} (h : s.status.busy = false) (v : Word) :
    writeCtrl v s = { s with ctrl := { ie := v.getLsbD 0, wchk := v.getLsbD 1 } } := by
  rw [writeCtrl, h]
  rfl

/-! ## The memories -/

/-- The parameters and the contents of SRC and FB. -/
def State.memories (s : State) := (s.cfg, s.src, s.fb)

theorem writeReg_memories (s : State) (v : Word) (r : Reg) : (s.writeReg v r).memories = s.memories := by
  have config (u : State) (hu : u.memories = s.memories) : (writeConfig u s).memories = s.memories := by
    unfold writeConfig
    split
    · rfl
    · exact hu
  cases r
  case srcBase | srcStride | frameSize | srcFmt | fbGeom => exact config _ rfl
  all_goals rfl

theorem CommandTaken.memories {v : Word} {s t : State} (h : CommandTaken v s t) : t.memories = s.memories := by
  cases h <;> rfl

theorem hostStore_memories {addr size : Nat} {v : Word} {s t : State} (h : hostStore addr size v s = .next t) :
    t.memories = s.memories := by
  obtain ⟨r, he⟩ | ⟨-, -, ⟨r, -, -, he⟩ | ⟨-, he⟩⟩ := hostStore_cases addr size v s
  · cases he.symm.trans h
    rfl
  · cases he.symm.trans h
    exact writeReg_memories _ v r
  · exact (commandWrite_taken (he.symm.trans h)).memories

theorem hostLoad_memories (addr size : Nat) (s : State) : (hostLoad addr size s).memories = s.memories := by
  unfold hostLoad
  repeat' split
  all_goals rfl

theorem decoderAnswer_memories (r : Response) (s : State) : (decoderAnswer r s).memories = s.memories := by
  unfold decoderAnswer
  split <;> rfl

/-- An event other than a host write to SRC or FB, an engine step or a reset leaves the memories alone. -/
theorem perform_memories {s t : State} {e : Event} (h : perform e s = .next t) (hsrc : ∀ a bytes, e ≠ .srcWrite a bytes)
    (hfb : ∀ o bytes, e ≠ .fbWrite o bytes) (hengine : e ≠ .engine) (hreset : ∀ landed, e ≠ .reset landed) :
    t.memories = s.memories := by
  cases e with
  | regRead addr size => cases h; exact hostLoad_memories addr size s
  | regWrite addr size v => exact hostStore_memories h
  | srcSync => cases h; rfl
  | decoder r => cases h; exact decoderAnswer_memories r s
  | srcRead a n | fbRead a n | display a n =>
    simp only [perform] at h
    split at h <;> cases h
    rfl
  | srcWrite a bytes => exact absurd rfl (hsrc a bytes)
  | fbWrite o bytes => exact absurd rfl (hfb o bytes)
  | reset landed => exact absurd rfl (hreset landed)
  | engine => exact absurd rfl hengine

/-- A host write to FB outside a convert phase writes its bytes and enters no contest (20_memory.md R75). -/
theorem hostWrite_outside {s : State} (hc : s.converting = false) (o k : Nat) (l : List Byte) :
    s.hostWrite o k l = { s with fb := s.fb.writeBytes o l } := by
  induction l generalizing s o k with
  | nil => rfl
  | cons b bs ih =>
    have hbyte : s.hostWriteByte o k b = { s with fb := s.fb.write o b } := by rw [State.hostWriteByte, hc]; rfl
    rw [State.hostWrite, hbyte]
    exact ih (s := { s with fb := s.fb.write o b }) hc (o + 1) (k + 1)

/-! ## Command words -/

open BitVec (extractLsb'_append_extractLsb'_eq_extractLsb' extractLsb'_eq_self) in
/-- The four byte lanes of a word make up the word (20_memory.md R64). -/
theorem decodeBytes_bytesOfWord (v : Word) : decodeBytes (bytesOfWord v) = decodeWord v := by
  have hlanes : wordOfBytes (v.extractLsb' 0 8) (v.extractLsb' 8 8) (v.extractLsb' 16 8) (v.extractLsb' 24 8) = v := by
    rw [wordOfBytes, extractLsb'_append_extractLsb'_eq_extractLsb' (show 24 = 16 + 8 from rfl),
      extractLsb'_append_extractLsb'_eq_extractLsb' (show 16 = 8 + 8 from rfl),
      extractLsb'_append_extractLsb'_eq_extractLsb' (show 8 = 0 + 8 from rfl)]
    exact extractLsb'_eq_self
  rw [bytesOfWord, decodeBytes, hlanes]

/-- With a command's write to CMD next on the agenda, the step runs the command (30_encoding.md R92). -/
theorem step_of_cmdWrite {s : State} {v : Word} {rest : List Event} (hb : s.cfg.regBase % 4 = 0) {i : Instr}
    (hd : decodeWord v = .ok i) (ha : s.agenda = .regWrite (s.cfg.regBase + 0x008) 4 v :: rest) :
    step s = exec i { s with agenda := rest, reply := .written } := by
  rw [step_of_event ha, perform_cmdWrite (s := { s with agenda := rest }) hb, commandWrite, hd]

end Sys2Proof.Machine
end

section
/-! PROOFS of the statements about the writes of an idle block, the memories, and the command words and their step
(10_state.md §2, 20_memory.md §1, 30_encoding.md). -/

namespace Sys2Proof.Machine

/-- Settles O38: each write sets the fields of its register, whose word is then that of the fields. -/
theorem idleWriteIsReadBack : Obligations.IdleWriteIsReadBack := by
  intro s v hidle hb writes
  have write (off : Nat) (h4 : off % 4 = 0) (hlt : off < 4096) (hr : regAt off ≠ .cmd) :
      writes off ({ s with reply := .written }.writeReg v (regAt off)) := perform_regWrite hb h4 hlt hr v
  have config (u : State) : writeConfig u { s with reply := .written } = u :=
    writeConfig_of_idle (s := { s with reply := .written }) hidle u
  have ctrl := writeCtrl_of_idle (s := { s with reply := .written }) hidle v
  have hctrl := write 0x000 rfl (by decide) (by decide)
  have hbase := write 0x00C rfl (by decide) (by decide)
  have hstride := write 0x010 rfl (by decide) (by decide)
  have hsize := write 0x014 rfl (by decide) (by decide)
  have hfmt := write 0x018 rfl (by decide) (by decide)
  have hgeom := write 0x01C rfl (by decide) (by decide)
  simp only [regAt, State.writeReg, ctrl, config, Nat.reduceEqDiff, if_true, if_false]
    at hctrl hbase hstride hsize hfmt hgeom
  have readBack (off : Nat) (mask : Word) (t : State) (h4 : off % 4 = 0) (hlt : off < 4096) (hw : writes off t)
      (hc : t.cfg = s.cfg) (hword : t.readReg (regAt off) = v &&& mask) :
      ∃ t, writes off t ∧ perform (.regRead (t.cfg.regBase + off) 4) t = .next { t with reply := .word (v &&& mask) } :=
    ⟨t, hw, hword ▸ perform_regRead (hc ▸ hb) h4 hlt⟩
  obtain ⟨wctrl, wsize, wfmt, wgeom⟩ := words_of_written_fields v
  have wall : v = v &&& 0xFFFFFFFF#32 := BitVec.and_allOnes.symm
  refine ⟨hctrl, hbase, hstride, hsize, hfmt, hgeom, fun off mask hmem => ?_⟩
  simp only [List.mem_cons, List.mem_nil_iff, or_false, Prod.mk.injEq] at hmem
  rcases hmem with ⟨rfl, rfl⟩ | ⟨rfl, rfl⟩ | ⟨rfl, rfl⟩ | ⟨rfl, rfl⟩ | ⟨rfl, rfl⟩ | ⟨rfl, rfl⟩
  · exact readBack _ _ _ rfl (by decide) hctrl rfl wctrl
  · exact readBack _ _ _ rfl (by decide) hbase rfl wall
  · exact readBack _ _ _ rfl (by decide) hstride rfl wall
  · exact readBack _ _ _ rfl (by decide) hsize rfl wsize
  · exact readBack _ _ _ rfl (by decide) hfmt rfl wfmt
  · exact readBack _ _ _ rfl (by decide) hgeom rfl wgeom

/-- Settles O52: by the kind of event; of the engine only its row write reaches a memory, of a reset only the row it cuts. -/
theorem onlyTheNamedStepsChangeTheMemories : Obligations.OnlyTheNamedStepsChangeTheMemories := by
  intro s t e h
  cases e with
  | srcWrite a bytes =>
    simp only [perform] at h
    split at h <;> cases h
    rw [writeSrc_eq]
    exact ⟨rfl, fun hne => absurd rfl (hne a bytes), fun _ _ => rfl⟩
  | fbWrite o bytes =>
    simp only [perform] at h
    split at h <;> cases h
    obtain ⟨m, r, hw⟩ := hostWrite_eq s o 0 bytes
    rw [hw]
    exact ⟨rfl, fun _ => rfl, fun hne => absurd rfl (hne o bytes)⟩
  | engine =>
    have hside := engineStep_hostSide h
    simp only [State.hostSide, Prod.mk.injEq] at hside
    obtain ⟨hsrc, hfb⟩ := engineStep_memories h
    refine ⟨by simp only [hside], fun _ => hsrc, fun _ hrow => hfb.trans (if_neg fun hf => hrow ⟨hf, .inl rfl⟩)⟩
  | reset landed =>
    cases h
    rw [resetStep_eq]
    refine ⟨rfl, fun _ => rfl, fun _ hrow => ?_⟩
    rw [cutRow_outside fun hf => hrow ⟨hf, .inr ⟨landed, rfl⟩⟩]
    rfl
  | _ =>
    have hm := perform_memories h nofun nofun nofun nofun
    simp only [State.memories, Prod.mk.injEq] at hm
    obtain ⟨hcfg, hsrc, hfb⟩ := hm
    exact ⟨hcfg, fun _ => hsrc, fun _ _ => hfb⟩

/-- Settles O60: the writes at their bytes, the faults at the end of the space. -/
theorem hostWritesStoreTheirBytes : Obligations.HostWritesStoreTheirBytes := by
  intro s a bytes hs hf
  have outside {size : Nat} (hne : bytes ≠ []) (h : size < a + bytes.length) :
      ¬ insideSpace size a bytes.length = true := by
    have := List.length_pos_iff.mpr hne
    rw [insideSpace_iff]
    omega
  refine ⟨fun hin => ?_, fun hin hc => ?_, fun hne h => if_neg (outside hne h), fun hne h => if_neg (outside hne h)⟩
  · refine ⟨_, if_pos (insideSpace_iff.mpr (.inr hin)), ?_⟩
    rw [writeSrc_eq, writeSrc_src]
    exact ⟨rfl, rfl, rfl, fun c => Memory.read_writeBytes hs a c bytes⟩
  · refine ⟨_, if_pos (insideSpace_iff.mpr (.inr hin)), ?_⟩
    rw [hostWrite_outside hc]
    exact ⟨rfl, rfl, rfl, fun c => Memory.read_writeBytes hf a c bytes⟩

/-- Settles O1: the byte lanes of a word make it up again, and the decoder inverts the encoder. -/
theorem decodeOfEncodedCommand : Obligations.DecodeOfEncodedCommand := by
  intro i
  have hbytes : decodeBytes (bytesOfWord (encode i)) = .ok i := (decodeBytes_bytesOfWord _).trans (decodeWord_encode i)
  exact ⟨by cases i <;> rfl, hbytes, by rw [decodeTableWord, tableWord_full, hbytes]⟩

/-- Settles O2: by evaluation of the decoder on the ten words. -/
theorem tableWordsDecode : Obligations.TableWordsDecode := by
  unfold Obligations.TableWordsDecode
  decide

/-- Settles O4: the step takes the next event off the agenda; a command's write to CMD hands its word to the sequencer. -/
theorem stepRunsTheWrittenCommand : Obligations.StepRunsTheWrittenCommand := by
  intro s
  refine ⟨fun e rest ha => step_of_event ha, step_of_no_agenda, fun v i hb hd => ⟨fun rest ha => ?_, ?_⟩⟩
  · exact step_of_cmdWrite hb hd ha
  · rw [State.withFetchWord, tableWord_full]
    exact step_of_cmdWrite (s := withCommand v s) hb hd rfl

end Sys2Proof.Machine
end
